-- ==== Sys2Proof/Syntax.lean ====
section
/-! DEFINITION. The sixteen commands of the engine (30_encoding.md R105, R107), one constructor
per row of spec/opcode_table.json, each with the bank fields its class uses. -/

namespace Sys2Proof

/-- A bank field of a command word: three bits (30_encoding.md R101). The values 6 and 7 name no
bank (R103); `Bank.valid` tells them apart. -/
abbrev Bank := BitVec 3

/-- The banks by name (10_state.md R48). -/
def Bank.A : Bank := 0
def Bank.B : Bank := 1
def Bank.FA : Bank := 2
def Bank.FB : Bank := 3
def Bank.FC : Bank := 4
def Bank.C : Bank := 5

/-- The command set (30_encoding.md R107). -/
inductive Instr where
  /-- 43_orchestrator.md R217 -/
  | nop
  /-- 43_orchestrator.md R218 -/
  | mul
  /-- 41_codec.md R163 -/
  | enca (rd : Bank)
  /-- 41_codec.md R164 -/
  | encb (rd : Bank)
  /-- 41_codec.md R167 -/
  | dec (rs1 : Bank)
  /-- 42_ntt.md R191 -/
  | nttf (rd rs1 : Bank)
  /-- 42_ntt.md R192 -/
  | ntti (rd rs1 : Bank)
  /-- 42_ntt.md R193 -/
  | nttw (rd rs1 : Bank)
  /-- 42_ntt.md R194 -/
  | scal (rd rs1 : Bank)
  /-- 40_ring_arithmetic.md R142 -/
  | padd (rd rs1 rs2 : Bank)
  /-- 40_ring_arithmetic.md R143 -/
  | psub (rd rs1 rs2 : Bank)
  /-- 40_ring_arithmetic.md R144 -/
  | pmul (rd rs1 rs2 : Bank)
  /-- 40_ring_arithmetic.md R138 -/
  | madd
  /-- 40_ring_arithmetic.md R139 -/
  | msub
  /-- 40_ring_arithmetic.md R140 -/
  | mmul
  /-- 40_ring_arithmetic.md R141 -/
  | minv
deriving DecidableEq, Repr

end Sys2Proof
end

