-- ==== Sys2Proof/WellFormed.lean ====
section
/-! DEFINITION. Which commands are legal: every bank field a command uses names one of the six
banks (30_encoding.md R103, R106 (4)). -/

namespace Sys2Proof

/-- 30_encoding.md R103: the values 6 and 7 name no bank. -/
def Bank.valid (b : Bank) : Bool := decide (b.toNat ≤ 5)

/-- The bank fields a command uses (30_encoding.md R105). -/
def Instr.banks : Instr → List Bank
  | .nop => []
  | .mul => []
  | .enca rd => [rd]
  | .encb rd => [rd]
  | .dec rs1 => [rs1]
  | .nttf rd rs1 => [rd, rs1]
  | .ntti rd rs1 => [rd, rs1]
  | .nttw rd rs1 => [rd, rs1]
  | .scal rd rs1 => [rd, rs1]
  | .padd rd rs1 rs2 => [rd, rs1, rs2]
  | .psub rd rs1 rs2 => [rd, rs1, rs2]
  | .pmul rd rs1 rs2 => [rd, rs1, rs2]
  | .madd => []
  | .msub => []
  | .mmul => []
  | .minv => []

/-- 30_encoding.md R106 (4): every used bank field holds 0..5. -/
def Instr.wf (i : Instr) : Bool := i.banks.all Bank.valid

end Sys2Proof
end

