-- ==== Sys2Proof/Word.lean ====
section
/-! DEFINITION. The words of the host bus and their smallest parts (20_memory.md R74, R75). -/

namespace Sys2Proof

/-- A 32-bit bus word, and also a command word (20_memory.md R74, 30_encoding.md R100). -/
abbrev Word := BitVec 32

/-- One byte of the bank window (20_memory.md R75). -/
abbrev Byte := BitVec 8

end Sys2Proof
end

