-- ==== Sys2Proof/Decode.lean ====
section
/-! DEFINITION. The command decoder (30_encoding.md R101, R106, R108) and the encoder written from
the same table (R101, R107, R111). A refused word is `none`, which the sequencer answers with
E_ILLEGAL (60_exceptions.md R252). -/

namespace Sys2Proof

/-- The fields of a command word (30_encoding.md R101). -/
def fieldOpc (c : Word) : BitVec 8 := c.extractLsb' 0 8
def fieldRd (c : Word) : Bank := c.extractLsb' 8 3
def fieldRs1 (c : Word) : Bank := c.extractLsb' 12 3
def fieldRs2 (c : Word) : Bank := c.extractLsb' 16 3

/-- 30_encoding.md R106 (2): bits [31:19], [15] and [11] are 0. -/
def reservedZero (c : Word) : Bool :=
  c.extractLsb' 19 13 == 0 && c.extractLsb' 15 1 == 0 && c.extractLsb' 11 1 == 0

/-- The class of a command, with its constructor: which bank fields it uses (30_encoding.md R105).
The fields are in the order RD, RS1, RS2. -/
inductive Form where
  | none (i : Instr)
  | d (mk : Bank → Instr)
  | s (mk : Bank → Instr)
  | ds (mk : Bank → Bank → Instr)
  | dss (mk : Bank → Bank → Bank → Instr)

/-- The command that an OPC value selects (30_encoding.md R107); the other 240 values select none
(R109). -/
def formOf (opc : Nat) : Option Form :=
  match opc with
  | 0x00 => some (.none .nop)
  | 0x01 => some (.none .mul)
  | 0x10 => some (.d .enca)
  | 0x11 => some (.d .encb)
  | 0x12 => some (.s .dec)
  | 0x20 => some (.ds .nttf)
  | 0x21 => some (.ds .ntti)
  | 0x22 => some (.ds .nttw)
  | 0x23 => some (.ds .scal)
  | 0x30 => some (.dss .padd)
  | 0x31 => some (.dss .psub)
  | 0x32 => some (.dss .pmul)
  | 0x40 => some (.none .madd)
  | 0x41 => some (.none .msub)
  | 0x42 => some (.none .mmul)
  | 0x43 => some (.none .minv)
  | _ => Option.none

/-- 30_encoding.md R106 (3) and (4), R108: an unused bank field is 0, a used one is 0..5. -/
def fillForm (f : Form) (rd rs1 rs2 : Bank) : Option Instr :=
  match f with
  | .none i => if rd = 0 ∧ rs1 = 0 ∧ rs2 = 0 then some i else Option.none
  | .d mk => if rd.valid ∧ rs1 = 0 ∧ rs2 = 0 then some (mk rd) else Option.none
  | .s mk => if rd = 0 ∧ rs1.valid ∧ rs2 = 0 then some (mk rs1) else Option.none
  | .ds mk => if rd.valid ∧ rs1.valid ∧ rs2 = 0 then some (mk rd rs1) else Option.none
  | .dss mk => if rd.valid ∧ rs1.valid ∧ rs2.valid then some (mk rd rs1 rs2) else Option.none

/-- 30_encoding.md R108: every 32-bit word decodes to one command or to ILLEGAL (`none`). -/
def decode (c : Word) : Option Instr :=
  if reservedZero c then
    match formOf (fieldOpc c).toNat with
    | some f => fillForm f (fieldRd c) (fieldRs1 c) (fieldRs2 c)
    | Option.none => Option.none
  else Option.none

/-- 30_encoding.md R111: the word is OPC | RD<<8 | RS1<<12 | RS2<<16, unused fields 0. -/
def packWord (opc : BitVec 8) (rd rs1 rs2 : Bank) : Word :=
  opc.setWidth 32 ||| (rd.setWidth 32 <<< 8) ||| (rs1.setWidth 32 <<< 12) ||| (rs2.setWidth 32 <<< 16)

/-- The command word of a command (30_encoding.md R107, R111). -/
def encode : Instr → Word
  | .nop => packWord 0x00 0 0 0
  | .mul => packWord 0x01 0 0 0
  | .enca rd => packWord 0x10 rd 0 0
  | .encb rd => packWord 0x11 rd 0 0
  | .dec rs1 => packWord 0x12 0 rs1 0
  | .nttf rd rs1 => packWord 0x20 rd rs1 0
  | .ntti rd rs1 => packWord 0x21 rd rs1 0
  | .nttw rd rs1 => packWord 0x22 rd rs1 0
  | .scal rd rs1 => packWord 0x23 rd rs1 0
  | .padd rd rs1 rs2 => packWord 0x30 rd rs1 rs2
  | .psub rd rs1 rs2 => packWord 0x31 rd rs1 rs2
  | .pmul rd rs1 rs2 => packWord 0x32 rd rs1 rs2
  | .madd => packWord 0x40 0 0 0
  | .msub => packWord 0x41 0 0 0
  | .mmul => packWord 0x42 0 0 0
  | .minv => packWord 0x43 0 0 0

/-- The `match` and `mask` columns of 30_encoding.md R107 for a command. -/
def Instr.matchMask : Instr → Word × Word
  | .nop => (0x00000000, 0xFFFFFFFF)
  | .mul => (0x00000001, 0xFFFFFFFF)
  | .enca _ => (0x00000010, 0xFFFFF8FF)
  | .encb _ => (0x00000011, 0xFFFFF8FF)
  | .dec _ => (0x00000012, 0xFFFF8FFF)
  | .nttf _ _ => (0x00000020, 0xFFFF88FF)
  | .ntti _ _ => (0x00000021, 0xFFFF88FF)
  | .nttw _ _ => (0x00000022, 0xFFFF88FF)
  | .scal _ _ => (0x00000023, 0xFFFF88FF)
  | .padd _ _ _ => (0x00000030, 0xFFF888FF)
  | .psub _ _ _ => (0x00000031, 0xFFF888FF)
  | .pmul _ _ _ => (0x00000032, 0xFFF888FF)
  | .madd => (0x00000040, 0xFFFFFFFF)
  | .msub => (0x00000041, 0xFFFFFFFF)
  | .mmul => (0x00000042, 0xFFFFFFFF)
  | .minv => (0x00000043, 0xFFFFFFFF)

/-- The decoder on a table word (spec/opcode_table.json): the low `nbits` bits of `w`, every bit
above them 0, as the one 32-bit word a host writes to CMD. -/
def decodeTableWord (nbits w : Nat) : Option Instr :=
  decode (BitVec.ofNat 32 (w % 2 ^ nbits))

end Sys2Proof
end

