-- ==== Sys2Proof/Config.lean ====
section
/-! DEFINITION. The one implementation parameter of the engine, KMAX (00_scope.md R11, R13).
The spec leaves no result of a command open, so there is no opaque free value here. -/

namespace Sys2Proof

/-- 00_scope.md R11: KMAX is a power of two from 64 to 4096, so LKMAX = log2 KMAX is 6 plus 0..6.
Every legal value of the parameter is a value of this type and no other is. -/
structure Config where
  lkOff : Fin 7
deriving DecidableEq, Repr

/-- LKMAX = log2(KMAX), 6..12 (00_scope.md R11). -/
def Config.lkmax (c : Config) : Nat := 6 + c.lkOff.val

/-- KMAX, the maximum transform length (00_scope.md R11). Irreducible, so that no elaborator unfolds
powers of it; the kernel evaluates it as any other definition. -/
@[irreducible] def Config.kmax (c : Config) : Nat := 2 ^ c.lkmax

/-- KMAX = 64, the value every vector of 95_test_vectors.md assumes. DESIGN CHOICE (log entry 1):
`State.reset` uses it; no definition and no statement depends on it. Safe. -/
def Config.default : Config := { lkOff := 0 }

end Sys2Proof
end

