-- ==== Sys2Proof/Machine/State.lean ====
section
/-! DEFINITION. The architectural state of the engine as plain data (10_state.md R20), what the
host and the platform may still do to it, and the state right after reset (10_state.md R56). -/

namespace Sys2Proof.Machine

/-- The sequencer phases (43_orchestrator.md R211). -/
inductive Phase where
  | idle | sign | triv | enc | fntt | pmul | intt | scale | dec | fin | sub
deriving DecidableEq, Repr

/-- The error codes of STATUS.ECODE (60_exceptions.md R251); the values 6..15 do not exist. -/
inductive ECode where
  | none | illegal | arg | range | noinv | cap
deriving DecidableEq, Repr

/-- The sources of ERRINFO.SRC (10_state.md R39); the values 5..7 are never written. -/
inductive ErrSrc where
  | none | rs1 | rs2 | rx | ry
deriving DecidableEq, Repr

/-- The width of a host access; only 32 bits is accepted (20_memory.md R76). -/
inductive Width where
  | w8 | w16 | w32 | w64
deriving DecidableEq, Repr

/-- What the outside can do next. The order of these items in `State.inputs` says which agent moves
next, so every interleaving of the host and the sequencer is some list (log entry 2). -/
inductive Input where
  /-- The host performs MemRead (20_memory.md R74). -/
  | read (width : Width) (addr : Word)
  /-- The host performs MemWrite (20_memory.md R74). -/
  | write (width : Width) (addr data : Word)
  /-- The sequencer makes one move (43_orchestrator.md R214). -/
  | seq
  /-- The platform drives rst_n, active low (70_reset_and_hazards.md R280). -/
  | rstn (level : Bool)
deriving DecidableEq, Repr

/-- The bus response to the last host access (20_memory.md R74): OK, OK with the word read, or a
bus error, which carries no data. -/
inductive Resp where
  | none
  | ok
  | data (w : Word)
  | error
deriving DecidableEq, Repr

/-- The working values of a running MUL (10_state.md R54, 43_orchestrator.md R218). None of them is
observable. `klog` is log2 K; p and the roots are functions of K. -/
structure Work where
  signC : Int
  mA : Nat
  mB : Nat
  dA : Nat
  dB : Nat
  trivial : Bool
  klog : Nat
  vA : List Nat
  vB : List Nat
  fA : List Nat
  fB : List Nat
  fC : List Nat
  raw : List Nat
  vC : List Nat
  prod : Int
  c : Nat
deriving DecidableEq, Repr

/-- 10_state.md R56: no command is in flight, so there are no working values. -/
def Work.empty : Work :=
  { signC := 0, mA := 0, mB := 0, dA := 0, dB := 0, trivial := false, klog := 0,
    vA := [], vB := [], fA := [], fB := [], fC := [], raw := [], vC := [], prod := 0, c := 0 }

/-- The bank window (20_memory.md R73): (address, byte) pairs, addresses strictly rising. An address
that is not listed holds no value: its word has WR = 0 (10_state.md R55). -/
abbrev Memory := List Host.Cell

/-- The state of the engine and of its interface (10_state.md R20). STATUS.BUSY, irq, ID, PARAM0,
PARAM1 and the WR flags are views of these fields (log entries 6 and 14). A multi-word register is
the unsigned integer of its words (00_scope.md R14); the operations that write it keep it within
its width (log entry 7). -/
structure State where
  /-- configuration: KMAX (00_scope.md R11); no step writes it -/
  cfg : Config
  /-- CTRL.IE (10_state.md R24) -/
  ie : Bool
  /-- CTRL.DIAG_EN (10_state.md R24) -/
  diagEn : Bool
  /-- STATUS.DONE (10_state.md R27) -/
  done : Bool
  /-- STATUS.ERR (10_state.md R28) -/
  err : Bool
  /-- STATUS.DIAGV (10_state.md R29) -/
  diagv : Bool
  /-- STATUS.TRIV (10_state.md R30) -/
  triv : Bool
  /-- STATUS.ECODE (10_state.md R31) -/
  ecode : ECode
  /-- STATUS.PHASE, the sequencer state (10_state.md R32) -/
  phase : Phase
  /-- CMD: the last accepted command word (10_state.md R34) -/
  cmd : Word
  /-- KCFG.KLOG2 (10_state.md R35) -/
  klog2 : BitVec 5
  /-- OPSIGN.ANEG (10_state.md R36) -/
  aneg : Bool
  /-- OPSIGN.BNEG (10_state.md R36) -/
  bneg : Bool
  /-- RESINFO.NEG (10_state.md R37) -/
  resNeg : Bool
  /-- DIGITS.DA (10_state.md R38) -/
  da : BitVec 16
  /-- DIGITS.DB (10_state.md R38) -/
  db : BitVec 16
  /-- ERRINFO.IDX (10_state.md R39) -/
  errIdx : BitVec 16
  /-- ERRINFO.SRC (10_state.md R39) -/
  errSrc : ErrSrc
  /-- OPA, MAGW bits (10_state.md R41) -/
  opa : Nat
  /-- OPB, MAGW bits (10_state.md R41) -/
  opb : Nat
  /-- RES, MAGW bits (10_state.md R43) -/
  res : Nat
  /-- RX, EW bits (10_state.md R45) -/
  rx : Nat
  /-- RY, EW bits (10_state.md R45) -/
  ry : Nat
  /-- RZ, EW bits (10_state.md R46) -/
  rz : Nat
  /-- the vector banks 0..5 with their WR flags (10_state.md R48, R55) -/
  mem : Memory
  /-- DIAG_EN as sampled at acceptance (43_orchestrator.md R213, R228) -/
  diagReq : Bool
  /-- working values of the running MUL (10_state.md R54) -/
  work : Work
  /-- the reset input, true = released (70_reset_and_hazards.md R280) -/
  rstN : Bool
  /-- the model's own: what the host, the sequencer and the platform do next (log entry 2) -/
  inputs : List Input
  /-- the model's own: the response to the last host access (20_memory.md R74) -/
  resp : Resp
deriving DecidableEq, Repr

/-- Why a run stops. Safe: the hardware goes on with a value the spec leaves unspecified. -/
inductive Fault where
  /-- Raised by a command that reads a bank element some word of which has WR = 0 (10_state.md R55,
  70_reset_and_hazards.md R291, U1). The spec asks the model to fault. Safe. -/
  | commandReadUnwritten (bank : Bank) (idx : Nat)
  /-- Raised by a host read of a bank word with WR = 0 (10_state.md R55, U2). Safe. -/
  | hostReadUnwritten (addr : Word)
  /-- Raised by a host access while rst_n is asserted: no defined response
  (70_reset_and_hazards.md R281, U6 "stuck"). Safe. -/
  | hostAccessDuringReset
deriving DecidableEq, Repr

/-- Why an instruction has no meaning. -/
inductive Refusal where
  /-- Raised by exec's arm of an instruction whose meaning is not written yet; no arm does. Safe. -/
  | notModelled (mnemonic : String)
deriving DecidableEq, Repr

/-- 10_state.md R56 for a configuration: every piece of state at its reset value. The model's own
fields and `diagReq` have values of log entry 21 (DESIGN CHOICE). -/
def State.resetOf (c : Config) : State :=
  { cfg := c, ie := false, diagEn := false, done := false, err := false, diagv := false,
    triv := false, ecode := .none, phase := .idle, cmd := 0, klog2 := 0, aneg := false,
    bneg := false, resNeg := false, da := 0, db := 0, errIdx := 0, errSrc := .none,
    opa := 0, opb := 0, res := 0, rx := 0, ry := 0, rz := 0, mem := [],
    diagReq := false, work := Work.empty, rstN := true, inputs := [], resp := .none }

/-- The machine right after reset (10_state.md R56, 70_reset_and_hazards.md R281, R284), at
KMAX = 64 (DESIGN CHOICE, log entry 1; safe: no definition depends on it). -/
def State.reset : State := State.resetOf Config.default

end Sys2Proof.Machine
end

