-- ==== Sys2Proof/Machine/Widths.lean ====
section
/-! DEFINITION. The widths that follow from KMAX (00_scope.md R12), the number codes of the
enumerated fields, and the word parts of a multi-word quantity (00_scope.md R14, 20_memory.md R75). -/

namespace Sys2Proof.Machine

/-- The least e with n ≤ 2^e. -/
def ceilLog2 (n : Nat) : Nat := if n ≤ 1 then 0 else Nat.log2 (n - 1) + 1

/-- The bit length of n: 0 for 0, else the e with 2^(e-1) ≤ n < 2^e. -/
def bitLen (n : Nat) : Nat := if n = 0 then 0 else Nat.log2 n + 1

/-- EW = KMAX + 1, the width of a ring element in bits (00_scope.md R12). -/
def ewOf (c : Config) : Nat := c.kmax + 1

/-- EWW = ceil(EW / 32), words per element (00_scope.md R12). -/
def ewwOf (c : Config) : Nat := (ewOf c + 31) / 32

/-- ESTR = 2^ceil(log2 EWW), the element stride in words (00_scope.md R12). -/
def estrOf (c : Config) : Nat := 2 ^ ceilLog2 (ewwOf c)

/-- 2^KMAX * (10^KMAX - 1) / 9, the largest value DEC can produce (00_scope.md R12, 41_codec.md R168). -/
def maxDecode (c : Config) : Nat := 2 ^ c.kmax * (10 ^ c.kmax - 1) / 9

/-- NWM = MAGW / 32, words per magnitude register (00_scope.md R12). -/
def nwmOf (c : Config) : Nat := (bitLen (maxDecode c) + 31) / 32

/-- MAGW = 32 * ceil(L / 32), the width of a magnitude register in bits (00_scope.md R12). -/
def magwOf (c : Config) : Nat := 32 * nwmOf c

/-- word_j(v) = v[32j+31:32j] (00_scope.md R14). -/
def wordOf (v j : Nat) : Word := BitVec.ofNat 32 (v / 2 ^ (32 * j))

/-- v with its word j replaced by w (00_scope.md R14). Irreducible for the elaborator's sake. -/
@[irreducible] def putWord (v j : Nat) (w : Word) : Nat :=
  v % 2 ^ (32 * j) + w.toNat * 2 ^ (32 * j) + v / 2 ^ (32 * (j + 1)) * 2 ^ (32 * (j + 1))

/-- Byte k of a bus word: bits [8k+7:8k] (20_memory.md R75). -/
def byteOf (w : Word) (k : Nat) : Byte := w.extractLsb' (8 * k) 8

/-- The bus word whose bytes, lowest address first, are these (20_memory.md R75). -/
def wordOfBytes (b0 b1 b2 b3 : Byte) : Word := b3 ++ b2 ++ b1 ++ b0

/-- The value of STATUS.PHASE (43_orchestrator.md R211). -/
def Phase.code : Phase → Nat
  | .idle => 0
  | .sign => 1
  | .triv => 2
  | .enc => 3
  | .fntt => 4
  | .pmul => 5
  | .intt => 6
  | .scale => 7
  | .dec => 8
  | .fin => 9
  | .sub => 10

/-- The value of STATUS.ECODE (60_exceptions.md R251). -/
def ECode.code : ECode → Nat
  | .none => 0
  | .illegal => 1
  | .arg => 2
  | .range => 3
  | .noinv => 4
  | .cap => 5

/-- The value of ERRINFO.SRC (10_state.md R39). -/
def ErrSrc.code : ErrSrc → Nat
  | .none => 0
  | .rs1 => 1
  | .rs2 => 2
  | .rx => 3
  | .ry => 4

end Sys2Proof.Machine
end

