-- ==== Sys2Proof/Machine/Ops.lean ====
section
/-! DEFINITION. The named operations over memory and registers, and the three moves every command
shares: acceptance (43_orchestrator.md R213), completion (R216) and raising an error
(60_exceptions.md R258), with the reset operations beside them. -/

namespace Sys2Proof.Machine

/-! ### The bank window as bytes -/

/-- The byte at an address, or none where nothing has been written since reset (10_state.md R55). -/
def readByte (m : Memory) (a : Nat) : Option Byte :=
  match m with
  | [] => none
  | (x, b) :: rest => if x = a then some b else readByte rest a

/-- The word at an address, or none where some byte of it is unwritten, that is WR = 0
(10_state.md R55; bytes in the order of 20_memory.md R75). -/
def readWord (m : Memory) (a : Nat) : Option Word :=
  match readByte m a, readByte m (a + 1), readByte m (a + 2), readByte m (a + 3) with
  | some b0, some b1, some b2, some b3 => some (wordOfBytes b0 b1 b2 b3)
  | _, _, _, _ => none

/-- Put one new cell before what `k` makes of the old cells above it. -/
def mergeCell (x : Host.Cell) (k : Memory → Memory) : Memory → Memory
  | [] => x :: k []
  | y :: ys =>
    if y.1 < x.1 then y :: mergeCell x k ys
    else if y.1 = x.1 then x :: k ys
    else x :: k (y :: ys)

/-- Write cells (addresses rising) over a memory, keeping the addresses rising. No cell is ever
dropped: an unlisted address holds no value, so no written byte equals it (log entry 5). -/
def mergeCells : List Host.Cell → Memory → Memory
  | [], m => m
  | x :: xs, m => mergeCell x (mergeCells xs) m

/-- The four cells of a word at an address (20_memory.md R75). -/
def wordCells (a : Nat) (w : Word) : List Host.Cell :=
  [(a, byteOf w 0), (a + 1, byteOf w 1), (a + 2, byteOf w 2), (a + 3, byteOf w 3)]

/-- Write one word; it then has WR = 1 (10_state.md R55). -/
def writeWord (m : Memory) (a : Nat) (w : Word) : Memory := mergeCells (wordCells a w) m

/-- The canonical form of a memory: addresses strictly rising. An unlisted address reads as no value,
so no listed entry can equal it. -/
def Memory.wf (m : Memory) : Bool :=
  match m with
  | [] => true
  | [_] => true
  | x :: y :: rest => decide (x.1 < y.1) && Memory.wf (y :: rest)

/-! ### Bank elements -/

/-- The byte address of word j of element i of bank b (20_memory.md R73). -/
def bankAddr (c : Config) (b i j : Nat) : Nat :=
  0x10000000 + b * 0x01000000 + i * (4 * estrOf c) + 4 * j

/-- The unsigned integer of `n` words from word j of element i on, or none if one is unwritten
(00_scope.md R14, 10_state.md R55). -/
def readWordsFrom (c : Config) (m : Memory) (b i : Nat) : Nat → Nat → Option Nat
  | 0, _ => some 0
  | n + 1, j =>
    match readWord m (bankAddr c b i j), readWordsFrom c m b i n (j + 1) with
    | some w, some v => some (w.toNat + 2 ^ 32 * v)
    | _, _ => none

/-- V[b][i], or none if some word of it has WR = 0 (10_state.md R47, R55). -/
def readElem (c : Config) (m : Memory) (b i : Nat) : Option Nat :=
  readWordsFrom c m b i (ewwOf c) 0

/-- The cells of words j .. j+n-1 of element i holding v (10_state.md R47). -/
def elemCellsFrom (c : Config) (b i v : Nat) : Nat → Nat → List Host.Cell
  | 0, _ => []
  | n + 1, j => wordCells (bankAddr c b i j) (wordOf v j) ++ elemCellsFrom c b i v n (j + 1)

/-- The cells of an element holding v; an element has EW bits (10_state.md R47). -/
def elemCells (c : Config) (b i v : Nat) : List Host.Cell :=
  elemCellsFrom c b i (v % 2 ^ ewOf c) (ewwOf c) 0

/-- The cells of elements i, i+1, ... holding vs. -/
def bankCells (c : Config) (b : Nat) : Nat → List Nat → List Host.Cell
  | _, [] => []
  | i, v :: vs => elemCells c b i v ++ bankCells c b (i + 1) vs

/-- V[b][0..] <- vs: all words of each element written, elements above left alone (10_state.md R49,
R55). -/
def writeBank (c : Config) (b : Nat) (vs : List Nat) (m : Memory) : Memory :=
  mergeCells (bankCells c b 0 vs) m

/-! ### Registers -/

/-- A value as a magnitude register holds it (10_state.md R41, R43; nothing overflows, R168).
Irreducible, as `fitElem`, so that no elaborator unfolds powers of KMAX. -/
@[irreducible] def fitMag (c : Config) (v : Nat) : Nat := v % 2 ^ magwOf c

/-- A value as a ring-element register holds it (10_state.md R45 to R47). -/
@[irreducible] def fitElem (c : Config) (v : Nat) : Nat := v % 2 ^ ewOf c

/-- x[RZ] <- v (10_state.md R46). -/
def State.setRz (s : State) (v : Nat) : State := { s with rz := fitElem s.cfg v }

/-- x[RES] <- v; x[RESINFO].NEG <- neg (10_state.md R37, R43). -/
def State.setRes (s : State) (v : Nat) (neg : Bool) : State :=
  { s with res := fitMag s.cfg v, resNeg := neg }

/-- V[b][0..] <- vs (10_state.md R48, R49). -/
def State.setBank (s : State) (b : Bank) (vs : List Nat) : State :=
  { s with mem := writeBank s.cfg b.toNat vs s.mem }

/-- x[DIGITS] <- (dA, dB) (10_state.md R38). -/
def State.setDigits (s : State) (dA dB : Nat) : State :=
  { s with da := BitVec.ofNat 16 dA, db := BitVec.ofNat 16 dB }

/-- phase <- ph, with the working values after that move (43_orchestrator.md R214). -/
def State.moveTo (s : State) (ph : Phase) (w : Work) : State := { s with phase := ph, work := w }

/-- The inputs still pending, replaced (the model's own field, log entry 2). -/
def State.withInputs (s : State) (r : List Input) : State := { s with inputs := r }

/-! ### Acceptance, completion, errors, reset -/

/-- 43_orchestrator.md R213: the accept step for a command word, one atomic step. BUSY <- 1 is
`phase` leaving IDLE (10_state.md R26). -/
def accept (c : Word) (s : State) : State :=
  { s with
    cmd := c, done := false, err := false, ecode := .none, triv := false,
    errIdx := 0, errSrc := .none, diagReq := s.diagEn,
    diagv := s.diagv && decide (decode c = some .nop),
    phase := if decode c = some .mul then .sign else .sub,
    work := Work.empty }

/-- 43_orchestrator.md R216: DONE <- 1, BUSY <- 0, phase <- IDLE. -/
def complete (s : State) : State := { s with done := true, phase := .idle, work := Work.empty }

/-- The errors a command can raise (60_exceptions.md R251); E_RANGE carries what ERRINFO records. -/
inductive Error where
  | illegal
  | arg
  | range (src : ErrSrc) (idx : Nat)
  | noinv
  | cap
deriving DecidableEq, Repr

/-- The code of an error (60_exceptions.md R251). -/
def Error.ecode : Error → ECode
  | .illegal => .illegal
  | .arg => .arg
  | .range _ _ => .range
  | .noinv => .noinv
  | .cap => .cap

/-- ERRINFO.SRC after an error: written by E_RANGE only (60_exceptions.md R258, R259). -/
def Error.srcAfter (e : Error) (old : ErrSrc) : ErrSrc :=
  match e with
  | .range src _ => src
  | _ => old

/-- ERRINFO.IDX after an error: written by E_RANGE only (60_exceptions.md R258, R259). -/
def Error.idxAfter (e : Error) (old : BitVec 16) : BitVec 16 :=
  match e with
  | .range _ idx => BitVec.ofNat 16 idx
  | _ => old

/-- 60_exceptions.md R258: raising an error, the one shared operation of every command that fails.
It ends the command at once, records the code (and ERRINFO for E_RANGE), and writes nothing else. -/
def raiseErr (e : Error) (s : State) : State :=
  { s with
    ecode := e.ecode, errSrc := e.srcAfter s.errSrc, errIdx := e.idxAfter s.errIdx,
    err := true, phase := .idle, work := Work.empty }

/-- 60_exceptions.md R264, 10_state.md R33: the host acknowledges an event by writing STATUS; bit 1
clears DONE, bit 2 clears ERR, nothing else changes. -/
def ackStatus (v : Word) (s : State) : State :=
  { s with done := s.done && !v.getLsbD 1, err := s.err && !v.getLsbD 2 }

/-- 70_reset_and_hazards.md R281: every piece of the engine's state at its reset value. The
configuration, the pin level and the model's own interface fields stay (log entry 13). -/
def resetEngine (s : State) : State :=
  { State.resetOf s.cfg with rstN := s.rstN, inputs := s.inputs, resp := s.resp }

/-- 70_reset_and_hazards.md R282: a write of CTRL with SRST = 1 has the effect of the hardware reset,
at the write, busy or not; the other bits written with it are ignored. -/
def softReset (s : State) : State := resetEngine s

/-! ### Checks before a command's effect -/

/-- What the checks of a command come to: a value to go on with, an error to raise
(60_exceptions.md R258), or a stop of the model. -/
inductive Check (α : Type) where
  | pass (a : α)
  | raise (e : Error)
  | stop (f : Fault)
deriving DecidableEq, Repr

/-- The next check runs only if the one before passed (60_exceptions.md R260). -/
def Check.bind {α β : Type} (c : Check α) (k : α → Check β) : Check β :=
  match c with
  | .pass a => k a
  | .raise e => .raise e
  | .stop f => .stop f

/-- A command after its checks: its writes and the completion together (43_orchestrator.md R216), or
the error and no write (60_exceptions.md R258), or the model's stop. -/
def Check.finish {α : Type} (c : Check α) (s : State) (k : α → State) :
    Host.Outcome State Fault Refusal :=
  match c with
  | .pass a => .next (complete (k a))
  | .raise e => .next (raiseErr e s)
  | .stop f => .fault f

end Sys2Proof.Machine
end

