-- ==== Sys2Proof/Machine/Flags.lean ====
section
/-! DEFINITION. The status flags as the host reads them (10_state.md R25 to R33, R53), the other
control registers as words (10_state.md R21 to R40), and the interrupt line (60_exceptions.md R261). -/

namespace Sys2Proof.Machine

/-- STATUS.BUSY: BUSY = 0 if and only if PHASE = IDLE (10_state.md R26). -/
def State.busy (s : State) : Bool := decide (s.phase ≠ .idle)

/-- `irq = x[CTRL].IE AND (x[STATUS].DONE OR x[STATUS].ERR)` (60_exceptions.md R261). -/
def State.irq (s : State) : Bool := s.ie && (s.done || s.err)

/-- A flag as a number, for the register words. -/
def bit (b : Bool) : Nat := if b then 1 else 0

/-- ID (10_state.md R22). -/
def idWord : Word := 0x4E545401

/-- PARAM0: LKMAX, NBANKS = 6, TRIV_DIGITS = 3, ROOT = 4 (10_state.md R23). -/
def param0Word (c : Config) : Word :=
  BitVec.ofNat 32 (c.lkmax + 6 * 2 ^ 8 + 3 * 2 ^ 16 + 4 * 2 ^ 24)

/-- PARAM1: EWW and NWM (10_state.md R40). -/
def param1Word (c : Config) : Word := BitVec.ofNat 32 (ewwOf c + nwmOf c * 2 ^ 16)

/-- CTRL: IE, DIAG_EN; SRST and the reserved bits read 0 (10_state.md R24). -/
def State.ctrlWord (s : State) : Word := BitVec.ofNat 32 (bit s.ie + bit s.diagEn * 2)

/-- STATUS (10_state.md R25). -/
def State.statusWord (s : State) : Word :=
  BitVec.ofNat 32 (bit s.busy + bit s.done * 2 + bit s.err * 2 ^ 2 + bit s.diagv * 2 ^ 3
    + bit s.triv * 2 ^ 4 + s.ecode.code * 2 ^ 8 + s.phase.code * 2 ^ 12)

/-- KCFG (10_state.md R35). -/
def State.kcfgWord (s : State) : Word := s.klog2.setWidth 32

/-- OPSIGN (10_state.md R36). -/
def State.opsignWord (s : State) : Word := BitVec.ofNat 32 (bit s.aneg + bit s.bneg * 2)

/-- RESINFO (10_state.md R37). -/
def State.resinfoWord (s : State) : Word := BitVec.ofNat 32 (bit s.resNeg)

/-- DIGITS (10_state.md R38). -/
def State.digitsWord (s : State) : Word := s.db ++ s.da

/-- ERRINFO (10_state.md R39). -/
def State.errinfoWord (s : State) : Word :=
  BitVec.ofNat 32 (s.errIdx.toNat + s.errSrc.code * 2 ^ 16)

end Sys2Proof.Machine
end

