-- ==== Sys2Proof/Machine/Bus.lean ====
section
/-! DEFINITION. The host bus: the address map (20_memory.md R71 to R73), MemRead and MemWrite
(R74), the refused accesses (R76, R77, R79), reserved bits and read-only registers (R78), side effects
(R80, R81), and the reset input (70_reset_and_hazards.md R280, R281). -/

namespace Sys2Proof.Machine

/-- What an aligned 32-bit address names (20_memory.md R71). -/
inductive Target where
  | id | param0 | param1 | ctrl | status | cmd | kcfg | opsign | resinfo | digits | errinfo
  | rx (j : Nat) | ry (j : Nat) | rz (j : Nat)
  | opa (j : Nat) | opb (j : Nat) | res (j : Nat)
  | bank (b i j : Nat)
  | reserved
deriving DecidableEq, Repr

/-- The control and status registers by offset (10_state.md R21). -/
def controlTarget (a : Nat) : Target :=
  match a with
  | 0x000 => .id
  | 0x004 => .param0
  | 0x008 => .param1
  | 0x00C => .ctrl
  | 0x010 => .status
  | 0x014 => .cmd
  | 0x018 => .kcfg
  | 0x01C => .opsign
  | 0x020 => .resinfo
  | 0x024 => .digits
  | 0x028 => .errinfo
  | _ => .reserved

/-- Word j of a multi-word register of n words at `base`, or reserved (20_memory.md R71, R72). -/
def windowTarget (mk : Nat → Target) (base n a : Nat) : Target :=
  if (a - base) / 4 < n then mk ((a - base) / 4) else .reserved

/-- A word of the bank window, or reserved (20_memory.md R73). -/
def bankTarget (c : Config) (a : Nat) : Target :=
  if (a - 0x10000000) / 0x01000000 ≤ 5
      ∧ (a - 0x10000000) % 0x01000000 / (4 * estrOf c) < c.kmax
      ∧ (a - 0x10000000) % 0x01000000 % (4 * estrOf c) / 4 < ewwOf c then
    .bank ((a - 0x10000000) / 0x01000000)
      ((a - 0x10000000) % 0x01000000 / (4 * estrOf c))
      ((a - 0x10000000) % 0x01000000 % (4 * estrOf c) / 4)
  else .reserved

/-- The address map (20_memory.md R71), for an address that is a multiple of 4. -/
def target (c : Config) (a : Nat) : Target :=
  if a < 0x1000 then controlTarget a
  else if a < 0x2000 then windowTarget .rx 0x1000 (ewwOf c) a
  else if a < 0x3000 then windowTarget .ry 0x2000 (ewwOf c) a
  else if a < 0x4000 then windowTarget .rz 0x3000 (ewwOf c) a
  else if a < 0x8000 then windowTarget .opa 0x4000 (nwmOf c) a
  else if a < 0xC000 then windowTarget .opb 0x8000 (nwmOf c) a
  else if a < 0x10000 then windowTarget .res 0xC000 (nwmOf c) a
  else if a < 0x10000000 then .reserved
  else bankTarget c a

/-- The target of an access: any width but 32 bits and any address that is not a multiple of 4 names
nothing (20_memory.md R76). -/
def accessTarget (c : Config) (w : Width) (addr : Word) : Target :=
  if w = .w32 ∧ addr.toNat % 4 = 0 then target c addr.toNat else .reserved

/-- The data windows, locked while BUSY = 1 (20_memory.md R79 (1)). -/
def Target.isData : Target → Bool
  | .rx _ => true
  | .ry _ => true
  | .rz _ => true
  | .opa _ => true
  | .opb _ => true
  | .res _ => true
  | .bank _ _ _ => true
  | _ => false

/-- 20_memory.md R77, R79: reads that get a bus error. -/
def readRefused (busy : Bool) (t : Target) : Bool := t == .reserved || (busy && t.isData)

/-- 20_memory.md R77, R79: writes that get a bus error. -/
def writeRefused (busy : Bool) (t : Target) : Bool :=
  t == .reserved || (busy && (t.isData || t == .cmd || t == .kcfg || t == .opsign))

/-- The word a target reads as, or none for a bank word with WR = 0 (10_state.md R55). A reserved
target has no word; `hostRead` refuses it before it looks. -/
def targetWord (s : State) : Target → Option Word
  | .id => some idWord
  | .param0 => some (param0Word s.cfg)
  | .param1 => some (param1Word s.cfg)
  | .ctrl => some s.ctrlWord
  | .status => some s.statusWord
  | .cmd => some s.cmd
  | .kcfg => some s.kcfgWord
  | .opsign => some s.opsignWord
  | .resinfo => some s.resinfoWord
  | .digits => some s.digitsWord
  | .errinfo => some s.errinfoWord
  | .rx j => some (wordOf s.rx j)
  | .ry j => some (wordOf s.ry j)
  | .rz j => some (wordOf s.rz j)
  | .opa j => some (wordOf s.opa j)
  | .opb j => some (wordOf s.opb j)
  | .res j => some (wordOf s.res j)
  | .bank b i j => readWord s.mem (bankAddr s.cfg b i j)
  | .reserved => none

/-- The bits of word j of an element that exist (10_state.md R47): all 32, but in the top word only
those below EW. -/
def elemWord (c : Config) (j : Nat) (v : Word) : Word :=
  BitVec.ofNat 32 (v.toNat % 2 ^ (ewOf c - 32 * j))

/-- A write of CTRL without SRST: IE and DIAG_EN, at once (10_state.md R24). -/
def setCtrl (v : Word) (s : State) : State := { s with ie := v.getLsbD 0, diagEn := v.getLsbD 1 }

/-- A write of CTRL (10_state.md R24, 70_reset_and_hazards.md R282). -/
def writeCtrl (v : Word) (s : State) : State :=
  if v.getLsbD 31 then softReset s else setCtrl v s

/-- A write of KCFG: any 5-bit value is stored (10_state.md R35). -/
def writeKcfg (v : Word) (s : State) : State := { s with klog2 := v.setWidth 5 }

/-- A write of OPSIGN (10_state.md R36). -/
def writeOpsign (v : Word) (s : State) : State :=
  { s with aneg := v.getLsbD 0, bneg := v.getLsbD 1 }

/-- A write of word j of RX; the bits above EW are ignored (10_state.md R45, R47). -/
def writeRx (j : Nat) (v : Word) (s : State) : State :=
  { s with rx := fitElem s.cfg (putWord s.rx j v) }

/-- A write of word j of RY (10_state.md R45, R47). -/
def writeRy (j : Nat) (v : Word) (s : State) : State :=
  { s with ry := fitElem s.cfg (putWord s.ry j v) }

/-- A write of word j of OPA (10_state.md R41). -/
def writeOpa (j : Nat) (v : Word) (s : State) : State :=
  { s with opa := fitMag s.cfg (putWord s.opa j v) }

/-- A write of word j of OPB (10_state.md R41). -/
def writeOpb (j : Nat) (v : Word) (s : State) : State :=
  { s with opb := fitMag s.cfg (putWord s.opb j v) }

/-- A write of a bank word: it is stored, its WR is set, DIAGV is cleared (20_memory.md R80). -/
def writeBankWord (b i j : Nat) (v : Word) (s : State) : State :=
  { s with mem := writeWord s.mem (bankAddr s.cfg b i j) (elemWord s.cfg j v), diagv := false }

/-- The effect of a write that the bus takes (20_memory.md R78, R81). -/
def writeTarget (s : State) (v : Word) : Target → State
  | .ctrl => writeCtrl v s
  | .status => ackStatus v s
  | .cmd => accept v s
  | .kcfg => writeKcfg v s
  | .opsign => writeOpsign v s
  | .rx j => writeRx j v s
  | .ry j => writeRy j v s
  | .opa j => writeOpa j v s
  | .opb j => writeOpb j v s
  | .bank b i j => writeBankWord b i j v s
  | .id => s
  | .param0 => s
  | .param1 => s
  | .resinfo => s
  | .digits => s
  | .errinfo => s
  | .rz _ => s
  | .res _ => s
  | .reserved => s

/-- The answer of the bus (20_memory.md R74). -/
def State.respond (s : State) (r : Resp) : State := { s with resp := r }

/-- MemRead (20_memory.md R74): a word, a bus error, or the model's stop on an unwritten bank word
(10_state.md R55). A read changes no engine state (R81). -/
def hostRead (w : Width) (addr : Word) (s : State) : Host.Outcome State Fault Refusal :=
  if s.rstN = false then .fault .hostAccessDuringReset
  else if readRefused s.busy (accessTarget s.cfg w addr) then .next (s.respond .error)
  else
    match targetWord s (accessTarget s.cfg w addr) with
    | some v => .next (s.respond (.data v))
    | none => .fault (.hostReadUnwritten addr)

/-- MemWrite (20_memory.md R74): OK with its effect, or a bus error with none (60_exceptions.md R257). -/
def hostWrite (w : Width) (addr v : Word) (s : State) : Host.Outcome State Fault Refusal :=
  if s.rstN = false then .fault .hostAccessDuringReset
  else if writeRefused s.busy (accessTarget s.cfg w addr) then .next (s.respond .error)
  else .next ((writeTarget s v (accessTarget s.cfg w addr)).respond .ok)

/-- The platform drives rst_n (70_reset_and_hazards.md R281): while it is asserted, and when it is
released, every piece of state has its reset value. -/
def driveReset (level : Bool) (s : State) : State :=
  if level && s.rstN then s else { resetEngine s with rstN := level }

end Sys2Proof.Machine
end

