-- ==== Sys2Proof/Machine/RingArith.lean ====
section
/-! DEFINITION. The primitives on mathematical integers: the ring modulo p = 2^K + 1
(40_ring_arithmetic.md R130 to R134), the digit codec (41_codec.md R160 to R162) and the transform
(42_ntt.md R180 to R187). All exact, then reduced (40_ring_arithmetic.md R148). -/

namespace Sys2Proof.Machine

/-- p(K) = 2^K + 1 for K = 2^n (40_ring_arithmetic.md R130). -/
def modulusOf (n : Nat) : Nat := 2 ^ 2 ^ n + 1

/-- 40_ring_arithmetic.md R131. -/
def radd (p a b : Nat) : Nat := (a + b) % p

/-- 40_ring_arithmetic.md R132, with the floored mod of 00_scope.md R15: never negative. -/
def rsub (p a b : Nat) : Nat := (((a : Int) - (b : Int)) % (p : Int)).toNat

/-- 40_ring_arithmetic.md R133. -/
def rmul (p a b : Nat) : Nat := a * b % p

/-- pow(w, i, p) = w^i mod p, with pow(w, 0, p) = 1 mod p for every w (00_scope.md R15). -/
def rpow (p w i : Nat) : Nat := w ^ i % p

/-- Whether the inverse of x exists: gcd(x, p) = 1 (40_ring_arithmetic.md R134). -/
def invertible (p x : Nat) : Bool := Nat.gcd x p == 1

/-- Euclid's algorithm on remainders r0, r1 with cofactors t0, t1 of x modulo p. The remainder falls
at every round, so a fuel above the first r1 is enough. -/
def inverseLoop : Nat → Nat → Nat → Int → Int → Int
  | 0, _, _, t0, _ => t0
  | fuel + 1, r0, r1, t0, t1 =>
    if r1 = 0 then t0 else inverseLoop fuel r1 (r0 % r1) t1 (t0 - (r0 / r1 : Nat) * t1)

/-- 40_ring_arithmetic.md R134: the unique ring element y with rmul(x, y) = 1, where gcd(x, p) = 1. -/
def rinv (p x : Nat) : Nat := (inverseLoop (x + 1) p x 0 1 % (p : Int)).toNat

/-- The forward root, 4 (42_ntt.md R185). -/
def forwardRoot : Nat := 4

/-- The inverse root, 2^(2K-2) mod p, for K = 2^n (42_ntt.md R186). -/
def inverseRoot (n : Nat) : Nat := 2 ^ (2 * 2 ^ n - 2) % modulusOf n

/-- The scale factor, the inverse of K modulo p, for K = 2^n (42_ntt.md R187). -/
def scaleFactor (n : Nat) : Nat := rinv (modulusOf n) (2 ^ n)

/-- Count with fuel: how often n can be divided by 10 before it is 0. -/
def digitCountLoop : Nat → Nat → Nat
  | 0, _ => 0
  | fuel + 1, n => if n = 0 then 0 else digitCountLoop fuel (n / 10) + 1

/-- 41_codec.md R160: the number of decimal digits, 0 for 0. -/
def digitCount (n : Nat) : Nat := digitCountLoop n n

/-- 41_codec.md R161: exactly k digits, least significant first; higher digits are dropped. -/
def digitEncode (n : Nat) : Nat → List Nat
  | 0 => []
  | k + 1 => n % 10 :: digitEncode (n / 10) k

/-- 41_codec.md R162: the exact sum of v[i] * 10^i. -/
def digitDecode : List Nat → Nat
  | [] => 0
  | v :: vs => v + 10 * digitDecode vs

/-- The elements at even indices (42_ntt.md R181). -/
def evens : List Nat → List Nat
  | [] => []
  | [x] => [x]
  | x :: _ :: xs => x :: evens xs

/-- The elements at odd indices (42_ntt.md R181). -/
def odds : List Nat → List Nat
  | [] => []
  | [_] => []
  | _ :: y :: xs => y :: odds xs

/-- The terms x * O[i] with x = w^i mod p, from index i on (42_ntt.md R182). -/
def twiddle (p w : Nat) : Nat → List Nat → List Nat
  | _, [] => []
  | i, o :: os => rmul p (rpow p w i) o :: twiddle p w (i + 1) os

/-- 42_ntt.md R182: the low half is E[i] + t, the high half E[i] - t. -/
def butterfly (p : Nat) (es ts : List Nat) : List Nat :=
  List.zipWith (radd p) es ts ++ List.zipWith (rsub p) es ts

/-- 42_ntt.md R180: the recursive transform of a vector of length 2^m with root w. At length 1 it
answers the vector (R184); the halves use w^2 mod p and the same p (R183). -/
def transform (p : Nat) : Nat → Nat → List Nat → List Nat
  | 0, _, v => v
  | m + 1, w, v =>
    butterfly p (transform p m (rmul p w w) (evens v))
      (twiddle p w 0 (transform p m (rmul p w w) (odds v)))

end Sys2Proof.Machine
end

