-- ==== Sys2Proof/Machine/Operands.lean ====
section
/-! DEFINITION. Where a command's operands come from (30_encoding.md R104) and the checks on them,
in the order of 60_exceptions.md R260: E_ILLEGAL, E_ARG, E_RANGE (RS1, RS2, RX, RY). -/

namespace Sys2Proof.Machine

/-- 30_encoding.md R106 (4): a used bank field above 5 is E_ILLEGAL. The decoder has refused such a
word already, so no decoded command fails here (log entry 16). -/
def checkBanks (bs : List Bank) : Check Unit :=
  if bs.all Bank.valid then .pass () else .raise .illegal

/-- 40_ring_arithmetic.md R137: E_ARG if KLOG2 > LKMAX, else n = KLOG2 with K = 2^n. -/
def checkLength (s : State) : Check Nat :=
  if s.klog2.toNat ≤ s.cfg.lkmax then .pass s.klog2.toNat else .raise .arg

/-- 40_ring_arithmetic.md R136 on the elements i .. i+n-1 of a bank, in increasing index. The first
one that is ≥ p raises E_RANGE; one that is unwritten stops the model (10_state.md R55, log entry 8). -/
def checkElems (s : State) (b : Bank) (src : ErrSrc) (p : Nat) : Nat → Nat → Check (List Nat)
  | 0, _ => .pass []
  | n + 1, i =>
    match readElem s.cfg s.mem b.toNat i with
    | none => .stop (.commandReadUnwritten b i)
    | some v =>
      if v < p then
        (checkElems s b src p n (i + 1)).bind fun vs => .pass (v :: vs)
      else .raise (.range src i)

/-- A source bank of a command of length 2^n, checked and read before any write (R136, R145). -/
def checkBank (s : State) (b : Bank) (src : ErrSrc) (n : Nat) : Check (List Nat) :=
  checkElems s b src (modulusOf n) (2 ^ n) 0

/-- 40_ring_arithmetic.md R136 on RX or RY; the recorded index is 0. -/
def checkScalar (v : Nat) (src : ErrSrc) (n : Nat) : Check Nat :=
  if v < modulusOf n then .pass v else .raise (.range src 0)

/-- `prologue_k()` of 41_codec.md, after the bank fields: the length n = log2 K. -/
def prologueK (s : State) (bs : List Bank) : Check Nat :=
  (checkBanks bs).bind fun _ => checkLength s

/-- `prologue_vec1()` of 42_ntt.md: n and the source vector S. -/
def prologueVec1 (s : State) (bs : List Bank) (rs1 : Bank) : Check (Nat × List Nat) :=
  (prologueK s bs).bind fun n =>
    (checkBank s rs1 .rs1 n).bind fun vs => .pass (n, vs)

/-- `prologue_vec2()` of 40_ring_arithmetic.md: n and the source vectors S1 and S2. -/
def prologueVec2 (s : State) (bs : List Bank) (rs1 rs2 : Bank) :
    Check (Nat × List Nat × List Nat) :=
  (prologueVec1 s bs rs1).bind fun a =>
    (checkBank s rs2 .rs2 a.1).bind fun ws => .pass (a.1, a.2, ws)

/-- `prologue_scalar(1)` of 40_ring_arithmetic.md: n and RX. -/
def prologueScalar1 (s : State) : Check (Nat × Nat) :=
  (checkLength s).bind fun n => (checkScalar s.rx .rx n).bind fun x => .pass (n, x)

/-- `prologue_scalar(2)` of 40_ring_arithmetic.md: n, RX and RY. -/
def prologueScalar2 (s : State) : Check (Nat × Nat × Nat) :=
  (prologueScalar1 s).bind fun a => (checkScalar s.ry .ry a.1).bind fun y => .pass (a.1, a.2, y)

/-- sign(a) of a signed operand: 0 for a zero magnitude, whatever its sign bit (10_state.md R42,
43_orchestrator.md R219). -/
def signOf (neg : Bool) (mag : Nat) : Int := if mag = 0 then 0 else if neg then -1 else 1

end Sys2Proof.Machine
end

