-- ==== Sys2Proof/Machine/Codec.lean ====
section
/-! DEFINITION. The codec commands ENCA, ENCB and DEC (41_codec.md R163, R164, R167). -/

namespace Sys2Proof.Machine

/-- The K low decimal digits of a magnitude into bank RD: no range check, no sign, no error for more
digits (41_codec.md R163, R165). -/
def execEncode (mag : Nat) (rd : Bank) (s : State) : Host.Outcome State Fault Refusal :=
  (prologueK s [rd]).finish s fun n => s.setBank rd (digitEncode mag (2 ^ n))

/-- ENCA (41_codec.md R163). -/
def execEnca (rd : Bank) (s : State) : Host.Outcome State Fault Refusal := execEncode s.opa rd s

/-- ENCB (41_codec.md R164). -/
def execEncb (rd : Bank) (s : State) : Host.Outcome State Fault Refusal := execEncode s.opb rd s

/-- DEC (41_codec.md R167): RES <- decode, NEG <- 0. -/
def execDec (rs1 : Bank) (s : State) : Host.Outcome State Fault Refusal :=
  (prologueVec1 s [rs1] rs1).finish s fun a => s.setRes (digitDecode a.2) false

end Sys2Proof.Machine
end

