-- ==== Sys2Proof/Machine/Orchestrator.lean ====
section
/-! DEFINITION. NOP and MUL (43_orchestrator.md R217 to R229). MUL is written as the moves of its
phases (R211, R218) on the working values (10_state.md R54); everything the host can see is written
by the last move, together with the completion (R216). -/

namespace Sys2Proof.Machine

/-- NOP (43_orchestrator.md R217). -/
def execNop (s : State) : Host.Outcome State Fault Refusal := .next (complete s)

/-- TRIV_DIGITS, the trivial-path threshold (10_state.md R23, 43_orchestrator.md R221). -/
def trivDigits : Nat := 3

/-- Phase SIGN: signs, digit counts, path and length (43_orchestrator.md R219 to R222). -/
def signWork (s : State) : Work :=
  { Work.empty with
    signC := signOf s.aneg s.opa * signOf s.bneg s.opb
    mA := s.opa, mB := s.opb
    dA := digitCount s.opa, dB := digitCount s.opb
    trivial := decide (digitCount s.opa ≤ trivDigits ∧ digitCount s.opb ≤ trivDigits)
    klog := ceilLog2 (digitCount s.opa + digitCount s.opb) }

/-- Phase TRIV: the direct product (43_orchestrator.md R221). -/
def trivWork (w : Work) : Work := { w with prod := w.signC * (w.mA * w.mB : Nat) }

/-- Phase ENC (43_orchestrator.md R223). -/
def encWork (w : Work) : Work :=
  { w with vA := digitEncode w.mA (2 ^ w.klog), vB := digitEncode w.mB (2 ^ w.klog) }

/-- Phase FNTT (43_orchestrator.md R224). -/
def fnttWork (w : Work) : Work :=
  { w with
    fA := transform (modulusOf w.klog) w.klog forwardRoot w.vA
    fB := transform (modulusOf w.klog) w.klog forwardRoot w.vB }

/-- Phase PMUL (43_orchestrator.md R225). -/
def pmulWork (w : Work) : Work := { w with fC := List.zipWith (rmul (modulusOf w.klog)) w.fA w.fB }

/-- Phase INTT: the unscaled inverse transform (43_orchestrator.md R226). -/
def inttWork (w : Work) : Work :=
  { w with raw := transform (modulusOf w.klog) w.klog (inverseRoot w.klog) w.fC }

/-- Phase SCALE (43_orchestrator.md R226). -/
def scaleWork (w : Work) : Work :=
  { w with vC := w.raw.map fun v => rmul (modulusOf w.klog) v (scaleFactor w.klog) }

/-- Phase DEC (43_orchestrator.md R227). -/
def decWork (w : Work) : Work := { w with c := digitDecode w.vC }

/-- What the trivial path writes (43_orchestrator.md R221, R230). -/
def commitTrivial (w : Work) (s : State) : State :=
  { s with
    res := fitMag s.cfg w.prod.natAbs, resNeg := decide (w.prod < 0)
    da := BitVec.ofNat 16 w.dA, db := BitVec.ofNat 16 w.dB, triv := true }

/-- The six banks as the NTT path leaves them, elements 0..K-1 (43_orchestrator.md R223 to R226,
R230; 10_state.md R48). -/
def commitBanks (c : Config) (w : Work) (m : Memory) : Memory :=
  writeBank c Bank.C.toNat w.vC (writeBank c Bank.FC.toNat w.fC (writeBank c Bank.FB.toNat w.fB
    (writeBank c Bank.FA.toNat w.fA (writeBank c Bank.B.toNat w.vB
      (writeBank c Bank.A.toNat w.vA m)))))

/-- What the NTT path writes (43_orchestrator.md R222, R228 to R230). -/
def commitNtt (w : Work) (s : State) : State :=
  { s with
    mem := commitBanks s.cfg w s.mem
    res := fitMag s.cfg w.c, resNeg := decide (w.signC = -1)
    da := BitVec.ofNat 16 w.dA, db := BitVec.ofNat 16 w.dB
    klog2 := BitVec.ofNat 5 w.klog, diagv := s.diagReq }

/-- After the work of SIGN: the path is chosen, and a length above KMAX ends in E_CAP with DIGITS
written (43_orchestrator.md R220 to R222, 60_exceptions.md R254, R258). -/
def leaveSign (w : Work) (s : State) : State :=
  if w.trivial then s.moveTo .triv w
  else if w.klog ≤ s.cfg.lkmax then s.moveTo .enc w
  else raiseErr .cap (s.setDigits w.dA w.dB)

/-- The last move: sign, result, diagnostics flag, completion (43_orchestrator.md R216, R221, R228,
R229). -/
def leaveFin (w : Work) (s : State) : State :=
  complete (if w.trivial then commitTrivial w s else commitNtt w s)

/-- One move of the sequencer along MUL's path (43_orchestrator.md R211, R214, R218). In IDLE and
SUB, which are not on the path, it is the move out of SIGN (log entry 17). -/
def mulMove (s : State) : State :=
  match s.phase with
  | .triv => s.moveTo .fin (trivWork s.work)
  | .enc => s.moveTo .fntt (encWork s.work)
  | .fntt => s.moveTo .pmul (fnttWork s.work)
  | .pmul => s.moveTo .intt (pmulWork s.work)
  | .intt => s.moveTo .scale (inttWork s.work)
  | .scale => s.moveTo .dec (scaleWork s.work)
  | .dec => s.moveTo .fin (decWork s.work)
  | .fin => leaveFin s.work s
  | .idle => leaveSign (signWork s) s
  | .sign => leaveSign (signWork s) s
  | .sub => leaveSign (signWork s) s

/-- Moves until the command has ended; the fuel bounds them. -/
def mulFinish : Nat → State → State
  | 0, s => s
  | fuel + 1, s =>
    if (mulMove s).phase = .idle then mulMove s else mulFinish fuel (mulMove s)

/-- MUL (43_orchestrator.md R218): from the phase the command has reached to its end. The longest
path has eight moves (R211), so the end is always reached. -/
def execMul (s : State) : Host.Outcome State Fault Refusal := .next (mulFinish 8 s)

end Sys2Proof.Machine
end

