-- ==== Sys2Proof/Machine/Ring.lean ====
section
/-! DEFINITION. The ring commands: MADD, MSUB, MMUL, MINV on RX and RY, and PADD, PSUB, PMUL on
banks (40_ring_arithmetic.md R138 to R144). -/

namespace Sys2Proof.Machine

/-- A scalar command of two operands (40_ring_arithmetic.md §2). -/
def execScalar2 (op : Nat → Nat → Nat → Nat) (s : State) : Host.Outcome State Fault Refusal :=
  (prologueScalar2 s).finish s fun a => s.setRz (op (modulusOf a.1) a.2.1 a.2.2)

/-- MADD (40_ring_arithmetic.md R138). -/
def execMadd (s : State) : Host.Outcome State Fault Refusal := execScalar2 radd s

/-- MSUB (40_ring_arithmetic.md R139). -/
def execMsub (s : State) : Host.Outcome State Fault Refusal := execScalar2 rsub s

/-- MMUL (40_ring_arithmetic.md R140). -/
def execMmul (s : State) : Host.Outcome State Fault Refusal := execScalar2 rmul s

/-- The last check of MINV: gcd(RX, p) = 1, else E_NOINV (40_ring_arithmetic.md R141,
60_exceptions.md R256). -/
def checkInvertible (n x : Nat) : Check (Nat × Nat) :=
  if invertible (modulusOf n) x then .pass (n, x) else .raise .noinv

/-- MINV (40_ring_arithmetic.md R141). RY is not read. -/
def execMinv (s : State) : Host.Outcome State Fault Refusal :=
  ((prologueScalar1 s).bind fun a => checkInvertible a.1 a.2).finish s
    fun a => s.setRz (rinv (modulusOf a.1) a.2)

/-- A pointwise command (40_ring_arithmetic.md §3): every source is read and checked before the
destination is written (R145). -/
def execPointwise (op : Nat → Nat → Nat → Nat) (rd rs1 rs2 : Bank) (s : State) :
    Host.Outcome State Fault Refusal :=
  (prologueVec2 s [rd, rs1, rs2] rs1 rs2).finish s
    fun a => s.setBank rd (List.zipWith (op (modulusOf a.1)) a.2.1 a.2.2)

/-- PADD (40_ring_arithmetic.md R142). -/
def execPadd (rd rs1 rs2 : Bank) (s : State) : Host.Outcome State Fault Refusal :=
  execPointwise radd rd rs1 rs2 s

/-- PSUB (40_ring_arithmetic.md R143). -/
def execPsub (rd rs1 rs2 : Bank) (s : State) : Host.Outcome State Fault Refusal :=
  execPointwise rsub rd rs1 rs2 s

/-- PMUL (40_ring_arithmetic.md R144). -/
def execPmul (rd rs1 rs2 : Bank) (s : State) : Host.Outcome State Fault Refusal :=
  execPointwise rmul rd rs1 rs2 s

end Sys2Proof.Machine
end

