-- ==== Sys2Proof/Machine/Transform.lean ====
section
/-! DEFINITION. The transform commands NTTF, NTTI, NTTW and SCAL (42_ntt.md R191 to R194). The result
is computed from the source as read before any write (R196). -/

namespace Sys2Proof.Machine

/-- NTTF (42_ntt.md R191). -/
def execNttf (rd rs1 : Bank) (s : State) : Host.Outcome State Fault Refusal :=
  (prologueVec1 s [rd, rs1] rs1).finish s
    fun a => s.setBank rd (transform (modulusOf a.1) a.1 forwardRoot a.2)

/-- NTTI, unscaled (42_ntt.md R192). -/
def execNtti (rd rs1 : Bank) (s : State) : Host.Outcome State Fault Refusal :=
  (prologueVec1 s [rd, rs1] rs1).finish s
    fun a => s.setBank rd (transform (modulusOf a.1) a.1 (inverseRoot a.1) a.2)

/-- The checks of NTTW: the elements of RS1 first, then RX (42_ntt.md R193). -/
def prologueNttw (s : State) (rd rs1 : Bank) : Check (Nat × List Nat × Nat) :=
  (prologueVec1 s [rd, rs1] rs1).bind fun a =>
    (checkScalar s.rx .rx a.1).bind fun w => .pass (a.1, a.2, w)

/-- NTTW: any ring element in RX is the root (42_ntt.md R193). -/
def execNttw (rd rs1 : Bank) (s : State) : Host.Outcome State Fault Refusal :=
  (prologueNttw s rd rs1).finish s
    fun a => s.setBank rd (transform (modulusOf a.1) a.1 a.2.2 a.2.1)

/-- SCAL (42_ntt.md R194). The inverse of K always exists (60_exceptions.md R272). -/
def execScal (rd rs1 : Bank) (s : State) : Host.Outcome State Fault Refusal :=
  (prologueVec1 s [rd, rs1] rs1).finish s
    fun a => s.setBank rd (a.2.map fun v => rmul (modulusOf a.1) v (scaleFactor a.1))

end Sys2Proof.Machine
end

