-- ==== Sys2Proof/Machine/Dispatch.lean ====
section
/-! DEFINITION. One arm per command: what the sequencer does with an accepted command
(43_orchestrator.md R215, R218). -/

namespace Sys2Proof.Machine

def exec (i : Instr) (s : State) : Host.Outcome State Fault Refusal :=
  match i with
  | .nop => Sys2Proof.Machine.execNop s
  | .mul => Sys2Proof.Machine.execMul s
  | .enca rd => Sys2Proof.Machine.execEnca rd s
  | .encb rd => Sys2Proof.Machine.execEncb rd s
  | .dec rs1 => Sys2Proof.Machine.execDec rs1 s
  | .nttf rd rs1 => Sys2Proof.Machine.execNttf rd rs1 s
  | .ntti rd rs1 => Sys2Proof.Machine.execNtti rd rs1 s
  | .nttw rd rs1 => Sys2Proof.Machine.execNttw rd rs1 s
  | .scal rd rs1 => Sys2Proof.Machine.execScal rd rs1 s
  | .padd rd rs1 rs2 => Sys2Proof.Machine.execPadd rd rs1 rs2 s
  | .psub rd rs1 rs2 => Sys2Proof.Machine.execPsub rd rs1 rs2 s
  | .pmul rd rs1 rs2 => Sys2Proof.Machine.execPmul rd rs1 rs2 s
  | .madd => Sys2Proof.Machine.execMadd s
  | .msub => Sys2Proof.Machine.execMsub s
  | .mmul => Sys2Proof.Machine.execMmul s
  | .minv => Sys2Proof.Machine.execMinv s

end Sys2Proof.Machine
end

