-- ==== Sys2Proof/Machine/Sequencer.lean ====
section
/-! DEFINITION. The sequencer as an agent: the command word in flight is the CMD register
(10_state.md R54, 20_memory.md R87). -/

namespace Sys2Proof.Machine

/-- The command in flight to its end (43_orchestrator.md R215, R216, R218): no host access comes in
between, so no phase is seen. An illegal word raises E_ILLEGAL (60_exceptions.md R252). -/
def runCommand (s : State) : Host.Outcome State Fault Refusal :=
  match decode s.cmd with
  | some i => exec i s
  | none => .next (raiseErr .illegal s)

/-- One move of the sequencer (43_orchestrator.md R214): a move along MUL's path, or the one atomic
action of SUB (R215). -/
def moveCommand (s : State) : Host.Outcome State Fault Refusal :=
  if decode s.cmd = some .mul then .next (mulMove s) else runCommand s

/-- The sequencer acts only while a command is in flight (43_orchestrator.md R212) and reset is
released (70_reset_and_hazards.md R281). -/
def State.running (s : State) : Bool := s.rstN && s.busy

/-- The sequencer's turn with no input pending: it runs the command in flight to its end
(70_reset_and_hazards.md R297); idle, it changes nothing (43_orchestrator.md R212). -/
def seqFinish (s : State) : Host.Outcome State Fault Refusal :=
  if s.running then runCommand s else .next s

/-- The sequencer's turn as one item of the inputs: one move. -/
def seqMove (s : State) : Host.Outcome State Fault Refusal :=
  if s.running then moveCommand s else .next s

end Sys2Proof.Machine
end

