-- ==== Sys2Proof/Machine/Step.lean ====
section
/-! DEFINITION. One step of the machine: the next item of the inputs, or, with none pending, the
sequencer's run of the command in flight to its end (log entries 2 and 3). -/

namespace Sys2Proof.Machine

/-- One step: a host access (20_memory.md R83), a sequencer move (43_orchestrator.md R214) or a change
of the reset input (70_reset_and_hazards.md R281), in the order the inputs give; with no input, the
command in flight runs to its end (R297). -/
def step (s : State) : Host.Outcome State Fault Refusal :=
  match s.inputs with
  | [] => seqFinish s
  | .read w a :: rest => hostRead w a (s.withInputs rest)
  | .write w a v :: rest => hostWrite w a v (s.withInputs rest)
  | .seq :: rest => seqMove (s.withInputs rest)
  | .rstn level :: rest => .next (driveReset level (s.withInputs rest))

/-- The state in which the word is the command in flight, as its acceptance leaves it
(43_orchestrator.md R213), so that the next step runs it (log entry 4). -/
def State.withFetchWord (s : State) (nbits w : Nat) : State :=
  accept (BitVec.ofNat 32 (w % 2 ^ nbits)) { s with rstN := true, inputs := [] }

end Sys2Proof.Machine
end

