-- ==== Sys2Proof/Machine/HostProgram.lean ====
section
/-! DEFINITION. The host-side notation of 30_encoding.md R112 and the pseudo-commands of R113. None of
it is part of the engine (92_eei_decisions.md D41). -/

namespace Sys2Proof.Machine

/-- `go CMDTEXT` as a host access (30_encoding.md R112). -/
def goInput (i : Instr) : Input := .write .w32 0x014 (encode i)

/-- `go CMDTEXT` then `wait` (30_encoding.md R112): the step that takes the write of CMD, then a step
with no input pending, which runs the command in flight to its end (log entries 3 and 26). A write the
bus refuses, as while busy, starts nothing. -/
def goWait (i : Instr) (s : State) : Host.Outcome State Fault Refusal :=
  match step (s.withInputs [goInput i]) with
  | .next t => step t
  | .fault f => .fault f
  | .refused r => .refused r

/-- `go` and `wait` for each command; if one ends in an error the rest are not issued
(30_encoding.md R113). -/
def goAll : List Instr → State → Host.Outcome State Fault Refusal
  | [], s => .next s
  | i :: is, s =>
    match goWait i s with
    | .next t => if t.err then .next t else goAll is t
    | .fault f => .fault f
    | .refused r => .refused r

/-- The pseudo-commands that expand to commands (30_encoding.md R113). -/
inductive Pseudo where
  | intt (rd rs : Bank)
  | vsqr (rd rs : Bank)
  | vzero (rd rs : Bank)
  | cconv (rd rs1 rs2 : Bank)
deriving DecidableEq, Repr

/-- 30_encoding.md R113. -/
def Pseudo.expand : Pseudo → List Instr
  | .intt rd rs => [.ntti rd rs, .scal rd rd]
  | .vsqr rd rs => [.pmul rd rs rs]
  | .vzero rd rs => [.psub rd rs rs]
  | .cconv rd rs1 rs2 =>
    [.nttf rs1 rs1, .nttf rs2 rs2, .pmul rd rs1 rs2, .ntti rd rd, .scal rd rd]

/-- `SETK n` is the host write of KCFG (30_encoding.md R113). -/
def setK (n : Word) : Input := .write .w32 0x018 n

end Sys2Proof.Machine
end

