-- ==== Sys2Proof/Safety.lean ====
section
/-! DEFINITION. The terms claims use: what a bank holds, what a write leaves alone, the error entry as
a record, and the invariant of a run (`State.Inv`). -/

namespace Sys2Proof.Machine

/-! ### Banks -/

/-- Bank b of the state holds the vector xs in its elements 0 .. (length - 1), every word written
(10_state.md R48, R55). -/
def BankHolds (s : State) (b : Bank) (xs : List Nat) : Prop :=
  ∀ i v, xs[i]? = some v → readElem s.cfg s.mem b.toNat i = some v

/-- The address of some byte of elements 0 .. n-1 of bank b (20_memory.md R73). -/
def InBank (c : Config) (b : Bank) (n a : Nat) : Prop :=
  ∃ i j k, i < n ∧ j < ewwOf c ∧ k < 4 ∧ a = bankAddr c b.toNat i j + k

/-- Every byte of memory outside elements 0 .. n-1 of bank b reads in t as in s (10_state.md R49). -/
def KeepsOutside (s t : State) (b : Bank) (n : Nat) : Prop :=
  ∀ a, ¬ InBank s.cfg b n a → readByte t.mem a = readByte s.mem a

/-- A source of length 2^n: bank b holds xs, and every element is a ring element
(40_ring_arithmetic.md R136). -/
def RingSource (s : State) (b : Bank) (n : Nat) (xs : List Nat) : Prop :=
  xs.length = 2 ^ n ∧ BankHolds s b xs ∧ ∀ x ∈ xs, x < 2 ^ 2 ^ n + 1

/-- Element i of bank b is the first of the elements below n that is written and not below p, all
before it being written and below p (40_ring_arithmetic.md R136). -/
def FirstOutOfRange (s : State) (b : Bank) (n i : Nat) : Prop :=
  i < 2 ^ n ∧
  (∀ j < i, ∃ v, readElem s.cfg s.mem b.toNat j = some v ∧ v < 2 ^ 2 ^ n + 1) ∧
  ∃ v, readElem s.cfg s.mem b.toNat i = some v ∧ 2 ^ 2 ^ n + 1 ≤ v

/-- Element i of bank b has a word with WR = 0, and all elements before it are written and below p
(10_state.md R55). -/
def FirstUnwritten (s : State) (b : Bank) (n i : Nat) : Prop :=
  i < 2 ^ n ∧
  (∀ j < i, ∃ v, readElem s.cfg s.mem b.toNat j = some v ∧ v < 2 ^ 2 ^ n + 1) ∧
  readElem s.cfg s.mem b.toNat i = none

/-! ### The two ends of a command, as records -/

/-- The state after a completion that writes nothing else (43_orchestrator.md R216). -/
def Ended (s : State) : State := { s with done := true, phase := .idle, work := Work.empty }

/-- The state after an error other than E_RANGE (60_exceptions.md R258). -/
def Erred (s : State) (code : ECode) : State :=
  { s with ecode := code, err := true, phase := .idle, work := Work.empty }

/-- The state after E_RANGE with what ERRINFO records (60_exceptions.md R258, R259). -/
def ErredRange (s : State) (src : ErrSrc) (idx : Nat) : State :=
  { s with ecode := .range, errSrc := src, errIdx := BitVec.ofNat 16 idx, err := true,
           phase := .idle, work := Work.empty }

/-- t is s but for bank RD, where elements 0 .. (length - 1) hold ys, and but for the completion
(43_orchestrator.md R216, 10_state.md R49). -/
def BankResult (s t : State) (rd : Bank) (ys : List Nat) : Prop :=
  t = { Ended s with mem := t.mem } ∧ BankHolds t rd ys ∧ KeepsOutside s t rd ys.length

/-! ### Commands as words, operands as signed values, and the bus -/

/-- The command word of an OPC and bank numbers (30_encoding.md R111). -/
def commandWord (opc rd rs1 rs2 : Nat) : Word :=
  BitVec.ofNat 32 (opc + rd * 2 ^ 8 + rs1 * 2 ^ 12 + rs2 * 2 ^ 16)

/-- The sixteen OPC values of 30_encoding.md R107. -/
def opcodes : List Nat :=
  [0x00, 0x01, 0x10, 0x11, 0x12, 0x20, 0x21, 0x22, 0x23, 0x30, 0x31, 0x32, 0x40, 0x41, 0x42, 0x43]

/-- The OPC values whose class uses RD (30_encoding.md R105). -/
def rdOpcodes : List Nat := [0x10, 0x11, 0x20, 0x21, 0x22, 0x23, 0x30, 0x31, 0x32]

/-- The OPC values whose class uses RS1 (30_encoding.md R105). -/
def rs1Opcodes : List Nat := [0x12, 0x20, 0x21, 0x22, 0x23, 0x30, 0x31, 0x32]

/-- The OPC values whose class uses RS2 (30_encoding.md R105). -/
def rs2Opcodes : List Nat := [0x30, 0x31, 0x32]

/-- A bank field holds 0..5 where the command uses it and 0 where it does not (30_encoding.md R106). -/
def fieldLegal (used : Bool) (v : Nat) : Prop := if used then v ≤ 5 else v = 0

/-- The bank a command writes, if it writes one (30_encoding.md R105). -/
def destBank : Instr → Option Bank
  | .nop => none
  | .mul => none
  | .enca rd => some rd
  | .encb rd => some rd
  | .dec _ => none
  | .nttf rd _ => some rd
  | .ntti rd _ => some rd
  | .nttw rd _ => some rd
  | .scal rd _ => some rd
  | .padd rd _ _ => some rd
  | .psub rd _ _ => some rd
  | .pmul rd _ _ => some rd
  | .madd => none
  | .msub => none
  | .mmul => none
  | .minv => none

/-- The signed value of a sign bit and a magnitude (10_state.md R42, R44). -/
def signedValue (neg : Bool) (mag : Nat) : Int := if neg then -(mag : Int) else mag

/-- Decimal digit i of n (41_codec.md R161). -/
def digitAt (n i : Nat) : Nat := n / 10 ^ i % 10

/-- 2^n is the smallest power of two that is at least d (43_orchestrator.md R222). -/
def LeastLength (d n : Nat) : Prop := d ≤ 2 ^ n ∧ ∀ e, d ≤ 2 ^ e → n ≤ e

/-- With the input at the head of the pending ones, the next step takes it and leaves t, whatever is
pending behind it (20_memory.md R83). -/
def Answers (s : State) (inp : Input) (t : State) : Prop :=
  ∀ rest, step (s.withInputs (inp :: rest)) = .next (t.withInputs rest)

/-! ### The invariant of a run -/

/-- The address is a byte of some word of the bank window (20_memory.md R73). -/
def MappedByte (c : Config) (a : Nat) : Prop :=
  ∃ b i j k, b ≤ 5 ∧ i < c.kmax ∧ j < ewwOf c ∧ k < 4 ∧ a = bankAddr c b i j + k

/-- The bank memory: canonical, only mapped bytes, only whole words (10_state.md R55), reserved bits
of the top word 0 (10_state.md R47). -/
structure MemInv (c : Config) (m : Memory) : Prop where
  sorted : Memory.wf m = true
  mapped : ∀ x ∈ m, MappedByte c x.1
  whole : ∀ x ∈ m, (readWord m (x.1 - x.1 % 4)).isSome
  reserved : ∀ b i j w, b ≤ 5 → i < c.kmax → j < ewwOf c →
    readWord m (bankAddr c b i j) = some w → elemWord c j w = w

/-- Every multi-word register fits its width (10_state.md R41, R43, R45, R46). -/
structure RegInv (s : State) : Prop where
  opa : s.opa < 2 ^ magwOf s.cfg
  opb : s.opb < 2 ^ magwOf s.cfg
  res : s.res < 2 ^ magwOf s.cfg
  rx : s.rx < 2 ^ ewOf s.cfg
  ry : s.ry < 2 ^ ewOf s.cfg
  rz : s.rz < 2 ^ ewOf s.cfg

/-- The status flags (10_state.md R27 to R31, R39): DONE and ERR never both; an error has a code and a
completion has none; ERRINFO is nonzero for E_RANGE only; acceptance has cleared all of it while a
command runs; a trivial-path result never has diagnostics beside it. -/
structure FlagInv (s : State) : Prop where
  notBoth : ¬ (s.done = true ∧ s.err = true)
  errCode : s.err = true → s.ecode ≠ .none
  doneCode : s.done = true → s.ecode = .none
  info : s.ecode ≠ .range → s.errSrc = .none ∧ s.errIdx = 0
  busyClear : s.phase ≠ .idle →
    s.done = false ∧ s.err = false ∧ s.ecode = .none ∧ s.triv = false
  trivNoDiag : ¬ (s.triv = true ∧ s.diagv = true)
  mulNoDiag : s.phase ≠ .idle → s.phase ≠ .sub → s.diagv = false

/-- The working values that the operands determine for a phase of MUL (43_orchestrator.md R218). -/
def expectedWork (s : State) : Phase → Work
  | .triv => signWork s
  | .enc => signWork s
  | .fntt => encWork (signWork s)
  | .pmul => fnttWork (encWork (signWork s))
  | .intt => pmulWork (fnttWork (encWork (signWork s)))
  | .scale => inttWork (pmulWork (fnttWork (encWork (signWork s))))
  | .dec => scaleWork (inttWork (pmulWork (fnttWork (encWork (signWork s)))))
  | .fin =>
    if (signWork s).trivial then trivWork (signWork s)
    else decWork (scaleWork (inttWork (pmulWork (fnttWork (encWork (signWork s))))))
  | .idle => Work.empty
  | .sign => Work.empty
  | .sub => Work.empty

/-- Whether MUL's path for these operands goes through a phase (43_orchestrator.md R211). -/
def onPath (s : State) : Phase → Prop
  | .triv => (signWork s).trivial = true
  | .fin => (signWork s).trivial = true ∨ (signWork s).klog ≤ s.cfg.lkmax
  | .enc => (signWork s).trivial = false ∧ (signWork s).klog ≤ s.cfg.lkmax
  | .fntt => (signWork s).trivial = false ∧ (signWork s).klog ≤ s.cfg.lkmax
  | .pmul => (signWork s).trivial = false ∧ (signWork s).klog ≤ s.cfg.lkmax
  | .intt => (signWork s).trivial = false ∧ (signWork s).klog ≤ s.cfg.lkmax
  | .scale => (signWork s).trivial = false ∧ (signWork s).klog ≤ s.cfg.lkmax
  | .dec => (signWork s).trivial = false ∧ (signWork s).klog ≤ s.cfg.lkmax
  | .idle => True
  | .sign => True
  | .sub => True

/-- The sequencer (43_orchestrator.md R211, R213): the command in flight and the phase belong
together, the phase is on its path, and the working values are those the operands give (the operands
are locked while busy, 20_memory.md R79). -/
structure SeqInv (s : State) : Prop where
  path : s.phase ≠ .idle → (s.phase = .sub ↔ decode s.cmd ≠ some .mul)
  onPath : onPath s s.phase
  work : s.work = expectedWork s s.phase
  inReset : s.rstN = false → resetEngine s = s

/-- The invariant every step keeps. -/
structure State.Inv (s : State) : Prop where
  mem : MemInv s.cfg s.mem
  regs : RegInv s
  flags : FlagInv s
  seq : SeqInv s

end Sys2Proof.Machine
end

