-- ==== Sys2Proof/Certificates/Slice0/Obligations.lean ====
section
/-! DEFINITION. The statements for the provers. Each docstring names the rules of spec/ it formalises;
a statement that rests on a choice of the model names the log entry. -/

section

open Sys2Proof Sys2Proof.Machine

/-! ### Command words -/

/-- Every legal command is read back from its word (30_encoding.md R107, R108, R111). -/
def Obligations.DecodeOfEncode : Prop :=
  ∀ i : Instr, i.wf = true → decode (encode i) = some i

/-- Each legal word has one reading: what the decoder reads is legal and its word is the word read
(30_encoding.md R106, R108). -/
def Obligations.DecodedWordIsTheEncoding : Prop :=
  ∀ (w : Word) (i : Instr), decode w = some i → i.wf = true ∧ encode i = w

/-- The sixteen rows: a word selects the row when (w AND mask) = match, with the bank numbers checked
on top (30_encoding.md R107). -/
def Obligations.OpcodeRowsSelectCommands : Prop :=
  ∀ (w : Word) (rd rs1 rs2 : Bank),
    (decode w = some .nop ↔ w &&& 0xFFFFFFFF = 0x00000000) ∧
    (decode w = some .mul ↔ w &&& 0xFFFFFFFF = 0x00000001) ∧
    (decode w = some (.enca rd) ↔
      w &&& 0xFFFFF8FF = 0x00000010 ∧ w.extractLsb' 8 3 = rd ∧ rd.toNat ≤ 5) ∧
    (decode w = some (.encb rd) ↔
      w &&& 0xFFFFF8FF = 0x00000011 ∧ w.extractLsb' 8 3 = rd ∧ rd.toNat ≤ 5) ∧
    (decode w = some (.dec rs1) ↔
      w &&& 0xFFFF8FFF = 0x00000012 ∧ w.extractLsb' 12 3 = rs1 ∧ rs1.toNat ≤ 5) ∧
    (decode w = some (.nttf rd rs1) ↔ w &&& 0xFFFF88FF = 0x00000020 ∧
      w.extractLsb' 8 3 = rd ∧ rd.toNat ≤ 5 ∧ w.extractLsb' 12 3 = rs1 ∧ rs1.toNat ≤ 5) ∧
    (decode w = some (.ntti rd rs1) ↔ w &&& 0xFFFF88FF = 0x00000021 ∧
      w.extractLsb' 8 3 = rd ∧ rd.toNat ≤ 5 ∧ w.extractLsb' 12 3 = rs1 ∧ rs1.toNat ≤ 5) ∧
    (decode w = some (.nttw rd rs1) ↔ w &&& 0xFFFF88FF = 0x00000022 ∧
      w.extractLsb' 8 3 = rd ∧ rd.toNat ≤ 5 ∧ w.extractLsb' 12 3 = rs1 ∧ rs1.toNat ≤ 5) ∧
    (decode w = some (.scal rd rs1) ↔ w &&& 0xFFFF88FF = 0x00000023 ∧
      w.extractLsb' 8 3 = rd ∧ rd.toNat ≤ 5 ∧ w.extractLsb' 12 3 = rs1 ∧ rs1.toNat ≤ 5) ∧
    (decode w = some (.padd rd rs1 rs2) ↔ w &&& 0xFFF888FF = 0x00000030 ∧
      w.extractLsb' 8 3 = rd ∧ rd.toNat ≤ 5 ∧ w.extractLsb' 12 3 = rs1 ∧ rs1.toNat ≤ 5 ∧
      w.extractLsb' 16 3 = rs2 ∧ rs2.toNat ≤ 5) ∧
    (decode w = some (.psub rd rs1 rs2) ↔ w &&& 0xFFF888FF = 0x00000031 ∧
      w.extractLsb' 8 3 = rd ∧ rd.toNat ≤ 5 ∧ w.extractLsb' 12 3 = rs1 ∧ rs1.toNat ≤ 5 ∧
      w.extractLsb' 16 3 = rs2 ∧ rs2.toNat ≤ 5) ∧
    (decode w = some (.pmul rd rs1 rs2) ↔ w &&& 0xFFF888FF = 0x00000032 ∧
      w.extractLsb' 8 3 = rd ∧ rd.toNat ≤ 5 ∧ w.extractLsb' 12 3 = rs1 ∧ rs1.toNat ≤ 5 ∧
      w.extractLsb' 16 3 = rs2 ∧ rs2.toNat ≤ 5) ∧
    (decode w = some .madd ↔ w &&& 0xFFFFFFFF = 0x00000040) ∧
    (decode w = some .msub ↔ w &&& 0xFFFFFFFF = 0x00000041) ∧
    (decode w = some .mmul ↔ w &&& 0xFFFFFFFF = 0x00000042) ∧
    (decode w = some .minv ↔ w &&& 0xFFFFFFFF = 0x00000043)

/-- Words the spec writes out, one or more per family, and two illegal ones (30_encoding.md R107, R111;
95_test_vectors.md §2 and P3). -/
def Obligations.SampleWords : Prop :=
  decode 0x00000000 = some .nop ∧
  decode 0x00000001 = some .mul ∧
  decode 0x00000220 = some (.nttf Bank.FA Bank.A) ∧
  decode 0x00032432 = some (.pmul Bank.FC Bank.FA Bank.FB) ∧
  decode 0x00001531 = some (.psub Bank.C Bank.B Bank.A) ∧
  decode 0x00000111 = some (.encb Bank.B) ∧
  decode 0x00005012 = some (.dec Bank.C) ∧
  decode 0x00005523 = some (.scal Bank.C Bank.C) ∧
  decode 0x00000043 = some .minv ∧
  decode 0x00000044 = none ∧
  decode 0x08000020 = none

/-- Which words are legal, and how an illegal one ends once it is the accepted command
(30_encoding.md R106). -/
def Obligations.LegalityOfCommandWords : Prop :=
  (∀ w : Word,
    (decode w).isSome = true ↔
      w.toNat % 256 ∈ opcodes ∧
      w.toNat / 2 ^ 19 = 0 ∧ w.toNat / 2 ^ 15 % 2 = 0 ∧ w.toNat / 2 ^ 11 % 2 = 0 ∧
      fieldLegal (rdOpcodes.contains (w.toNat % 256)) (w.toNat / 2 ^ 8 % 8) ∧
      fieldLegal (rs1Opcodes.contains (w.toNat % 256)) (w.toNat / 2 ^ 12 % 8) ∧
      fieldLegal (rs2Opcodes.contains (w.toNat % 256)) (w.toNat / 2 ^ 16 % 8)) ∧
  (∀ (s : State) (w : Word), s.rstN = true → s.phase = .idle → decode w = none →
    ∃ t, Answers s (.write .w32 0x014 w) t ∧ t.resp = .ok ∧ t.cmd = w ∧
      step (t.withInputs []) = .next (Erred (t.withInputs []) .illegal))

/-! ### The sequencer -/

/-- A step with a command in flight is exec of that command (43_orchestrator.md R214, R215). Three
clauses are the model's choice: that a step with no input pending runs the whole command and that a
`seq` item is one move (log entry 3), and that the word `withFetchWord` places is the word in flight
(log entry 4). -/
def Obligations.StepRunsDecodedCommand : Prop :=
  (∀ (s : State) (i : Instr), s.rstN = true → s.phase ≠ .idle → decode s.cmd = some i →
    (s.inputs = [] → step s = exec i s) ∧
    (∀ rest, s.inputs = .seq :: rest → i ≠ .mul → step s = exec i (s.withInputs rest)) ∧
    (∀ rest, s.inputs = .seq :: rest → i = .mul →
      step s = .next (mulMove (s.withInputs rest)))) ∧
  (∀ (s : State) (w : Nat) (i : Instr), decode (BitVec.ofNat 32 w) = some i → w < 2 ^ 32 →
    step (s.withFetchWord 32 w) = exec i (s.withFetchWord 32 w) ∧
    (s.withFetchWord 32 w).cmd = BitVec.ofNat 32 w)

/-- The accept step, whole (43_orchestrator.md R213). BUSY is 1 exactly when `phase` is not IDLE
(10_state.md R26). -/
def Obligations.CommandWriteIsAccepted : Prop :=
  ∀ (s : State) (c : Word), s.rstN = true → s.phase = .idle →
    Answers s (.write .w32 0x014 c)
      { s with
        resp := .ok, cmd := c, done := false, err := false, ecode := .none, triv := false
        errIdx := 0, errSrc := .none, diagReq := s.diagEn
        diagv := if decode c = some .nop then s.diagv else false
        phase := if decode c = some .mul then .sign else .sub
        work := Work.empty }

/-- The CMD register (10_state.md R34): a write while idle is accepted, a write while busy is a bus
error with no effect, a read gives the last accepted word, which no command changes. -/
def Obligations.CommandRegister : Prop :=
  (∀ (s : State) (c : Word), s.rstN = true → s.phase = .idle →
    ∃ t, Answers s (.write .w32 0x014 c) t ∧ t.cmd = c ∧ t.phase ≠ .idle) ∧
  (∀ (s : State) (c : Word), s.rstN = true → s.phase ≠ .idle →
    Answers s (.write .w32 0x014 c) { s with resp := .error }) ∧
  (∀ s : State, s.rstN = true → Answers s (.read .w32 0x014) { s with resp := .data s.cmd }) ∧
  (∀ s t : State, s.inputs = [] → step s = .next t → t.cmd = s.cmd) ∧
  (∀ c : Config, (State.resetOf c).cmd = 0)

/-- While idle the engine changes no state by itself (43_orchestrator.md R212). -/
def Obligations.IdleEngineKeepsState : Prop :=
  ∀ s : State, s.phase = .idle →
    s.busy = false ∧ (s.inputs = [] → step s = .next s) ∧ Answers s .seq s

/-- Each sequencer move takes MUL to the next phase of its path, and every other command to IDLE
(43_orchestrator.md R211, R214). A move that does not end the command changes nothing but the phase
and the hidden working values. -/
def Obligations.MulPhasePaths : Prop :=
  (∀ s : State, s.rstN = true → decode s.cmd = some .mul → s.phase ≠ .idle → s.phase ≠ .sub →
    ∃ t, Answers s .seq t ∧
      t.phase =
        (match s.phase with
        | .sign =>
          if digitCount s.opa ≤ 3 ∧ digitCount s.opb ≤ 3 then .triv
          else if digitCount s.opa + digitCount s.opb ≤ s.cfg.kmax then .enc else .idle
        | .triv => .fin
        | .enc => .fntt
        | .fntt => .pmul
        | .pmul => .intt
        | .intt => .scale
        | .scale => .dec
        | .dec => .fin
        | .fin => .idle
        | .idle => .idle
        | .sub => .idle) ∧
      (t.phase ≠ .idle → t = { s with phase := t.phase, work := t.work })) ∧
  (∀ (s t : State), s.rstN = true → s.phase ≠ .idle → decode s.cmd ≠ some .mul →
    Answers s .seq t → t.phase = .idle)

/-- The result of a command does not depend on how many sequencer moves the schedule gives it before
it is let run to its end (60_exceptions.md R262; 20_memory.md R90). That a step with no input pending
is the run to the end is the model's choice (log entry 3), and so is what a MUL in phase SUB, which no
run reaches, does (log entry 17). -/
def Obligations.ScheduleDoesNotChangeResults : Prop :=
  ∀ (s : State) (n : Nat), s.rstN = true → s.phase ≠ .idle →
    Host.Core.run Sys2Proof.core (n + 1) (s.withInputs (List.replicate n .seq)) =
      step (s.withInputs [])

/-- A MUL ends after finitely many sequencer moves, and a command let run to its end leaves the engine
idle (70_reset_and_hazards.md R297; 43_orchestrator.md R211). The bound of eight is the model's choice:
it counts the model's moves, one per phase of R211 (log entry 3), while the spec has no bound on the
number of steps (R297; log entry 18). That a MUL in phase SUB, which no run reaches, ends too is the
model's choice (log entry 17). -/
def Obligations.CommandsEndInFinitelyManyMoves : Prop :=
  (∀ (s : State) (rest : List Input), s.rstN = true → s.phase ≠ .idle → decode s.cmd = some .mul →
    ∃ t, Host.Core.run Sys2Proof.core 8 (s.withInputs (List.replicate 8 .seq ++ rest)) = .next t ∧
      t.phase = .idle ∧ t.inputs = rest) ∧
  (∀ s t : State, s.rstN = true → s.phase ≠ .idle → s.inputs = [] → step s = .next t →
    t.phase = .idle)

/-- NOP: accepted and run to its end it sets DONE, keeps DIAGV, clears the other event state and
writes nothing else (43_orchestrator.md R217). -/
def Obligations.NopRun : Prop :=
  (∀ w : Word, decode w = some .nop ↔ w = 0) ∧
  (∀ s : State, exec .nop s = .next (Ended s)) ∧
  (∀ s : State, s.rstN = true → s.phase = .idle →
    (∃ u, Answers s (.write .w32 0x014 0) u ∧ u.phase = .sub) ∧
    Host.Core.run Sys2Proof.core 2 (s.withInputs [.write .w32 0x014 0]) =
      .next { s with
        inputs := [], resp := .ok, cmd := 0, done := true, err := false, ecode := .none
        triv := false, errIdx := 0, errSrc := .none, diagReq := s.diagEn, work := Work.empty })

/-! ### MUL -/

/-- The trivial path: the signed product, TRIV and DIGITS, and nothing else (43_orchestrator.md R221). -/
def Obligations.MulTrivialPath : Prop :=
  ∀ s : State, s.phase = .sign → digitCount s.opa ≤ 3 → digitCount s.opb ≤ 3 →
    exec .mul s = .next { Ended s with
      res := (signedValue s.aneg s.opa * signedValue s.bneg s.opb).natAbs
      resNeg := decide (signedValue s.aneg s.opa * signedValue s.bneg s.opb < 0)
      da := BitVec.ofNat 16 (digitCount s.opa)
      db := BitVec.ofNat 16 (digitCount s.opb)
      triv := true }

/-- The non-trivial path: the least length, at least 4; within capacity the six banks, RES without
truncation, NEG, DIGITS, KCFG and DIAGV, and no other state; above it E_CAP with DIGITS
(43_orchestrator.md R222 to R228). -/
def Obligations.MulNttPath : Prop :=
  ∀ (s : State) (n : Nat), s.phase = .sign →
    ¬ (digitCount s.opa ≤ 3 ∧ digitCount s.opb ≤ 3) →
    LeastLength (digitCount s.opa + digitCount s.opb) n →
    4 ≤ 2 ^ n ∧
    (s.cfg.kmax < 2 ^ n → exec .mul s = .next { Erred s .cap with
      da := BitVec.ofNat 16 (digitCount s.opa)
      db := BitVec.ofNat 16 (digitCount s.opb) }) ∧
    (2 ^ n ≤ s.cfg.kmax →
      ∃ (t : State) (va vb fa fb fc raw vc : List Nat) (kinv : Nat),
        exec .mul s = .next t ∧
        va = (List.range (2 ^ n)).map (digitAt s.opa) ∧
        vb = (List.range (2 ^ n)).map (digitAt s.opb) ∧
        fa = transform (2 ^ 2 ^ n + 1) n 4 va ∧
        fb = transform (2 ^ 2 ^ n + 1) n 4 vb ∧
        fc = List.zipWith (fun a b => a * b % (2 ^ 2 ^ n + 1)) fa fb ∧
        raw = transform (2 ^ 2 ^ n + 1) n (2 ^ (2 * 2 ^ n - 2) % (2 ^ 2 ^ n + 1)) fc ∧
        kinv < 2 ^ 2 ^ n + 1 ∧ 2 ^ n * kinv % (2 ^ 2 ^ n + 1) = 1 ∧
        vc = raw.map (fun v => v * kinv % (2 ^ 2 ^ n + 1)) ∧
        t = { Ended s with
          mem := t.mem
          res := digitDecode vc
          resNeg := decide (signedValue s.aneg s.opa * signedValue s.bneg s.opb < 0)
          da := BitVec.ofNat 16 (digitCount s.opa)
          db := BitVec.ofNat 16 (digitCount s.opb)
          klog2 := BitVec.ofNat 5 n
          diagv := s.diagReq } ∧
        BankHolds t Bank.A va ∧ BankHolds t Bank.B vb ∧ BankHolds t Bank.FA fa ∧
        BankHolds t Bank.FB fb ∧ BankHolds t Bank.FC fc ∧ BankHolds t Bank.C vc ∧
        ∀ a, (∀ b : Bank, b.toNat ≤ 5 → ¬ InBank s.cfg b (2 ^ n) a) →
          readByte t.mem a = readByte s.mem a)

/-- E_CAP: the length needed is above KMAX; DIGITS and the error status are all that is written, and
the trivial path never ends so (60_exceptions.md R254). -/
def Obligations.MulCapacityError : Prop :=
  (∀ (s : State) (n : Nat), s.phase = .sign →
    ¬ (digitCount s.opa ≤ 3 ∧ digitCount s.opb ≤ 3) →
    LeastLength (digitCount s.opa + digitCount s.opb) n → s.cfg.kmax < 2 ^ n →
    exec .mul s = .next { Erred s .cap with
      da := BitVec.ofNat 16 (digitCount s.opa)
      db := BitVec.ofNat 16 (digitCount s.opb) }) ∧
  (∀ s t : State, s.phase = .sign → s.ecode = .none → digitCount s.opa ≤ 3 →
    digitCount s.opb ≤ 3 → exec .mul s = .next t → t.ecode = .none)

/-- The digit count is 0 for 0 and otherwise the one d of at least 1 with 10^(d-1) ≤ n < 10^d
(41_codec.md R160), and the counts of magnitudes that fit their registers fit the DIGITS fields
(10_state.md R38). -/
def Obligations.DigitCountsFitDigits : Prop :=
  digitCount 0 = 0 ∧
  (∀ n d : Nat, 0 < n → (digitCount n = d ↔ 1 ≤ d ∧ 10 ^ (d - 1) ≤ n ∧ n < 10 ^ d)) ∧
  (∀ s : State, RegInv s →
    digitCount s.opa ≤ 5337 ∧ digitCount s.opb ≤ 5337 ∧
    (BitVec.ofNat 16 (digitCount s.opa)).toNat = digitCount s.opa ∧
    (BitVec.ofNat 16 (digitCount s.opb)).toNat = digitCount s.opb)

/-- The non-trivial result is the sum of the product's digit coefficients, each reduced modulo p
(43_orchestrator.md R231). -/
def Obligations.MulResultIsReducedCoefficientSum : Prop :=
  ∀ (s : State) (n : Nat), s.phase = .sign →
    ¬ (digitCount s.opa ≤ 3 ∧ digitCount s.opb ≤ 3) →
    LeastLength (digitCount s.opa + digitCount s.opb) n → n ≤ s.cfg.lkmax →
    ∃ t, exec .mul s = .next t ∧
      t.res = ∑ k ∈ Finset.range (2 ^ n),
        (∑ i ∈ Finset.range (k + 1), digitAt s.opa i * digitAt s.opb (k - i)) %
          (2 ^ 2 ^ n + 1) * 10 ^ k

/-- Within capacity, and unless both operands have exactly four digits, MUL completes with the exact
signed product, on either path (43_orchestrator.md R221, R231, R234 (6)). -/
def Obligations.MulIsExactExceptFourByFourDigits : Prop :=
  ∀ s : State, s.phase = .sign →
    digitCount s.opa + digitCount s.opb ≤ s.cfg.kmax →
    ¬ (digitCount s.opa = 4 ∧ digitCount s.opb = 4) →
    ∃ t, exec .mul s = .next t ∧ t.done = true ∧ t.err = s.err ∧
      signedValue t.resNeg t.res = signedValue s.aneg s.opa * signedValue s.bneg s.opb

/-- MUL with A and B swapped ends in the same RES, NEG and status (43_orchestrator.md R234 (2)). -/
def Obligations.MulCommutes : Prop :=
  ∀ s : State, s.phase = .sign →
    ∃ t u, exec .mul s = .next t ∧
      exec .mul { s with opa := s.opb, opb := s.opa, aneg := s.bneg, bneg := s.aneg } = .next u ∧
      u.res = t.res ∧ u.resNeg = t.resNeg ∧ u.statusWord = t.statusWord ∧
      u.da = t.db ∧ u.db = t.da

/-- The engine never writes NEG = 1 with RES = 0 (10_state.md R44): no step of a machine that meets
the invariant makes a negative zero. -/
def Obligations.NoStepMakesNegativeZero : Prop :=
  ∀ s t : State, s.Inv → ¬ (s.resNeg = true ∧ s.res = 0) → step s = .next t →
    ¬ (t.resNeg = true ∧ t.res = 0)

/-- DIAGV and TRIV are set only by a MUL that completes, DIAGV only with the sampled request
(10_state.md R29, R30). In a state that meets the invariant, that MUL's operands put it on the
non-trivial path where DIAGV is set (R29) and on the trivial path, both digit counts at most 3, where
TRIV is set (R30; 43_orchestrator.md R221). -/
def Obligations.OnlyMulSetsDiagvAndTriv : Prop :=
  ∀ s t : State, step s = .next t →
    (s.diagv = false → t.diagv = true →
      decode s.cmd = some .mul ∧ s.rstN = true ∧ s.phase ≠ .idle ∧ s.diagReq = true ∧
        t.done = true ∧ t.phase = .idle ∧
        (s.Inv → ¬ (digitCount s.opa ≤ 3 ∧ digitCount s.opb ≤ 3))) ∧
    (s.triv = false → t.triv = true →
      decode s.cmd = some .mul ∧ s.rstN = true ∧ s.phase ≠ .idle ∧ t.done = true ∧
        t.phase = .idle ∧
        (s.Inv → digitCount s.opa ≤ 3 ∧ digitCount s.opb ≤ 3))

/-- A MUL issued straight after reset returns 0 on the trivial path, with DIGITS = 0
(70_reset_and_hazards.md R284), whatever KMAX is. -/
def Obligations.MulAfterReset : Prop :=
  ∀ c : Config,
    Host.Core.run Sys2Proof.core 2
        ((State.resetOf c).withInputs [.write .w32 0x014 0x00000001]) =
      .next { State.resetOf c with cmd := 0x00000001, done := true, triv := true, resp := .ok }

/-! ### Ring commands -/

/-- MADD, MSUB and MMUL: their words, their errors in order, and RZ with nothing else changed
(40_ring_arithmetic.md R138, R139, R140). -/
def Obligations.ScalarCommands : Prop :=
  (∀ w : Word, (decode w = some .madd ↔ w = 0x00000040) ∧
    (decode w = some .msub ↔ w = 0x00000041) ∧ (decode w = some .mmul ↔ w = 0x00000042)) ∧
  (∀ (s : State) (p : Nat), p = 2 ^ 2 ^ s.klog2.toNat + 1 →
    (s.cfg.lkmax < s.klog2.toNat →
      ∀ i ∈ [Instr.madd, .msub, .mmul], exec i s = .next (Erred s .arg)) ∧
    (s.klog2.toNat ≤ s.cfg.lkmax →
      (p ≤ s.rx →
        ∀ i ∈ [Instr.madd, .msub, .mmul], exec i s = .next (ErredRange s .rx 0)) ∧
      (s.rx < p → p ≤ s.ry →
        ∀ i ∈ [Instr.madd, .msub, .mmul], exec i s = .next (ErredRange s .ry 0)) ∧
      (s.rx < p → s.ry < p →
        exec .madd s = .next { Ended s with rz := (s.rx + s.ry) % p } ∧
        exec .msub s = .next { Ended s with rz := (((s.rx : Int) - s.ry) % p).toNat } ∧
        exec .mmul s = .next { Ended s with rz := s.rx * s.ry % p })))

/-- MINV: its word, its errors in order, and the inverse in RZ with nothing else changed; RY is not
read (40_ring_arithmetic.md R141). -/
def Obligations.InverseCommand : Prop :=
  (∀ w : Word, decode w = some .minv ↔ w = 0x00000043) ∧
  (∀ (s : State) (p : Nat), p = 2 ^ 2 ^ s.klog2.toNat + 1 →
    (s.cfg.lkmax < s.klog2.toNat → exec .minv s = .next (Erred s .arg)) ∧
    (s.klog2.toNat ≤ s.cfg.lkmax →
      (p ≤ s.rx → exec .minv s = .next (ErredRange s .rx 0)) ∧
      (s.rx < p → Nat.gcd s.rx p ≠ 1 → exec .minv s = .next (Erred s .noinv)) ∧
      (s.rx < p → Nat.gcd s.rx p = 1 →
        ∃ y, y < p ∧ s.rx * y % p = 1 ∧ (∀ z, z < p → s.rx * z % p = 1 → z = y) ∧
          exec .minv s = .next { Ended s with rz := y })))

/-- PADD, PSUB and PMUL: their words, their errors in order, and the elementwise result in RD, computed
from the sources as they were before, with nothing else changed (40_ring_arithmetic.md R142 to R145). -/
def Obligations.PointwiseCommands : Prop :=
  (∀ (w : Word) (rd rs1 rs2 : Bank),
    (decode w = some (.padd rd rs1 rs2) ↔ rd.toNat ≤ 5 ∧ rs1.toNat ≤ 5 ∧ rs2.toNat ≤ 5 ∧
      w = commandWord 0x30 rd.toNat rs1.toNat rs2.toNat) ∧
    (decode w = some (.psub rd rs1 rs2) ↔ rd.toNat ≤ 5 ∧ rs1.toNat ≤ 5 ∧ rs2.toNat ≤ 5 ∧
      w = commandWord 0x31 rd.toNat rs1.toNat rs2.toNat) ∧
    (decode w = some (.pmul rd rs1 rs2) ↔ rd.toNat ≤ 5 ∧ rs1.toNat ≤ 5 ∧ rs2.toNat ≤ 5 ∧
      w = commandWord 0x32 rd.toNat rs1.toNat rs2.toNat)) ∧
  (∀ (s : State) (rd rs1 rs2 : Bank) (n p : Nat), n = s.klog2.toNat → p = 2 ^ 2 ^ n + 1 →
    rd.toNat ≤ 5 → rs1.toNat ≤ 5 → rs2.toNat ≤ 5 →
    (s.cfg.lkmax < n →
      ∀ i ∈ [Instr.padd rd rs1 rs2, .psub rd rs1 rs2, .pmul rd rs1 rs2],
        exec i s = .next (Erred s .arg)) ∧
    (n ≤ s.cfg.lkmax →
      (∀ j, FirstOutOfRange s rs1 n j →
        ∀ i ∈ [Instr.padd rd rs1 rs2, .psub rd rs1 rs2, .pmul rd rs1 rs2],
          exec i s = .next (ErredRange s .rs1 j)) ∧
      (∀ xs, RingSource s rs1 n xs →
        (∀ j, FirstOutOfRange s rs2 n j →
          ∀ i ∈ [Instr.padd rd rs1 rs2, .psub rd rs1 rs2, .pmul rd rs1 rs2],
            exec i s = .next (ErredRange s .rs2 j)) ∧
        (∀ ys, RingSource s rs2 n ys →
          (∃ t, exec (.padd rd rs1 rs2) s = .next t ∧
            BankResult s t rd (List.zipWith (fun a b => (a + b) % p) xs ys)) ∧
          (∃ t, exec (.psub rd rs1 rs2) s = .next t ∧
            BankResult s t rd
              (List.zipWith (fun a b => (((a : Int) - (b : Int)) % (p : Int)).toNat) xs ys)) ∧
          (∃ t, exec (.pmul rd rs1 rs2) s = .next t ∧
            BankResult s t rd (List.zipWith (fun a b => a * b % p) xs ys))))))

/-! ### The transform -/

/-- NTTF, NTTI and SCAL: their words, their errors in order, and the result in RD, computed from the
source as it was before, with nothing else changed; NTTW in place (42_ntt.md R191, R192, R194, R196).
NTTW in general is `TransformWithRootCommand`. -/
def Obligations.TransformCommands : Prop :=
  (∀ (w : Word) (rd rs1 : Bank),
    (decode w = some (.nttf rd rs1) ↔ rd.toNat ≤ 5 ∧ rs1.toNat ≤ 5 ∧
      w = commandWord 0x20 rd.toNat rs1.toNat 0) ∧
    (decode w = some (.ntti rd rs1) ↔ rd.toNat ≤ 5 ∧ rs1.toNat ≤ 5 ∧
      w = commandWord 0x21 rd.toNat rs1.toNat 0) ∧
    (decode w = some (.scal rd rs1) ↔ rd.toNat ≤ 5 ∧ rs1.toNat ≤ 5 ∧
      w = commandWord 0x23 rd.toNat rs1.toNat 0)) ∧
  (∀ (s : State) (rd rs1 : Bank) (n p : Nat), n = s.klog2.toNat → p = 2 ^ 2 ^ n + 1 →
    rd.toNat ≤ 5 → rs1.toNat ≤ 5 →
    (s.cfg.lkmax < n →
      ∀ i ∈ [Instr.nttf rd rs1, .ntti rd rs1, .nttw rs1 rs1, .scal rd rs1],
        exec i s = .next (Erred s .arg)) ∧
    (n ≤ s.cfg.lkmax →
      (∀ j, FirstOutOfRange s rs1 n j →
        ∀ i ∈ [Instr.nttf rd rs1, .ntti rd rs1, .nttw rs1 rs1, .scal rd rs1],
          exec i s = .next (ErredRange s .rs1 j)) ∧
      (∀ xs, RingSource s rs1 n xs →
        (∃ t, exec (.nttf rd rs1) s = .next t ∧ BankResult s t rd (transform p n 4 xs)) ∧
        (∃ t, exec (.ntti rd rs1) s = .next t ∧
          BankResult s t rd (transform p n (2 ^ (2 * 2 ^ n - 2) % p) xs)) ∧
        (p ≤ s.rx → exec (.nttw rs1 rs1) s = .next (ErredRange s .rx 0)) ∧
        (s.rx < p → ∃ t, exec (.nttw rs1 rs1) s = .next t ∧
          BankResult s t rs1 (transform p n s.rx xs)) ∧
        (∃ t kinv, exec (.scal rd rs1) s = .next t ∧ kinv < p ∧ 2 ^ n * kinv % p = 1 ∧
          BankResult s t rd (xs.map fun v => v * kinv % p)))))

/-- NTTW: its word, its errors in order (the elements of RS1 before RX), and the transform with the
root in RX, which may be any ring element (42_ntt.md R193). -/
def Obligations.TransformWithRootCommand : Prop :=
  (∀ (w : Word) (rd rs1 : Bank),
    (decode w = some (.nttw rd rs1) ↔ rd.toNat ≤ 5 ∧ rs1.toNat ≤ 5 ∧
      w = commandWord 0x22 rd.toNat rs1.toNat 0)) ∧
  (∀ (s : State) (rd rs1 : Bank) (n p : Nat), n = s.klog2.toNat → p = 2 ^ 2 ^ n + 1 →
    rd.toNat ≤ 5 → rs1.toNat ≤ 5 →
    (s.cfg.lkmax < n → exec (.nttw rd rs1) s = .next (Erred s .arg)) ∧
    (n ≤ s.cfg.lkmax →
      (∀ j, FirstOutOfRange s rs1 n j →
        exec (.nttw rd rs1) s = .next (ErredRange s .rs1 j)) ∧
      (∀ xs, RingSource s rs1 n xs →
        (p ≤ s.rx → exec (.nttw rd rs1) s = .next (ErredRange s .rx 0)) ∧
        (s.rx < p →
          ∃ t, exec (.nttw rd rs1) s = .next t ∧ BankResult s t rd (transform p n s.rx xs)))))

/-- The transform, element by element: a vector of length 1 is its own transform; a longer one is
combined from the transforms of its even and odd halves with the root squared (42_ntt.md R180). -/
def Obligations.TransformRecursion : Prop :=
  ∀ (p w m : Nat) (v : List Nat),
    transform p 0 w v = v ∧
    (v.length = 2 ^ (m + 1) →
      ∃ es os : List Nat,
        es.length = 2 ^ m ∧ os.length = 2 ^ m ∧
        (∀ i < 2 ^ m, es[i]? = v[2 * i]? ∧ os[i]? = v[2 * i + 1]?) ∧
        ∀ i < 2 ^ m, ∃ e o,
          (transform p m (w * w % p) es)[i]? = some e ∧
          (transform p m (w * w % p) os)[i]? = some o ∧
          (transform p (m + 1) w v)[i]? = some ((e + w ^ i % p * o % p) % p) ∧
          (transform p (m + 1) w v)[i + 2 ^ m]? =
            some (((e : Int) - (w ^ i % p * o % p : Nat)) % (p : Int)).toNat)

/-- For a root whose K/2-th power is -1 the transform is the Fourier sum, and both roots of the engine
are such roots (42_ntt.md R188). -/
def Obligations.TransformClosedForm : Prop :=
  ∀ (n p : Nat), 1 ≤ n → p = 2 ^ 2 ^ n + 1 →
    4 ^ 2 ^ (n - 1) % p = p - 1 ∧
    (2 ^ (2 * 2 ^ n - 2) % p) ^ 2 ^ (n - 1) % p = p - 1 ∧
    ∀ (w : Nat) (v : List Nat), v.length = 2 ^ n → (∀ x ∈ v, x < p) →
      w ^ 2 ^ (n - 1) % p = p - 1 →
      ∀ j < 2 ^ n, (transform p n w v)[j]? =
        some ((∑ i ∈ Finset.range (2 ^ n), v.getD i 0 * w ^ (i * j)) % p)

/-- NTTF, NTTI and SCAL in a row, issued to an idle engine, give the vector back, at every length and
for every vector of ring elements (42_ntt.md R189; 30_encoding.md R113 INTT). -/
def Obligations.TransformRoundTrip : Prop :=
  ∀ (s : State) (rd rs : Bank) (xs : List Nat), s.rstN = true → s.phase = .idle →
    s.klog2.toNat ≤ s.cfg.lkmax → rd.toNat ≤ 5 → rs.toNat ≤ 5 → RingSource s rs s.klog2.toNat xs →
    ∃ t, goAll (.nttf rd rs :: (Pseudo.intt rd rd).expand) s = .next t ∧ t.err = false ∧
      t.done = true ∧ BankHolds t rd xs

/-- CCONV, issued to an idle engine, is the cyclic convolution modulo p (42_ntt.md R195;
30_encoding.md R113). -/
def Obligations.CyclicConvolution : Prop :=
  ∀ (s : State) (rd rs1 rs2 : Bank) (n p : Nat) (xs ys : List Nat),
    s.rstN = true → s.phase = .idle →
    n = s.klog2.toNat → p = 2 ^ 2 ^ n + 1 → n ≤ s.cfg.lkmax →
    rd.toNat ≤ 5 → rs1.toNat ≤ 5 → rs2.toNat ≤ 5 → rs1 ≠ rs2 →
    RingSource s rs1 n xs → RingSource s rs2 n ys →
    ∃ t, goAll (Pseudo.cconv rd rs1 rs2).expand s = .next t ∧ t.err = false ∧ t.done = true ∧
      ∀ k < 2 ^ n, readElem t.cfg t.mem rd.toNat k =
        some ((∑ i ∈ Finset.range (2 ^ n), xs.getD i 0 * ys.getD ((k + 2 ^ n - i) % 2 ^ n) 0) % p)

/-- VZERO, issued to an idle engine, clears the elements below K of its destination
(30_encoding.md R113). -/
def Obligations.VzeroPseudoCommand : Prop :=
  ∀ (s : State) (rd rs : Bank) (xs : List Nat), s.rstN = true → s.phase = .idle →
    s.klog2.toNat ≤ s.cfg.lkmax → rd.toNat ≤ 5 → rs.toNat ≤ 5 → RingSource s rs s.klog2.toNat xs →
    ∃ t, goAll (Pseudo.vzero rd rs).expand s = .next t ∧ t.err = false ∧ t.done = true ∧
      BankHolds t rd (List.replicate (2 ^ s.klog2.toNat) 0) ∧
      KeepsOutside s t rd (2 ^ s.klog2.toNat)

/-! ### The codec -/

/-- ENCA and ENCB: their words, E_ARG, and the K low decimal digits in RD with nothing else changed
(41_codec.md R163, R164). -/
def Obligations.EncodeCommands : Prop :=
  (∀ (w : Word) (rd : Bank),
    (decode w = some (.enca rd) ↔ rd.toNat ≤ 5 ∧ w = commandWord 0x10 rd.toNat 0 0) ∧
    (decode w = some (.encb rd) ↔ rd.toNat ≤ 5 ∧ w = commandWord 0x11 rd.toNat 0 0)) ∧
  (∀ (s : State) (rd : Bank) (n : Nat), n = s.klog2.toNat → rd.toNat ≤ 5 →
    (s.cfg.lkmax < n →
      exec (.enca rd) s = .next (Erred s .arg) ∧ exec (.encb rd) s = .next (Erred s .arg)) ∧
    (n ≤ s.cfg.lkmax →
      (∃ t, exec (.enca rd) s = .next t ∧
        BankResult s t rd ((List.range (2 ^ n)).map fun i => s.opa / 10 ^ i % 10)) ∧
      (∃ t, exec (.encb rd) s = .next t ∧
        BankResult s t rd ((List.range (2 ^ n)).map fun i => s.opb / 10 ^ i % 10))))

/-- DEC: its word, its errors in order, and the exact sum in RES with NEG = 0 and nothing else changed;
RES never overflows (41_codec.md R167, R162, R168). -/
def Obligations.DecodeCommand : Prop :=
  (∀ (w : Word) (rs1 : Bank),
    decode w = some (.dec rs1) ↔ rs1.toNat ≤ 5 ∧ w = commandWord 0x12 0 rs1.toNat 0) ∧
  (∀ (s : State) (rs1 : Bank) (n : Nat), n = s.klog2.toNat → rs1.toNat ≤ 5 →
    (s.cfg.lkmax < n → exec (.dec rs1) s = .next (Erred s .arg)) ∧
    (n ≤ s.cfg.lkmax →
      (∀ j, FirstOutOfRange s rs1 n j →
        exec (.dec rs1) s = .next (ErredRange s .rs1 j)) ∧
      (∀ xs, RingSource s rs1 n xs →
        exec (.dec rs1) s = .next { Ended s with
          res := ∑ i ∈ Finset.range (2 ^ n), xs.getD i 0 * 10 ^ i
          resNeg := false })))

/-- ENCA or ENCB, then DEC of the same bank, issued to an idle engine, gives the operand modulo 10^K,
for K of at least 4 (41_codec.md R165, R166). -/
def Obligations.EncodeThenDecode : Prop :=
  ∀ (s : State) (b : Bank), s.rstN = true → s.phase = .idle → b.toNat ≤ 5 → 2 ≤ s.klog2.toNat → s.klog2.toNat ≤ s.cfg.lkmax →
    (∃ t, goAll [.enca b, .dec b] s = .next t ∧ t.err = false ∧ t.resNeg = false ∧
      t.res = s.opa % 10 ^ 2 ^ s.klog2.toNat) ∧
    (∃ t, goAll [.encb b, .dec b] s = .next t ∧ t.err = false ∧ t.resNeg = false ∧
      t.res = s.opb % 10 ^ 2 ^ s.klog2.toNat)

/-! ### Errors and frames over all commands -/

/-- A command, or an illegal word, that ends in an error writes the error status and nothing else, but
for DIGITS by a MUL that ends in E_CAP (60_exceptions.md R258). -/
def Obligations.ErrorsWriteNothingElse : Prop :=
  ∀ s t : State, s.rstN = true → s.phase ≠ .idle → s.inputs = [] → s.err = false →
    step s = .next t → t.err = true →
    t = { s with
      ecode := t.ecode, errSrc := t.errSrc, errIdx := t.errIdx, da := t.da, db := t.db
      err := true, phase := .idle, work := Work.empty } ∧
    t.ecode ≠ .none ∧ t.irq = s.ie ∧
    (t.ecode ≠ .range → t.errSrc = s.errSrc ∧ t.errIdx = s.errIdx) ∧
    (t.ecode ≠ .cap → t.da = s.da ∧ t.db = s.db) ∧
    (t.ecode = .cap → decode s.cmd = some .mul) ∧
    (t.ecode = .illegal → decode s.cmd = none)

/-- A command in flight that goes on ends in exactly one of two ways, completion or an error, and
leaves the engine idle (60_exceptions.md R250). -/
def Obligations.CommandEndsInOneOfTwoWays : Prop :=
  ∀ s t : State, s.rstN = true → s.phase ≠ .idle → s.inputs = [] → s.done = false →
    s.err = false → step s = .next t → t.phase = .idle ∧ t.done = !t.err

/-- E_ARG: every command but NOP and MUL with KLOG2 above LKMAX, whatever else is wrong with its
operands (60_exceptions.md R253). -/
def Obligations.LengthErrorComesFirst : Prop :=
  ∀ (i : Instr) (s : State), i.wf = true → i ≠ .nop → i ≠ .mul →
    s.cfg.lkmax < s.klog2.toNat → exec i s = .next (Erred s .arg)

/-- A command that reads a bank element with an unwritten word stops the model: a fault, no value
(10_state.md R55, 70_reset_and_hazards.md R291). That an out-of-range element before it raises E_RANGE
first is the model's reading (log entry 8). -/
def Obligations.UnwrittenElementFaults : Prop :=
  ∀ (s : State) (rd rs1 rs2 : Bank) (n : Nat), n = s.klog2.toNat → n ≤ s.cfg.lkmax →
    rd.toNat ≤ 5 → rs1.toNat ≤ 5 → rs2.toNat ≤ 5 →
    (∀ j, FirstUnwritten s rs1 n j →
      ∀ i ∈ [Instr.dec rs1, .nttf rd rs1, .ntti rd rs1, .nttw rd rs1, .scal rd rs1,
          .padd rd rs1 rs2, .psub rd rs1 rs2, .pmul rd rs1 rs2],
        exec i s = .fault (.commandReadUnwritten rs1 j)) ∧
    (∀ xs j, RingSource s rs1 n xs → FirstUnwritten s rs2 n j →
      ∀ i ∈ [Instr.padd rd rs1 rs2, .psub rd rs1 rs2, .pmul rd rs1 rs2],
        exec i s = .fault (.commandReadUnwritten rs2 j))

/-- What no command writes, and which commands write RZ, RES, DIGITS, KCFG, DIAGV, TRIV and memory
(43_orchestrator.md R230; 10_state.md R41, R45, R46, R49). -/
def Obligations.OnlyTheseCommandsWrite : Prop :=
  ∀ (i : Instr) (s t : State), exec i s = .next t →
    (t.cfg = s.cfg ∧ t.ie = s.ie ∧ t.diagEn = s.diagEn ∧ t.cmd = s.cmd ∧ t.aneg = s.aneg ∧
      t.bneg = s.bneg ∧ t.opa = s.opa ∧ t.opb = s.opb ∧ t.rx = s.rx ∧ t.ry = s.ry ∧
      t.diagReq = s.diagReq ∧ t.rstN = s.rstN ∧ t.inputs = s.inputs ∧ t.resp = s.resp) ∧
    (i ∉ [Instr.madd, .msub, .mmul, .minv] → t.rz = s.rz) ∧
    (i ≠ .mul → (∀ b, i ≠ .dec b) → t.res = s.res ∧ t.resNeg = s.resNeg) ∧
    (i ≠ .mul → t.da = s.da ∧ t.db = s.db ∧ t.klog2 = s.klog2 ∧ t.diagv = s.diagv ∧
      t.triv = s.triv) ∧
    (i ≠ .mul → destBank i = none → t.mem = s.mem) ∧
    (∀ rd, destBank i = some rd → KeepsOutside s t rd (2 ^ s.klog2.toNat))

/-! ### The bus -/

/-- Accesses of another width, at an address that is no multiple of 4, or at a reserved address get a
bus error and have no effect, busy or not (20_memory.md R76, R77). -/
def Obligations.RefusedAccesses : Prop :=
  ∀ (s : State) (w : Width) (a v : Word), s.rstN = true →
    w ≠ .w32 ∨ a.toNat % 4 ≠ 0 ∨ target s.cfg a.toNat = .reserved →
    Answers s (.read w a) { s with resp := .error } ∧
    Answers s (.write w a v) { s with resp := .error }

/-- The address map: where each register word and bank word lies, and that every other aligned address
is reserved (20_memory.md R71, R72, R73). -/
def Obligations.AddressMap : Prop :=
  ∀ c : Config,
    (List.map (fun k => target c (4 * k)) (List.range 11) =
      [.id, .param0, .param1, .ctrl, .status, .cmd, .kcfg, .opsign, .resinfo, .digits, .errinfo]) ∧
    (∀ j < ewwOf c, target c (0x1000 + 4 * j) = .rx j ∧ target c (0x2000 + 4 * j) = .ry j ∧
      target c (0x3000 + 4 * j) = .rz j) ∧
    (∀ j < nwmOf c, target c (0x4000 + 4 * j) = .opa j ∧ target c (0x8000 + 4 * j) = .opb j ∧
      target c (0xC000 + 4 * j) = .res j) ∧
    (∀ b i j, b ≤ 5 → i < c.kmax → j < ewwOf c →
      target c (0x10000000 + b * 0x01000000 + i * (4 * estrOf c) + 4 * j) = .bank b i j) ∧
    (∀ a, a % 4 = 0 → target c a ≠ .reserved →
      a ≤ 0x28 ∨
      (∃ j < ewwOf c, a = 0x1000 + 4 * j ∨ a = 0x2000 + 4 * j ∨ a = 0x3000 + 4 * j) ∨
      (∃ j < nwmOf c, a = 0x4000 + 4 * j ∨ a = 0x8000 + 4 * j ∨ a = 0xC000 + 4 * j) ∨
      ∃ b i j, b ≤ 5 ∧ i < c.kmax ∧ j < ewwOf c ∧
        a = 0x10000000 + b * 0x01000000 + i * (4 * estrOf c) + 4 * j)

/-- The busy lock: what is refused while a command runs, what stays allowed, and that a running command
shows no register change before it ends (20_memory.md R79). -/
def Obligations.BusyLock : Prop :=
  (∀ (s : State) (a v : Word), s.rstN = true → s.phase ≠ .idle → a.toNat % 4 = 0 →
    ((target s.cfg a.toNat).isData = true →
      Answers s (.read .w32 a) { s with resp := .error } ∧
      Answers s (.write .w32 a v) { s with resp := .error }) ∧
    (target s.cfg a.toNat ∈ [Target.cmd, .kcfg, .opsign] →
      Answers s (.write .w32 a v) { s with resp := .error }) ∧
    (target s.cfg a.toNat ∈ [Target.id, .param0, .param1, .ctrl, .status, .cmd, .kcfg, .opsign,
        .resinfo, .digits, .errinfo] →
      ∃ w, targetWord s (target s.cfg a.toNat) = some w ∧
        Answers s (.read .w32 a) { s with resp := .data w }) ∧
    (target s.cfg a.toNat ∈ [Target.ctrl, .status] →
      ∃ t, Answers s (.write .w32 a v) t ∧ t.resp = .ok)) ∧
  (∀ s : State, (mulMove s).phase ≠ .idle →
    mulMove s = { s with phase := (mulMove s).phase, work := (mulMove s).work })

/-- Reads have no side effects: a read that answers changes nothing but the response
(20_memory.md R81). -/
def Obligations.ReadsHaveNoSideEffect : Prop :=
  ∀ (s t : State) (w : Width) (a : Word) (rest : List Input), s.inputs = .read w a :: rest →
    step s = .next t → t = { s with inputs := rest, resp := t.resp }

/-- What each control and status register reads as, idle or busy (10_state.md R22 to R40). -/
def Obligations.ControlRegisterReads : Prop :=
  ([Phase.idle, .sign, .triv, .enc, .fntt, .pmul, .intt, .scale, .dec, .fin, .sub].map Phase.code =
    List.range 11) ∧
  ([ECode.none, .illegal, .arg, .range, .noinv, .cap].map ECode.code = List.range 6) ∧
  ([ErrSrc.none, .rs1, .rs2, .rx, .ry].map ErrSrc.code = List.range 5) ∧
  (∀ s : State, s.rstN = true →
    Answers s (.read .w32 0x000) { s with resp := .data 0x4E545401 } ∧
    Answers s (.read .w32 0x004)
      { s with resp := .data (BitVec.ofNat 32 (s.cfg.lkmax + 0x04030600)) } ∧
    Answers s (.read .w32 0x008)
      { s with resp := .data (BitVec.ofNat 32 (ewwOf s.cfg + nwmOf s.cfg * 2 ^ 16)) } ∧
    Answers s (.read .w32 0x00C)
      { s with resp := .data (BitVec.ofNat 32 (s.ie.toNat + 2 * s.diagEn.toNat)) } ∧
    Answers s (.read .w32 0x010)
      { s with resp := .data (BitVec.ofNat 32
          ((if s.phase = .idle then 0 else 1) + 2 * s.done.toNat + 4 * s.err.toNat +
            8 * s.diagv.toNat + 16 * s.triv.toNat + 2 ^ 8 * s.ecode.code +
            2 ^ 12 * s.phase.code)) } ∧
    Answers s (.read .w32 0x014) { s with resp := .data s.cmd } ∧
    Answers s (.read .w32 0x018) { s with resp := .data (BitVec.ofNat 32 s.klog2.toNat) } ∧
    Answers s (.read .w32 0x01C)
      { s with resp := .data (BitVec.ofNat 32 (s.aneg.toNat + 2 * s.bneg.toNat)) } ∧
    Answers s (.read .w32 0x020) { s with resp := .data (BitVec.ofNat 32 s.resNeg.toNat) } ∧
    Answers s (.read .w32 0x024)
      { s with resp := .data (BitVec.ofNat 32 (s.da.toNat + 2 ^ 16 * s.db.toNat)) } ∧
    Answers s (.read .w32 0x028)
      { s with resp := .data (BitVec.ofNat 32 (s.errIdx.toNat + 2 ^ 16 * s.errSrc.code)) })

/-- A write of STATUS: bit 1 clears DONE, bit 2 clears ERR, and nothing else, idle or busy
(10_state.md R33). -/
def Obligations.StatusWriteClearsEvents : Prop :=
  ∀ (s : State) (v : Word), s.rstN = true →
    Answers s (.write .w32 0x010 v)
      { s with
        done := if v.getLsbD 1 = true then false else s.done
        err := if v.getLsbD 2 = true then false else s.err
        resp := .ok }

/-- A write of CTRL without SRST sets IE and DIAG_EN at once, idle or busy, and a command in flight
keeps the DIAG_EN it sampled (10_state.md R24; 70_reset_and_hazards.md R293). -/
def Obligations.ControlWrite : Prop :=
  ∀ (s : State) (v : Word), s.rstN = true → v.getLsbD 31 = false →
    Answers s (.write .w32 0x00C v)
      { s with ie := v.getLsbD 0, diagEn := v.getLsbD 1, resp := .ok }

/-- The reset values, and that the soft reset (at the write, idle or busy), the hardware reset and its
release all give them (10_state.md R56; 70_reset_and_hazards.md R282). -/
def Obligations.ResetValues : Prop :=
  (∀ c : Config, ∃ t : State, t = State.resetOf c ∧
    targetWord t .id = some 0x4E545401 ∧ targetWord t .param0 = some (param0Word c) ∧
    targetWord t .param1 = some (param1Word c) ∧
    t.ie = false ∧ t.diagEn = false ∧ t.busy = false ∧ t.done = false ∧ t.err = false ∧
    t.diagv = false ∧ t.triv = false ∧ t.ecode = .none ∧ t.phase = .idle ∧ t.cmd = 0 ∧
    t.klog2 = 0 ∧ t.aneg = false ∧ t.bneg = false ∧ t.resNeg = false ∧ t.da = 0 ∧ t.db = 0 ∧
    t.errIdx = 0 ∧ t.errSrc = .none ∧ t.opa = 0 ∧ t.opb = 0 ∧ t.res = 0 ∧ t.rx = 0 ∧ t.ry = 0 ∧
    t.rz = 0 ∧ (∀ a, readByte t.mem a = none) ∧ t.irq = false ∧ t.work = Work.empty) ∧
  (∀ (s : State) (v : Word), s.rstN = true → v.getLsbD 31 = true →
    Answers s (.write .w32 0x00C v) { State.resetOf s.cfg with resp := .ok }) ∧
  (∀ s : State,
    Answers s (.rstn false) { State.resetOf s.cfg with rstN := false, resp := s.resp } ∧
    (s.rstN = false → Answers s (.rstn true) { State.resetOf s.cfg with resp := s.resp }))

/-- The words of OPA, OPB, RX and RY while idle: a write replaces its word and no other, keeps only the
bits that exist, and every word of the six multi-word registers reads back
(10_state.md R41, R43, R45 to R47; 20_memory.md R72). -/
def Obligations.OperandRegisterWords : Prop :=
  ∀ (s : State) (v : Word) (j : Nat), s.rstN = true → s.phase = .idle → RegInv s →
    (j < nwmOf s.cfg →
      (∃ x, Answers s (.write .w32 (BitVec.ofNat 32 (0x4000 + 4 * j)) v)
          { s with opa := x, resp := .ok } ∧
        x < 2 ^ magwOf s.cfg ∧ wordOf x j = v ∧
        ∀ k < nwmOf s.cfg, k ≠ j → wordOf x k = wordOf s.opa k) ∧
      (∃ x, Answers s (.write .w32 (BitVec.ofNat 32 (0x8000 + 4 * j)) v)
          { s with opb := x, resp := .ok } ∧
        x < 2 ^ magwOf s.cfg ∧ wordOf x j = v ∧
        ∀ k < nwmOf s.cfg, k ≠ j → wordOf x k = wordOf s.opb k) ∧
      Answers s (.read .w32 (BitVec.ofNat 32 (0x4000 + 4 * j)))
        { s with resp := .data (wordOf s.opa j) } ∧
      Answers s (.read .w32 (BitVec.ofNat 32 (0x8000 + 4 * j)))
        { s with resp := .data (wordOf s.opb j) } ∧
      Answers s (.read .w32 (BitVec.ofNat 32 (0xC000 + 4 * j)))
        { s with resp := .data (wordOf s.res j) }) ∧
    (j < ewwOf s.cfg →
      (∃ x, Answers s (.write .w32 (BitVec.ofNat 32 (0x1000 + 4 * j)) v)
          { s with rx := x, resp := .ok } ∧
        x < 2 ^ ewOf s.cfg ∧
        wordOf x j = BitVec.ofNat 32 (v.toNat % 2 ^ (ewOf s.cfg - 32 * j)) ∧
        ∀ k < ewwOf s.cfg, k ≠ j → wordOf x k = wordOf s.rx k) ∧
      (∃ x, Answers s (.write .w32 (BitVec.ofNat 32 (0x2000 + 4 * j)) v)
          { s with ry := x, resp := .ok } ∧
        x < 2 ^ ewOf s.cfg ∧
        wordOf x j = BitVec.ofNat 32 (v.toNat % 2 ^ (ewOf s.cfg - 32 * j)) ∧
        ∀ k < ewwOf s.cfg, k ≠ j → wordOf x k = wordOf s.ry k) ∧
      Answers s (.read .w32 (BitVec.ofNat 32 (0x1000 + 4 * j)))
        { s with resp := .data (wordOf s.rx j) } ∧
      Answers s (.read .w32 (BitVec.ofNat 32 (0x2000 + 4 * j)))
        { s with resp := .data (wordOf s.ry j) } ∧
      Answers s (.read .w32 (BitVec.ofNat 32 (0x3000 + 4 * j)))
        { s with resp := .data (wordOf s.rz j) })

/-- A bank word while idle: a write stores the bits that exist, marks the word written, clears DIAGV
and leaves every other byte alone; a read gives the written word and changes nothing; a read of an
unwritten word stops the model (20_memory.md R80; 10_state.md R47, R55). -/
def Obligations.BankWordAccess : Prop :=
  ∀ (s : State) (v : Word) (b i j a : Nat), s.rstN = true → s.phase = .idle →
    b ≤ 5 → i < s.cfg.kmax → j < ewwOf s.cfg →
    a = 0x10000000 + b * 0x01000000 + i * (4 * estrOf s.cfg) + 4 * j →
    (∃ m, Answers s (.write .w32 (BitVec.ofNat 32 a) v)
        { s with mem := m, diagv := false, resp := .ok } ∧
      readWord m a = some (BitVec.ofNat 32 (v.toNat % 2 ^ (ewOf s.cfg - 32 * j))) ∧
      ∀ x, x < a ∨ a + 4 ≤ x → readByte m x = readByte s.mem x) ∧
    (∀ w, readWord s.mem a = some w →
      Answers s (.read .w32 (BitVec.ofNat 32 a)) { s with resp := .data w }) ∧
    (readWord s.mem a = none → ∀ rest,
      step (s.withInputs (.read .w32 (BitVec.ofNat 32 a) :: rest)) =
        .fault (.hostReadUnwritten (BitVec.ofNat 32 a)))

/-- A write to a read-only register is answered OK and changes nothing: ID, PARAM0, PARAM1, RESINFO,
DIGITS and ERRINFO at any time, RZ and RES while idle (20_memory.md R78; log entry 9 for the writes
while busy). -/
def Obligations.ReadOnlyWritesIgnored : Prop :=
  ∀ (s : State) (v : Word), s.rstN = true →
    (∀ a ∈ [(0x000 : Word), 0x004, 0x008, 0x020, 0x024, 0x028],
      Answers s (.write .w32 a v) { s with resp := .ok }) ∧
    (s.phase = .idle → ∀ j < ewwOf s.cfg,
      Answers s (.write .w32 (BitVec.ofNat 32 (0x3000 + 4 * j)) v) { s with resp := .ok }) ∧
    (s.phase = .idle → ∀ j < nwmOf s.cfg,
      Answers s (.write .w32 (BitVec.ofNat 32 (0xC000 + 4 * j)) v) { s with resp := .ok })

/-- Writes of KCFG and OPSIGN while idle store their fields, any 5-bit KLOG2, and ignore the reserved
bits (10_state.md R35, R36). -/
def Obligations.LengthAndSignWrites : Prop :=
  ∀ (s : State) (v : Word), s.rstN = true → s.phase = .idle →
    Answers s (.write .w32 0x018 v)
      { s with klog2 := BitVec.ofNat 5 (v.toNat % 32), resp := .ok } ∧
    Answers s (.write .w32 0x01C v)
      { s with aneg := v.getLsbD 0, bneg := v.getLsbD 1, resp := .ok }

/-- The interrupt line: it rises when a command ends with IE = 1 and when IE is set on a pending event;
it falls at acceptance, when the events are cleared, when IE is cleared, and at reset
(60_exceptions.md R261). -/
def Obligations.InterruptLine : Prop :=
  (∀ s : State, s.irq = (s.ie && (s.done || s.err))) ∧
  (∀ (i : Instr) (s t : State), s.done = false → s.err = false → exec i s = .next t →
    t.irq = s.ie) ∧
  (∀ (s t : State) (v : Word), s.rstN = true → v.getLsbD 31 = false →
    Answers s (.write .w32 0x00C v) t → t.irq = (v.getLsbD 0 && (s.done || s.err))) ∧
  (∀ (s t : State) (v : Word), s.rstN = true → v.getLsbD 1 = true → v.getLsbD 2 = true →
    Answers s (.write .w32 0x010 v) t → t.irq = false) ∧
  (∀ (s t : State) (c : Word), s.rstN = true → s.phase = .idle →
    Answers s (.write .w32 0x014 c) t → t.irq = false) ∧
  (∀ c : Config, (State.resetOf c).irq = false)

/-- While reset is asserted a host access stops the model, and the sequencer does nothing; the stop is
the model's form of the spec's undefined response (70_reset_and_hazards.md R281; log entry 12). -/
def Obligations.HostAccessDuringReset : Prop :=
  ∀ (s : State) (w : Width) (a v : Word) (rest : List Input), s.rstN = false →
    step (s.withInputs (.read w a :: rest)) = .fault .hostAccessDuringReset ∧
    step (s.withInputs (.write w a v :: rest)) = .fault .hostAccessDuringReset ∧
    Answers s .seq s

/-! ### The invariant -/

/-- The state after reset meets the invariant, whatever KMAX is. -/
def Obligations.ResetMeetsInvariant : Prop :=
  State.reset.Inv ∧ ∀ c : Config, (State.resetOf c).Inv

/-- Every step keeps the invariant: the bank memory stays canonical with whole mapped words and zero
reserved bits, the registers stay within their widths, DONE and ERR are never both 1, the error and
diagnostics fields stay consistent, and a running MUL holds the working values its operands give
(10_state.md R27 to R31, R39, R41 to R47, R55; 43_orchestrator.md R211, R213, R218). -/
def Obligations.StepKeepsInvariant : Prop :=
  ∀ s t : State, s.Inv → step s = .next t → t.Inv

/-! ### The host's notation -/

/-- `go` then `wait` is the host's write of CMD and then the run (30_encoding.md R112): on an idle
engine the command is accepted and run as exec says; on a busy one the write is refused
(10_state.md R34) and the command in flight ends; held in reset the model stops. Afterwards BUSY is 0.
That the run is one step with no input pending, in place of the repeated reads of STATUS, is the
model's choice (log entries 3 and 26). -/
def Obligations.GoWaitIsTheCommandWriteAndTheRun : Prop :=
  (∀ (s : State) (i : Instr), i.wf = true → s.rstN = true → s.phase = .idle →
    ∃ t, Answers s (goInput i) t ∧ t.resp = .ok ∧ t.cmd = encode i ∧ t.phase ≠ .idle ∧
      goWait i s = step (t.withInputs []) ∧ goWait i s = exec i (t.withInputs [])) ∧
  (∀ (s : State) (i : Instr), s.rstN = true → s.phase ≠ .idle →
    Answers s (goInput i) { s with resp := .error } ∧
    goWait i s = step { s with inputs := [], resp := .error }) ∧
  (∀ (s : State) (i : Instr), s.rstN = false → goWait i s = .fault .hostAccessDuringReset) ∧
  (∀ (s t : State) (i : Instr), goWait i s = .next t → t.busy = false)

end
end

