-- ==== Sys2Proof/Laws/Arith.lean ====
section
/-! SUPPORT. The laws of the integer primitives: ranges of the ring operations, the inverse, digit
counts and digit vectors, lengths and ranges of the transform. -/

namespace Sys2Proof.Machine

/-! ### The ring (40_ring_arithmetic.md R130 to R134) -/

theorem modulusOf_pos (n : Nat) : 0 < modulusOf n := Nat.succ_pos _

theorem two_lt_modulusOf (n : Nat) : 2 < modulusOf n := by
  have h1 : 0 < 2 ^ n := Nat.pow_pos (by decide)
  have h2 : 2 ^ 1 ≤ 2 ^ 2 ^ n := Nat.pow_le_pow_right (by decide) h1
  unfold modulusOf
  omega

theorem radd_lt {p : Nat} (hp : 0 < p) (a b : Nat) : radd p a b < p := Nat.mod_lt _ hp

theorem rmul_lt {p : Nat} (hp : 0 < p) (a b : Nat) : rmul p a b < p := Nat.mod_lt _ hp

theorem rsub_cast {p : Nat} (hp : 0 < p) (a b : Nat) :
    ((rsub p a b : Nat) : Int) = ((a : Int) - b) % p := by
  rw [rsub, Int.toNat_of_nonneg (Int.emod_nonneg _ (by omega))]

theorem rsub_lt {p : Nat} (hp : 0 < p) (a b : Nat) : rsub p a b < p := by
  have h := rsub_cast hp a b
  have := Int.emod_lt_of_pos ((a : Int) - b) (show (0 : Int) < p by omega)
  omega

/-- p is odd (40_ring_arithmetic.md R130). -/
theorem modulusOf_odd (n : Nat) : modulusOf n % 2 = 1 := by
  have h : 0 < 2 ^ n := Nat.pow_pos (by decide)
  obtain ⟨d, hd⟩ := Nat.exists_eq_add_of_lt h
  rw [modulusOf, hd, show 0 + d + 1 = d + 1 by omega, Nat.pow_succ]
  omega

/-- 60_exceptions.md R272: gcd(K, p) = 1, so SCAL and MUL never meet E_NOINV. -/
theorem length_invertible (n : Nat) : invertible (modulusOf n) (2 ^ n) = true := by
  have h : Nat.Coprime (2 ^ n) (modulusOf n) := by
    apply Nat.Coprime.pow_left
    rw [Nat.coprime_two_left]
    exact Nat.odd_iff.2 (modulusOf_odd n)
  simpa [invertible] using h

/-- Euclid's loop: its answer times x is the gcd of the two remainders, modulo p. -/
theorem inverseLoop_spec (p x : Int) : ∀ (fuel r0 r1 : Nat) (t0 t1 : Int), r1 < fuel →
    p ∣ t0 * x - r0 → p ∣ t1 * x - r1 →
    p ∣ inverseLoop fuel r0 r1 t0 t1 * x - Nat.gcd r0 r1 := by
  intro fuel
  induction fuel with
  | zero => intro r0 r1 t0 t1 h; omega
  | succ fuel ih =>
    intro r0 r1 t0 t1 h h0 h1
    simp only [inverseLoop]
    split
    · rename_i hr; subst hr; simpa using h0
    · rename_i hr
      have hlt : r0 % r1 < r1 := Nat.mod_lt _ (by omega)
      have hg : Nat.gcd r0 r1 = Nat.gcd r1 (r0 % r1) := by
        rw [Nat.gcd_comm r0 r1, Nat.gcd_rec r1 r0, Nat.gcd_comm]
      rw [hg]
      apply ih _ _ _ _ (by omega) h1
      have hdm : ((r0 % r1 : Nat) : Int) = r0 - (r0 / r1 : Nat) * r1 := by
        have := Nat.div_add_mod r0 r1
        push_cast
        have h2 : (r0 : Int) = r1 * (r0 / r1) + r0 % r1 := by exact_mod_cast this.symm
        linarith
      rw [hdm]
      have : (t0 - ((r0 / r1 : Nat) : Int) * t1) * x - (r0 - ((r0 / r1 : Nat) : Int) * r1)
          = (t0 * x - r0) - ((r0 / r1 : Nat) : Int) * (t1 * x - r1) := by ring
      rw [this]
      exact dvd_sub h0 (Dvd.dvd.mul_left h1 _)

/-- 40_ring_arithmetic.md R134: where gcd(x, p) = 1, rinv is a ring element with rmul(x, rinv) = 1. -/
theorem rinv_spec {p x : Nat} (hp : 1 < p) (h : invertible p x = true) :
    rinv p x < p ∧ x * rinv p x % p = 1 := by
  have hg : Nat.gcd x p = 1 := by simpa [invertible] using h
  have key := inverseLoop_spec p x (x + 1) p x 0 1 (by omega) (by simp) (by simp)
  rw [Nat.gcd_comm, hg] at key
  have hnn := Int.emod_nonneg (inverseLoop (x + 1) p x 0 1) (show (p : Int) ≠ 0 by omega)
  have hlt := Int.emod_lt_of_pos (inverseLoop (x + 1) p x 0 1) (show (0 : Int) < p by omega)
  have hc : ((rinv p x : Nat) : Int) = inverseLoop (x + 1) p x 0 1 % p := Int.toNat_of_nonneg hnn
  refine ⟨by omega, ?_⟩
  have h1 : (((x * rinv p x % p : Nat)) : Int) = 1 := by
    push_cast
    rw [hc]
    have hd : (p : Int) ∣ x * (inverseLoop (x + 1) p x 0 1 % p) - 1 := by
      have e : (x : Int) * (inverseLoop (x + 1) p x 0 1 % p) - 1
          = (inverseLoop (x + 1) p x 0 1 * x - (1 : Nat))
            - x * (inverseLoop (x + 1) p x 0 1 - inverseLoop (x + 1) p x 0 1 % p) := by
        push_cast; ring
      rw [e]
      refine dvd_sub key (Dvd.dvd.mul_left ?_ _)
      exact ⟨_, by have := Int.mul_ediv_add_emod (inverseLoop (x + 1) p x 0 1) p; linarith⟩
    have h3 : (x : Int) * (inverseLoop (x + 1) p x 0 1 % p) % p = 1 % p :=
      Int.emod_eq_emod_iff_emod_sub_eq_zero.2 (Int.emod_eq_zero_of_dvd hd)
    rw [h3, Int.emod_eq_of_lt (by decide) (by omega)]
  exact_mod_cast h1

/-- The inverse is unique among the ring elements (40_ring_arithmetic.md R134). -/
theorem rinv_unique {p x y : Nat} (hp : 1 < p) (h : invertible p x = true) (hy : y < p)
    (hxy : x * y % p = 1) : rinv p x = y := by
  obtain ⟨h1, h2⟩ := rinv_spec hp h
  have hg : Nat.gcd p x = 1 := by rw [Nat.gcd_comm]; simpa [invertible] using h
  have hm : x * rinv p x ≡ x * y [MOD p] := by rw [Nat.ModEq, h2, hxy]
  have := Nat.ModEq.cancel_left_of_coprime hg hm
  rwa [Nat.ModEq, Nat.mod_eq_of_lt h1, Nat.mod_eq_of_lt hy] at this

/-- 42_ntt.md R187: the scale factor is the inverse of K. -/
theorem scaleFactor_spec (n : Nat) :
    scaleFactor n < modulusOf n ∧ 2 ^ n * scaleFactor n % modulusOf n = 1 :=
  rinv_spec (by have := two_lt_modulusOf n; omega) (length_invertible n)

theorem inverseRoot_lt (n : Nat) : inverseRoot n < modulusOf n := Nat.mod_lt _ (modulusOf_pos n)

/-! ### Digits (41_codec.md R160 to R162) -/

theorem digitCountLoop_spec : ∀ (fuel n : Nat), n ≤ fuel → 0 < n →
    0 < digitCountLoop fuel n ∧ 10 ^ (digitCountLoop fuel n - 1) ≤ n ∧
      n < 10 ^ digitCountLoop fuel n := by
  intro fuel
  induction fuel with
  | zero => intro n h1 h2; omega
  | succ fuel ih =>
    intro n h1 h2
    simp only [digitCountLoop, if_neg (show ¬ n = 0 by omega), Nat.add_sub_cancel]
    rcases Nat.eq_zero_or_pos (n / 10) with h | h
    · rw [h]
      have h0 : digitCountLoop fuel 0 = 0 := by cases fuel <;> simp [digitCountLoop]
      rw [h0]
      omega
    · obtain ⟨a, b, c⟩ := ih (n / 10) (by omega) h
      obtain ⟨d, hd⟩ := Nat.exists_eq_succ_of_ne_zero (show digitCountLoop fuel (n / 10) ≠ 0 by omega)
      rw [hd] at b c ⊢
      simp only [Nat.succ_eq_add_one, Nat.add_sub_cancel] at b c
      simp only [Nat.succ_eq_add_one, Nat.pow_succ] at *
      omega

/-- 41_codec.md R160. -/
theorem digitCount_zero : digitCount 0 = 0 := rfl

/-- 41_codec.md R160: the unique d ≥ 1 with 10^(d-1) ≤ n < 10^d. -/
theorem digitCount_spec {n : Nat} (h : 0 < n) :
    0 < digitCount n ∧ 10 ^ (digitCount n - 1) ≤ n ∧ n < 10 ^ digitCount n :=
  digitCountLoop_spec n n (le_refl n) h

theorem digitCount_le_iff (n d : Nat) : digitCount n ≤ d ↔ n < 10 ^ d := by
  rcases Nat.eq_zero_or_pos n with rfl | h
  · simp [digitCount_zero]
  · obtain ⟨h1, h2, h3⟩ := digitCount_spec h
    constructor
    · intro hd; exact lt_of_lt_of_le h3 (Nat.pow_le_pow_right (by decide) hd)
    · intro hd
      by_contra hc
      have : 10 ^ d ≤ 10 ^ (digitCount n - 1) := Nat.pow_le_pow_right (by decide) (by omega)
      omega

theorem digitEncode_length (n k : Nat) : (digitEncode n k).length = k := by
  induction k generalizing n with
  | zero => rfl
  | succ k ih => simp [digitEncode, ih]

/-- 41_codec.md R161: v[i] = (n div 10^i) mod 10. -/
theorem digitEncode_getElem? (n k i : Nat) :
    (digitEncode n k)[i]? = if i < k then some (n / 10 ^ i % 10) else none := by
  induction k generalizing n i with
  | zero => simp [digitEncode]
  | succ k ih =>
    cases i with
    | zero => simp [digitEncode]
    | succ i =>
      simp only [digitEncode, List.getElem?_cons_succ, ih, Nat.add_lt_add_iff_right]
      rw [Nat.pow_succ, Nat.mul_comm (10 ^ i) 10, Nat.div_div_eq_div_mul]

theorem digitEncode_lt {n k v : Nat} (h : v ∈ digitEncode n k) : v < 10 := by
  induction k generalizing n with
  | zero => simp [digitEncode] at h
  | succ k ih =>
    rcases List.mem_cons.1 h with h | h
    · omega
    · exact ih h

/-! ### Lengths (43_orchestrator.md R222) -/

/-- The least e with n ≤ 2^e. -/
theorem le_two_pow_ceilLog2 (n : Nat) : n ≤ 2 ^ ceilLog2 n := by
  unfold ceilLog2
  split
  · simpa using ‹n ≤ 1›
  · have := Nat.lt_log2_self (n := n - 1)
    omega

theorem ceilLog2_least {n e : Nat} (h : n ≤ 2 ^ e) : ceilLog2 n ≤ e := by
  unfold ceilLog2
  split
  · omega
  · have h1 : n - 1 < 2 ^ e := by omega
    have := (Nat.log2_lt (by omega)).2 h1
    omega

theorem ceilLog2_le_iff (n e : Nat) : ceilLog2 n ≤ e ↔ n ≤ 2 ^ e :=
  ⟨fun h => le_trans (le_two_pow_ceilLog2 n) (Nat.pow_le_pow_right (by decide) h), ceilLog2_least⟩

/-! ### The transform (42_ntt.md R180 to R184) -/

theorem evens_odds_length (v : List Nat) :
    (evens v).length = (v.length + 1) / 2 ∧ (odds v).length = v.length / 2 := by
  induction v using evens.induct with
  | case1 => simp [evens, odds]
  | case2 => simp [evens, odds]
  | case3 x y xs ih => simp only [evens, odds, List.length_cons]; omega

theorem mem_evens_odds (v : List Nat) (x : Nat) :
    (x ∈ evens v → x ∈ v) ∧ (x ∈ odds v → x ∈ v) := by
  induction v using evens.induct with
  | case1 => simp [evens, odds]
  | case2 => simp [evens, odds]
  | case3 a b xs ih =>
    simp only [evens, odds, List.mem_cons]
    tauto

theorem twiddle_length (p w i : Nat) (os : List Nat) : (twiddle p w i os).length = os.length := by
  induction os generalizing i with
  | nil => rfl
  | cons o os ih => simp [twiddle, ih]

theorem twiddle_getElem? (p w i j : Nat) (os : List Nat) :
    (twiddle p w i os)[j]? = os[j]?.map fun o => rmul p (rpow p w (i + j)) o := by
  induction os generalizing i j with
  | nil => simp [twiddle]
  | cons o os ih =>
    cases j with
    | zero => simp [twiddle]
    | succ j => simp [twiddle, ih, Nat.add_assoc, Nat.add_comm 1 j]

theorem transform_length (p n w : Nat) (v : List Nat) (h : v.length = 2 ^ n) :
    (transform p n w v).length = 2 ^ n := by
  induction n generalizing w v with
  | zero => exact h
  | succ n ih =>
    obtain ⟨he, ho⟩ := evens_odds_length v
    rw [h, Nat.pow_succ] at he ho
    simp only [transform, butterfly, List.length_append, List.length_zipWith, twiddle_length]
    rw [ih _ _ (by omega), ih _ _ (by omega), Nat.pow_succ]
    omega

/-- Every element of a transform of ring elements is a ring element (42_ntt.md R182). -/
theorem transform_lt {p : Nat} (hp : 0 < p) (n w : Nat) (v : List Nat) (h : ∀ x ∈ v, x < p) :
    ∀ x ∈ transform p n w v, x < p := by
  cases n with
  | zero => exact h
  | succ n =>
    intro x hx
    rcases List.mem_append.1 hx with hx | hx <;> rw [List.mem_iff_getElem?] at hx <;>
      obtain ⟨i, hi⟩ := hx <;> rw [List.getElem?_zipWith_eq_some] at hi <;>
      obtain ⟨a, b, -, -, rfl⟩ := hi
    · exact radd_lt hp _ _
    · exact rsub_lt hp _ _

/-! ### The value of a digit vector (41_codec.md R162, R168) -/

theorem digitDecode_eq_sum (xs : List Nat) :
    digitDecode xs = ∑ i ∈ Finset.range xs.length, xs.getD i 0 * 10 ^ i := by
  induction xs with
  | nil => rfl
  | cons x xs ih =>
    rw [List.length_cons, Finset.sum_range_succ']
    simp only [digitDecode, ih, List.getD_cons_succ, Finset.mul_sum, List.getD_cons_zero]
    rw [Nat.add_comm, pow_zero, mul_one]
    congr 1
    exact Finset.sum_congr rfl fun i _ => by ring

/-- A vector whose elements are at most M decodes to at most M times 11...1. -/
theorem digitDecode_le {M : Nat} {xs : List Nat} (h : ∀ x ∈ xs, x ≤ M) :
    9 * digitDecode xs ≤ M * (10 ^ xs.length - 1) := by
  induction xs with
  | nil => simp [digitDecode]
  | cons x xs ih =>
    have h1 := ih fun y hy => h y (List.mem_cons_of_mem _ hy)
    have h2 := h x List.mem_cons_self
    have hp : 1 ≤ 10 ^ xs.length := Nat.one_le_pow _ _ (by decide)
    obtain ⟨q, hq⟩ := Nat.exists_eq_add_of_le hp
    rw [hq, Nat.add_sub_cancel_left] at h1
    have e : 10 ^ (x :: xs).length - 1 = 9 + 10 * q := by
      rw [List.length_cons, Nat.pow_succ, hq]; omega
    rw [e]
    have hd : M * (9 + 10 * q) = 9 * M + 10 * (M * q) := by ring
    rw [hd]
    simp only [digitDecode]
    omega

theorem digitEncode_eq_map (n k : Nat) :
    digitEncode n k = (List.range k).map fun i => n / 10 ^ i % 10 := by
  refine List.ext_getElem? fun i => ?_
  rw [digitEncode_getElem?]
  by_cases h : i < k <;> simp [h]

theorem lt_two_pow_bitLen (n : Nat) : n < 2 ^ bitLen n := by
  unfold bitLen
  split
  · subst_vars; simp
  · exact Nat.lt_log2_self

end Sys2Proof.Machine
end

