-- ==== Sys2Proof/Laws/Memory.lean ====
section
/-! SUPPORT. The laws of the bank memory: what a merge of cells reads as, that every write keeps the
canonical form, and what the addresses of bank words are. -/

namespace Sys2Proof.Machine

/-! ### The canonical form -/

/-- Addresses strictly rising, as a pairwise fact. -/
def Rising (m : Memory) : Prop := m.Pairwise fun x y => x.1 < y.1

theorem wf_iff_rising (m : Memory) : Memory.wf m = true ↔ Rising m := by
  induction m with
  | nil => simp [Memory.wf, Rising]
  | cons x m ih =>
    cases m with
    | nil => simp [Memory.wf, Rising]
    | cons y m =>
      simp only [Memory.wf, Bool.and_eq_true, decide_eq_true_eq, ih, Rising,
        List.pairwise_cons] at *
      constructor
      · rintro ⟨hxy, hy, hm⟩
        refine ⟨?_, hy, hm⟩
        intro z hz
        rcases List.mem_cons.1 hz with rfl | hz
        · exact hxy
        · exact lt_trans hxy (hy z hz)
      · rintro ⟨hx, hy, hm⟩
        exact ⟨hx y (by simp), hy, hm⟩

theorem reset_mem_wf (c : Config) : Memory.wf (State.resetOf c).mem = true := rfl

/-- The cells a merge holds come from one of its sides. -/
theorem mem_mergeCell {x : Host.Cell} {k : Memory → Memory} {xs : List Host.Cell}
    (hk : ∀ m z, z ∈ k m → z ∈ xs ∨ z ∈ m) (m : Memory) (z : Host.Cell) :
    z ∈ mergeCell x k m → z = x ∨ z ∈ xs ∨ z ∈ m := by
  induction m with
  | nil =>
    intro h
    rcases List.mem_cons.1 (by simpa only [mergeCell] using h) with h | h
    · exact .inl h
    · exact .inr (hk [] z h)
  | cons y m ih =>
    simp only [mergeCell]
    split
    · intro h
      rcases List.mem_cons.1 h with h | h
      · exact .inr (.inr (by simp [h]))
      · rcases ih h with h | h | h
        · exact .inl h
        · exact .inr (.inl h)
        · exact .inr (.inr (List.mem_cons_of_mem _ h))
    · split
      · intro h
        rcases List.mem_cons.1 h with h | h
        · exact .inl h
        · rcases hk m z h with h | h
          · exact .inr (.inl h)
          · exact .inr (.inr (List.mem_cons_of_mem _ h))
      · intro h
        rcases List.mem_cons.1 h with h | h
        · exact .inl h
        · exact .inr (hk (y :: m) z h)

theorem mem_mergeCells {xs : List Host.Cell} {m : Memory} {z : Host.Cell} :
    z ∈ mergeCells xs m → z ∈ xs ∨ z ∈ m := by
  induction xs generalizing m z with
  | nil => intro h; exact .inr h
  | cons x xs ih =>
    intro h
    rcases mem_mergeCell (fun m z => @ih m z) m z h with h | h | h
    · exact .inl (by simp [h])
    · exact .inl (List.mem_cons_of_mem _ h)
    · exact .inr h

/-- Every memory operation keeps the canonical form. -/
theorem rising_mergeCells {xs : List Host.Cell} {m : Memory} (hx : Rising xs) (hm : Rising m) :
    Rising (mergeCells xs m) := by
  induction xs generalizing m with
  | nil => exact hm
  | cons x xs ih =>
    obtain ⟨hx0, hxs⟩ := List.pairwise_cons.1 hx
    show Rising (mergeCell x (mergeCells xs) m)
    induction m with
    | nil =>
      refine List.pairwise_cons.2 ⟨?_, ih hxs List.Pairwise.nil⟩
      intro z hz
      rcases mem_mergeCells hz with h | h
      · exact hx0 z h
      · simp at h
    | cons y m ihm =>
      obtain ⟨hy0, hm'⟩ := List.pairwise_cons.1 hm
      simp only [mergeCell]
      split
      · rename_i hyx
        refine List.pairwise_cons.2 ⟨?_, ihm hm'⟩
        intro z hz
        rcases mem_mergeCell (fun m z => mem_mergeCells) m z hz with h | h | h
        · exact h ▸ hyx
        · exact lt_trans hyx (hx0 z h)
        · exact hy0 z h
      · split
        · rename_i hyx
          refine List.pairwise_cons.2 ⟨?_, ih hxs hm'⟩
          intro z hz
          rcases mem_mergeCells hz with h | h
          · exact hx0 z h
          · exact hyx ▸ hy0 z h
        · refine List.pairwise_cons.2 ⟨?_, ih hxs hm⟩
          intro z hz
          have hxy : x.1 < y.1 := by omega
          rcases mem_mergeCells hz with h | h
          · exact hx0 z h
          · rcases List.mem_cons.1 h with h | h
            · exact h ▸ hxy
            · exact lt_trans hxy (hy0 z h)

theorem wf_mergeCells {xs : List Host.Cell} {m : Memory} (hx : Memory.wf xs = true)
    (hm : Memory.wf m = true) : Memory.wf (mergeCells xs m) = true :=
  (wf_iff_rising _).2 (rising_mergeCells ((wf_iff_rising _).1 hx) ((wf_iff_rising _).1 hm))

/-! ### What a memory reads as -/

theorem readByte_nil (a : Nat) : readByte [] a = none := rfl

theorem readByte_cons (x : Host.Cell) (m : Memory) (a : Nat) :
    readByte (x :: m) a = if x.1 = a then some x.2 else readByte m a := rfl

theorem readByte_append (xs ys : Memory) (a : Nat) :
    readByte (xs ++ ys) a = (readByte xs a).or (readByte ys a) := by
  induction xs with
  | nil => rfl
  | cons x xs ih =>
    rw [List.cons_append, readByte_cons, readByte_cons, ih]
    split <;> rfl

/-- An address below (or not among) the listed ones reads as no value. -/
theorem readByte_eq_none_of_lt {m : Memory} {a : Nat} (h : ∀ z ∈ m, a < z.1) :
    readByte m a = none := by
  induction m with
  | nil => rfl
  | cons y m ih =>
    rw [readByte_cons, if_neg (by have := h y (by simp); omega),
      ih fun z hz => h z (List.mem_cons_of_mem _ hz)]

theorem readByte_isSome_iff {m : Memory} {a : Nat} :
    (readByte m a).isSome ↔ ∃ z ∈ m, z.1 = a := by
  induction m with
  | nil => simp [readByte_nil]
  | cons y m ih =>
    rw [readByte_cons]
    split
    · rename_i h; simp [h]
    · rename_i h; simp [ih, h]

theorem readByte_eq_none_iff {m : Memory} {a : Nat} :
    readByte m a = none ↔ ∀ z ∈ m, z.1 ≠ a := by
  rw [← Option.not_isSome_iff_eq_none, readByte_isSome_iff]
  push Not
  rfl

/-- Reading after a merge: a new cell if there is one at the address, else what was there before. -/
theorem readByte_mergeCells {xs : List Host.Cell} (hx : Rising xs) (m : Memory) (a : Nat) :
    readByte (mergeCells xs m) a = (readByte xs a).or (readByte m a) := by
  induction xs generalizing m with
  | nil => rfl
  | cons x xs ih =>
    obtain ⟨hx0, hxs⟩ := List.pairwise_cons.1 hx
    show readByte (mergeCell x (mergeCells xs) m) a = _
    induction m with
    | nil =>
      simp only [mergeCell, readByte_cons]
      split
      · rfl
      · rw [ih hxs]
    | cons y m ihm =>
      simp only [mergeCell]
      split
      · rename_i hyx
        rw [readByte_cons, ihm, readByte_cons y m]
        split
        · rename_i hya
          have : readByte (x :: xs) a = none := by
            apply readByte_eq_none_of_lt
            intro z hz
            rcases List.mem_cons.1 hz with h | h
            · subst h; omega
            · have := hx0 z h; omega
          rw [this]; rfl
        · rfl
      · split
        · rename_i hyx
          rw [readByte_cons, readByte_cons x xs, readByte_cons y m, ih hxs]
          split
          · rfl
          · rename_i hxa
            rw [if_neg (by omega)]
        · rw [readByte_cons, readByte_cons x xs, ih hxs]
          split <;> rfl

/-! ### Words -/

theorem rising_wordCells (a : Nat) (w : Word) : Rising (wordCells a w) := by
  simp [Rising, wordCells]

theorem readByte_wordCells (a : Nat) (w : Word) (k : Nat) (hk : k < 4) :
    readByte (wordCells a w) (a + k) = some (byteOf w k) := by
  interval_cases k <;> simp [wordCells, readByte]

theorem readByte_wordCells_none {a x : Nat} (w : Word) (h : ∀ k < 4, x ≠ a + k) :
    readByte (wordCells a w) x = none := by
  have h0 := h 0 (by decide); have h1 := h 1 (by decide)
  have h2 := h 2 (by decide); have h3 := h 3 (by decide)
  simp only [wordCells, readByte]
  rw [if_neg (by omega), if_neg (by omega), if_neg (by omega), if_neg (by omega)]

theorem wordOfBytes_byteOf (w : Word) :
    wordOfBytes (byteOf w 0) (byteOf w 1) (byteOf w 2) (byteOf w 3) = w := by
  apply BitVec.eq_of_getLsbD_eq
  intro i hi
  simp only [wordOfBytes, byteOf, BitVec.getLsbD_append, BitVec.getLsbD_extractLsb']
  rcases Nat.lt_or_ge i 8 with h | h
  · simp [h]
  · rcases Nat.lt_or_ge i 16 with h2 | h2
    · simp [show ¬ i < 8 by omega, show i - 8 < 8 by omega, show 8 + (i - 8) = i by omega]
    · rcases Nat.lt_or_ge i 24 with h3 | h3
      · simp [show ¬ i < 8 by omega, show ¬ i - 8 < 8 by omega, show i - 8 - 8 < 8 by omega,
          show 16 + (i - 8 - 8) = i by omega]
      · simp [show ¬ i < 8 by omega, show ¬ i - 8 < 8 by omega, show ¬ i - 8 - 8 < 8 by omega,
          show i - 8 - 8 - 8 < 8 by omega, show 24 + (i - 8 - 8 - 8) = i by omega]

/-- A word reads back from memory whose four bytes are its bytes. -/
theorem readWord_of_bytes {m : Memory} {a : Nat} {w : Word}
    (h : ∀ k < 4, readByte m (a + k) = some (byteOf w k)) : readWord m a = some w := by
  have h0 := h 0 (by decide); have h1 := h 1 (by decide)
  have h2 := h 2 (by decide); have h3 := h 3 (by decide)
  rw [Nat.add_zero] at h0
  simp only [readWord, h0, h1, h2, h3, wordOfBytes_byteOf]

theorem readWord_congr {m m' : Memory} {a : Nat}
    (h : ∀ k < 4, readByte m (a + k) = readByte m' (a + k)) : readWord m a = readWord m' a := by
  have h0 := h 0 (by decide); have h1 := h 1 (by decide)
  have h2 := h 2 (by decide); have h3 := h 3 (by decide)
  rw [Nat.add_zero] at h0
  simp only [readWord, h0, h1, h2, h3]

theorem readWord_isSome_iff {m : Memory} {a : Nat} :
    (readWord m a).isSome ↔ ∀ k < 4, (readByte m (a + k)).isSome := by
  constructor
  · intro h k hk
    unfold readWord at h
    split at h
    · rename_i h0 h1 h2 h3
      interval_cases k <;> simp_all
    · simp at h
  · intro h
    obtain ⟨b0, h0⟩ := Option.isSome_iff_exists.1 (h 0 (by decide))
    obtain ⟨b1, h1⟩ := Option.isSome_iff_exists.1 (h 1 (by decide))
    obtain ⟨b2, h2⟩ := Option.isSome_iff_exists.1 (h 2 (by decide))
    obtain ⟨b3, h3⟩ := Option.isSome_iff_exists.1 (h 3 (by decide))
    rw [Nat.add_zero] at h0
    simp [readWord, h0, h1, h2, h3]

theorem readWord_writeWord_same (m : Memory) (a : Nat) (w : Word) :
    readWord (writeWord m a w) a = some w := by
  apply readWord_of_bytes
  intro k hk
  rw [writeWord, readByte_mergeCells (rising_wordCells a w), readByte_wordCells a w k hk]
  rfl

theorem readByte_writeWord_other {m : Memory} {a x : Nat} (w : Word) (h : ∀ k < 4, x ≠ a + k) :
    readByte (writeWord m a w) x = readByte m x := by
  rw [writeWord, readByte_mergeCells (rising_wordCells a w), readByte_wordCells_none w h]
  rfl

theorem wf_writeWord {m : Memory} (a : Nat) (w : Word) (h : Memory.wf m = true) :
    Memory.wf (writeWord m a w) = true :=
  wf_mergeCells ((wf_iff_rising _).2 (rising_wordCells a w)) h

end Sys2Proof.Machine
end

