-- ==== Sys2Proof/Laws/Bank.lean ====
section
/-! SUPPORT. The laws of the vector banks: the widths of each configuration, where the words of an
element lie, and what a bank reads as after a bank write. -/

namespace Sys2Proof.Machine

/-! ### Widths -/

theorem config_cases (P : Config → Prop) (h : ∀ k : Fin 7, P { lkOff := k }) (c : Config) : P c :=
  h c.lkOff

theorem eww_le_estr (c : Config) : ewwOf c ≤ estrOf c :=
  config_cases (fun c => ewwOf c ≤ estrOf c) (by decide +kernel) c

theorem bank_fits (c : Config) : c.kmax * (4 * estrOf c) ≤ 0x01000000 :=
  config_cases (fun c => c.kmax * (4 * estrOf c) ≤ 0x01000000) (by decide +kernel) c

theorem ew_le_words (c : Config) : ewOf c ≤ 32 * ewwOf c := by unfold ewwOf; omega

theorem top_word_used (c : Config) : 32 * (ewwOf c - 1) < ewOf c := by
  unfold ewwOf ewOf; omega

theorem eww_pos (c : Config) : 0 < ewwOf c := by unfold ewwOf ewOf; omega

theorem lkmax_le (c : Config) : c.lkmax ≤ 12 := by unfold Config.lkmax; omega

theorem six_le_lkmax (c : Config) : 6 ≤ c.lkmax := by unfold Config.lkmax; omega

/-- A legal length is at most KMAX (40_ring_arithmetic.md R137). -/
theorem two_pow_le_kmax {c : Config} {n : Nat} (h : n ≤ c.lkmax) : 2 ^ n ≤ c.kmax := by
  rw [Config.kmax]; exact Nat.pow_le_pow_right (by decide) h

/-- A ring element of a legal length fits an element register (40_ring_arithmetic.md R130). -/
theorem ring_fits {c : Config} {n v : Nat} (hn : n ≤ c.lkmax) (hv : v < modulusOf n) :
    v < 2 ^ ewOf c := by
  have h1 : 2 ^ n ≤ c.kmax := by
    rw [Config.kmax]; exact Nat.pow_le_pow_right (by decide) hn
  have h2 : 2 ^ 2 ^ n ≤ 2 ^ c.kmax := Nat.pow_le_pow_right (by decide) h1
  have h3 : 0 < 2 ^ c.kmax := Nat.pow_pos (by decide)
  unfold modulusOf at hv
  rw [ewOf, Nat.pow_succ]
  omega

theorem fitElem_eq {c : Config} {n v : Nat} (hn : n ≤ c.lkmax) (hv : v < modulusOf n) :
    fitElem c v = v := by
  unfold fitElem; exact Nat.mod_eq_of_lt (ring_fits hn hv)

theorem fitElem_lt (c : Config) (v : Nat) : fitElem c v < 2 ^ ewOf c := by
  unfold fitElem; exact Nat.mod_lt _ (Nat.pow_pos (by decide))

theorem fitMag_lt (c : Config) (v : Nat) : fitMag c v < 2 ^ magwOf c := by
  unfold fitMag; exact Nat.mod_lt _ (Nat.pow_pos (by decide))

theorem fitMag_eq {c : Config} {v : Nat} (h : v < 2 ^ magwOf c) : fitMag c v = v := by
  unfold fitMag; exact Nat.mod_eq_of_lt h

/-- The decoded value of ring elements of a legal length fits a magnitude register
(00_scope.md R12, 41_codec.md R168). -/
theorem digitDecode_fits {c : Config} {n : Nat} {xs : List Nat} (hn : n ≤ c.lkmax)
    (hl : xs.length = 2 ^ n) (h : ∀ x ∈ xs, x < 2 ^ 2 ^ n + 1) :
    digitDecode xs < 2 ^ magwOf c := by
  have hk := two_pow_le_kmax hn
  have h1 : 9 * digitDecode xs ≤ 2 ^ c.kmax * (10 ^ xs.length - 1) :=
    digitDecode_le fun x hx =>
      (Nat.lt_succ_iff.1 (h x hx)).trans (Nat.pow_le_pow_right (by decide) hk)
  have h2 : 10 ^ xs.length - 1 ≤ 10 ^ c.kmax - 1 :=
    Nat.sub_le_sub_right (Nat.pow_le_pow_right (by decide) (hl ▸ hk)) 1
  have h3 : digitDecode xs ≤ maxDecode c := by
    unfold maxDecode
    rw [Nat.le_div_iff_mul_le (by decide), Nat.mul_comm]
    exact h1.trans (Nat.mul_le_mul_left _ h2)
  calc digitDecode xs ≤ maxDecode c := h3
    _ < 2 ^ bitLen (maxDecode c) := lt_two_pow_bitLen _
    _ ≤ 2 ^ magwOf c := Nat.pow_le_pow_right (by decide) (by unfold magwOf nwmOf; omega)

/-! ### Addresses -/

theorem bankAddr_succ_elem (c : Config) (b i j : Nat) :
    bankAddr c b (i + 1) j = bankAddr c b i j + 4 * estrOf c := by
  simp only [bankAddr, Nat.succ_mul]; omega

theorem bankAddr_succ_word (c : Config) (b i j : Nat) :
    bankAddr c b i (j + 1) = bankAddr c b i j + 4 := by
  simp only [bankAddr]; omega

theorem bankAddr_word (c : Config) (b i j : Nat) :
    bankAddr c b i j = bankAddr c b i 0 + 4 * j := by simp [bankAddr]

theorem bankAddr_add_elem (c : Config) (b i d j : Nat) :
    bankAddr c b (i + d) j = bankAddr c b i j + d * (4 * estrOf c) := by
  simp only [bankAddr, Nat.add_mul]; omega

theorem bankAddr_elem_le {c : Config} {b i i' : Nat} (h : i ≤ i') :
    bankAddr c b i 0 ≤ bankAddr c b i' 0 := by
  obtain ⟨d, rfl⟩ := Nat.exists_eq_add_of_le h
  rw [bankAddr_add_elem]; omega

theorem bankAddr_elem_lt {c : Config} {b i i' : Nat} (h : i < i') :
    bankAddr c b i 0 + 4 * estrOf c ≤ bankAddr c b i' 0 := by
  rw [← bankAddr_succ_elem]
  exact bankAddr_elem_le h

/-- Bytes of bank words at different (bank, element, word, byte) places have different addresses
(20_memory.md R73). -/
theorem bankAddr_inj {c : Config} {b i j k b' i' j' k' : Nat} (hi : i < c.kmax) (hi' : i' < c.kmax)
    (hj : j < ewwOf c) (hj' : j' < ewwOf c) (hk : k < 4) (hk' : k' < 4)
    (h : bankAddr c b i j + k = bankAddr c b' i' j' + k') :
    b = b' ∧ i = i' ∧ j = j' ∧ k = k' := by
  have he := eww_le_estr c
  have hf := bank_fits c
  have key : ∀ {x : Nat}, x < c.kmax → x * (4 * estrOf c) + 4 * estrOf c ≤ 0x01000000 := by
    intro x hx
    calc x * (4 * estrOf c) + 4 * estrOf c = (x + 1) * (4 * estrOf c) := (Nat.succ_mul _ _).symm
      _ ≤ c.kmax * (4 * estrOf c) := Nat.mul_le_mul_right _ hx
      _ ≤ _ := hf
  have h1 := key hi
  have h2 := key hi'
  simp only [bankAddr] at h
  have hb : b = b' := by omega
  subst hb
  have hii : i = i' := by
    rcases Nat.lt_trichotomy i i' with hlt | heq | hgt
    · have := bankAddr_elem_lt (c := c) (b := 0) hlt
      simp only [bankAddr] at this
      omega
    · exact heq
    · have := bankAddr_elem_lt (c := c) (b := 0) hgt
      simp only [bankAddr] at this
      omega
  subst hii
  refine ⟨rfl, rfl, ?_, ?_⟩ <;> omega

/-! ### The cells of an element and of a bank -/

theorem elemCellsFrom_range {c : Config} {b i v n j : Nat} {z : Host.Cell}
    (h : z ∈ elemCellsFrom c b i v n j) :
    bankAddr c b i j ≤ z.1 ∧ z.1 < bankAddr c b i j + 4 * n := by
  induction n generalizing j with
  | zero => simp [elemCellsFrom] at h
  | succ n ih =>
    rcases List.mem_append.1 h with h | h
    · simp only [wordCells, List.mem_cons, List.not_mem_nil, or_false] at h
      rcases h with h | h | h | h <;> subst h <;> simp only <;> omega
    · have := ih h
      rw [bankAddr_succ_word] at this
      omega

theorem rising_elemCellsFrom (c : Config) (b i v n j : Nat) :
    Rising (elemCellsFrom c b i v n j) := by
  induction n generalizing j with
  | zero => exact List.Pairwise.nil
  | succ n ih =>
    refine List.pairwise_append.2 ⟨rising_wordCells _ _, ih (j + 1), ?_⟩
    intro x hx y hy
    have := elemCellsFrom_range hy
    rw [bankAddr_succ_word] at this
    simp only [wordCells, List.mem_cons, List.not_mem_nil, or_false] at hx
    rcases hx with h | h | h | h <;> subst h <;> simp only <;> omega

theorem elemCells_range {c : Config} {b i v : Nat} {z : Host.Cell} (h : z ∈ elemCells c b i v) :
    bankAddr c b i 0 ≤ z.1 ∧ z.1 < bankAddr c b i 0 + 4 * ewwOf c := elemCellsFrom_range h

theorem bankCells_range {c : Config} {b i : Nat} {vs : List Nat} {z : Host.Cell}
    (h : z ∈ bankCells c b i vs) :
    bankAddr c b i 0 ≤ z.1 ∧ z.1 < bankAddr c b (i + vs.length) 0 := by
  induction vs generalizing i with
  | nil => simp [bankCells] at h
  | cons v vs ih =>
    have he := eww_le_estr c
    rcases List.mem_append.1 h with h | h
    · have h1 := elemCells_range h
      have h2 := bankAddr_elem_lt (c := c) (b := b) (i := i) (i' := i + (v :: vs).length)
        (by simp)
      omega
    · have h1 := ih h
      rw [bankAddr_succ_elem] at h1
      rw [List.length_cons, show i + (vs.length + 1) = i + 1 + vs.length by omega]
      omega

theorem rising_bankCells (c : Config) (b i : Nat) (vs : List Nat) :
    Rising (bankCells c b i vs) := by
  induction vs generalizing i with
  | nil => exact List.Pairwise.nil
  | cons v vs ih =>
    refine List.pairwise_append.2 ⟨rising_elemCellsFrom _ _ _ _ _ _, ih (i + 1), ?_⟩
    intro x hx y hy
    have h1 := elemCells_range (show x ∈ elemCells c b i v from hx)
    have h2 := (bankCells_range hy).1
    rw [bankAddr_succ_elem] at h2
    have he := eww_le_estr c
    omega

theorem wf_writeBank {c : Config} {m : Memory} (b : Nat) (vs : List Nat) (h : Memory.wf m = true) :
    Memory.wf (writeBank c b vs m) = true :=
  wf_mergeCells ((wf_iff_rising _).2 (rising_bankCells c b 0 vs)) h

/-- Where a cell of a bank write lies. -/
theorem bankCells_place {c : Config} {b i : Nat} {vs : List Nat} {z : Host.Cell}
    (h : z ∈ bankCells c b i vs) :
    ∃ i' j k, i ≤ i' ∧ i' < i + vs.length ∧ j < ewwOf c ∧ k < 4 ∧ z.1 = bankAddr c b i' j + k := by
  induction vs generalizing i with
  | nil => simp [bankCells] at h
  | cons v vs ih =>
    rcases List.mem_append.1 h with h | h
    · have h1 := elemCells_range h
      refine ⟨i, (z.1 - bankAddr c b i 0) / 4, (z.1 - bankAddr c b i 0) % 4, le_refl _, by simp,
        by omega, by omega, ?_⟩
      rw [bankAddr_word]
      omega
    · obtain ⟨i', j, k, h1, h2, h3⟩ := ih h
      exact ⟨i', j, k, by omega, by simp only [List.length_cons]; omega, h3⟩

theorem readByte_elemCellsFrom {c : Config} {b i v n j j' k : Nat} (hj : j ≤ j') (hj' : j' < j + n)
    (hk : k < 4) :
    readByte (elemCellsFrom c b i v n j) (bankAddr c b i j' + k) =
      some (byteOf (wordOf v j') k) := by
  induction n generalizing j with
  | zero => omega
  | succ n ih =>
    rw [elemCellsFrom, readByte_append]
    rcases Nat.eq_or_lt_of_le hj with h | h
    · subst h
      rw [readByte_wordCells _ _ _ hk]; rfl
    · have h1 := bankAddr_word c b i j
      have h2 := bankAddr_word c b i j'
      rw [readByte_wordCells_none, ih (by omega) (by omega)]
      · rfl
      · intro k' hk'; omega

theorem readByte_bankCells {c : Config} {b i i' j k v : Nat} {vs : List Nat}
    (hv : vs[i']? = some v) (hj : j < ewwOf c) (hk : k < 4) :
    readByte (bankCells c b i vs) (bankAddr c b (i + i') j + k) =
      some (byteOf (wordOf (v % 2 ^ ewOf c) j) k) := by
  induction vs generalizing i i' with
  | nil => simp at hv
  | cons x vs ih =>
    rw [bankCells, readByte_append]
    cases i' with
    | zero =>
      simp only [List.getElem?_cons_zero, Option.some.injEq] at hv
      subst hv
      rw [Nat.add_zero, elemCells, readByte_elemCellsFrom (Nat.zero_le _) (by omega) hk]
      rfl
    | succ i' =>
      have h1 := bankAddr_elem_lt (c := c) (b := b) (i := i) (i' := i + (i' + 1)) (by omega)
      have h2 := bankAddr_word c b (i + (i' + 1)) j
      have he := eww_le_estr c
      have hnone : readByte (elemCells c b i x) (bankAddr c b (i + (i' + 1)) j + k) = none := by
        rw [readByte_eq_none_iff]
        intro z hz
        have := elemCells_range hz
        omega
      rw [hnone, show i + (i' + 1) = i + 1 + i' by omega]
      exact ih (by simpa using hv)

/-- A byte of an element that a bank write covers. -/
theorem readByte_writeBank_same {c : Config} {b i j k v : Nat} {vs : List Nat} (m : Memory)
    (hv : vs[i]? = some v) (hj : j < ewwOf c) (hk : k < 4) :
    readByte (writeBank c b vs m) (bankAddr c b i j + k) =
      some (byteOf (wordOf (v % 2 ^ ewOf c) j) k) := by
  rw [writeBank, readByte_mergeCells (rising_bankCells c b 0 vs)]
  have := readByte_bankCells (c := c) (b := b) (i := 0) hv hj hk
  rw [Nat.zero_add] at this
  rw [this]; rfl

/-- An address outside the elements that a bank write covers. -/
theorem readByte_writeBank_other {c : Config} {b a : Nat} {vs : List Nat} (m : Memory)
    (h : ∀ i j k, i < vs.length → j < ewwOf c → k < 4 → a ≠ bankAddr c b i j + k) :
    readByte (writeBank c b vs m) a = readByte m a := by
  rw [writeBank, readByte_mergeCells (rising_bankCells c b 0 vs)]
  have : readByte (bankCells c b 0 vs) a = none := by
    rw [readByte_eq_none_iff]
    intro z hz
    obtain ⟨i, j, k, -, h2, h3, h4, h5⟩ := bankCells_place hz
    intro hza
    exact h i j k (by omega) h3 h4 (by omega)
  rw [this]; rfl

/-! ### Elements -/

theorem readWordsFrom_eq {c : Config} {m : Memory} {b i v n j : Nat}
    (h : ∀ j', j ≤ j' → j' < j + n → readWord m (bankAddr c b i j') = some (wordOf v j')) :
    readWordsFrom c m b i n j = some (v / 2 ^ (32 * j) % 2 ^ (32 * n)) := by
  induction n generalizing j with
  | zero => simp [readWordsFrom, Nat.mod_one]
  | succ n ih =>
    rw [readWordsFrom, h j (le_refl _) (by omega), ih fun j' h1 h2 => h j' (by omega) (by omega)]
    simp only [Option.some.injEq, wordOf, BitVec.toNat_ofNat]
    rw [show 32 * (j + 1) = 32 * j + 32 by ring, show 32 * (n + 1) = 32 + 32 * n by ring,
      Nat.pow_add 2 (32 * j), ← Nat.div_div_eq_div_mul, Nat.pow_add 2 32 (32 * n), Nat.mod_mul]

/-- An element all of whose words hold the words of v reads as v. -/
theorem readElem_of_words {c : Config} {m : Memory} {b i v : Nat} (hv : v < 2 ^ ewOf c)
    (h : ∀ j < ewwOf c, readWord m (bankAddr c b i j) = some (wordOf v j)) :
    readElem c m b i = some v := by
  rw [readElem, readWordsFrom_eq fun j' _ h2 => h j' (by omega)]
  rw [Nat.mul_zero, Nat.pow_zero, Nat.div_one, Nat.mod_eq_of_lt]
  exact lt_of_lt_of_le hv (Nat.pow_le_pow_right (by decide) (ew_le_words c))

theorem readWordsFrom_congr {c : Config} {m m' : Memory} {b i n j : Nat}
    (h : ∀ j', j ≤ j' → j' < j + n →
      readWord m (bankAddr c b i j') = readWord m' (bankAddr c b i j')) :
    readWordsFrom c m b i n j = readWordsFrom c m' b i n j := by
  induction n generalizing j with
  | zero => rfl
  | succ n ih =>
    rw [readWordsFrom, readWordsFrom, h j (le_refl _) (by omega),
      ih fun j' h1 h2 => h j' (by omega) (by omega)]

theorem readElem_congr {c : Config} {m m' : Memory} {b i : Nat}
    (h : ∀ j < ewwOf c, ∀ k < 4,
      readByte m (bankAddr c b i j + k) = readByte m' (bankAddr c b i j + k)) :
    readElem c m b i = readElem c m' b i :=
  readWordsFrom_congr fun j' _ h2 => readWord_congr fun k hk => h j' (by omega) k hk

/-- What an element reads as after a bank write that covers it. -/
theorem readElem_writeBank_same {c : Config} {b i v : Nat} {vs : List Nat} (m : Memory)
    (hv : vs[i]? = some v) : readElem c (writeBank c b vs m) b i = some (v % 2 ^ ewOf c) := by
  apply readElem_of_words (Nat.mod_lt _ (Nat.pow_pos (by decide)))
  intro j hj
  exact readWord_of_bytes fun k hk => readByte_writeBank_same m hv hj hk

/-- After a bank write the bank holds the vector, if every element fits (10_state.md R47). -/
theorem holds_writeBank {c : Config} {b : Nat} {vs : List Nat} (m : Memory)
    (hv : ∀ v ∈ vs, v < 2 ^ ewOf c) :
    ∀ i v, vs[i]? = some v → readElem c (writeBank c b vs m) b i = some v := by
  intro i v h
  rw [readElem_writeBank_same m h, Nat.mod_eq_of_lt (hv v (List.mem_of_getElem? h))]

end Sys2Proof.Machine
end

