-- ==== Sys2Proof/Laws/State.lean ====
section
/-! SUPPORT. What each named update does to each field: one lemma per field per update, by rfl. -/

namespace Sys2Proof.Machine

variable (s : State)

/-! ### setRz -/

@[simp] theorem setRz_cfg (v : Nat) : (s.setRz v).cfg = s.cfg := rfl
@[simp] theorem setRz_ie (v : Nat) : (s.setRz v).ie = s.ie := rfl
@[simp] theorem setRz_diagEn (v : Nat) : (s.setRz v).diagEn = s.diagEn := rfl
@[simp] theorem setRz_done (v : Nat) : (s.setRz v).done = s.done := rfl
@[simp] theorem setRz_err (v : Nat) : (s.setRz v).err = s.err := rfl
@[simp] theorem setRz_diagv (v : Nat) : (s.setRz v).diagv = s.diagv := rfl
@[simp] theorem setRz_triv (v : Nat) : (s.setRz v).triv = s.triv := rfl
@[simp] theorem setRz_ecode (v : Nat) : (s.setRz v).ecode = s.ecode := rfl
@[simp] theorem setRz_phase (v : Nat) : (s.setRz v).phase = s.phase := rfl
@[simp] theorem setRz_cmd (v : Nat) : (s.setRz v).cmd = s.cmd := rfl
@[simp] theorem setRz_klog2 (v : Nat) : (s.setRz v).klog2 = s.klog2 := rfl
@[simp] theorem setRz_aneg (v : Nat) : (s.setRz v).aneg = s.aneg := rfl
@[simp] theorem setRz_bneg (v : Nat) : (s.setRz v).bneg = s.bneg := rfl
@[simp] theorem setRz_resNeg (v : Nat) : (s.setRz v).resNeg = s.resNeg := rfl
@[simp] theorem setRz_da (v : Nat) : (s.setRz v).da = s.da := rfl
@[simp] theorem setRz_db (v : Nat) : (s.setRz v).db = s.db := rfl
@[simp] theorem setRz_errIdx (v : Nat) : (s.setRz v).errIdx = s.errIdx := rfl
@[simp] theorem setRz_errSrc (v : Nat) : (s.setRz v).errSrc = s.errSrc := rfl
@[simp] theorem setRz_opa (v : Nat) : (s.setRz v).opa = s.opa := rfl
@[simp] theorem setRz_opb (v : Nat) : (s.setRz v).opb = s.opb := rfl
@[simp] theorem setRz_res (v : Nat) : (s.setRz v).res = s.res := rfl
@[simp] theorem setRz_rx (v : Nat) : (s.setRz v).rx = s.rx := rfl
@[simp] theorem setRz_ry (v : Nat) : (s.setRz v).ry = s.ry := rfl
@[simp] theorem setRz_rz (v : Nat) : (s.setRz v).rz = fitElem s.cfg v := rfl
@[simp] theorem setRz_mem (v : Nat) : (s.setRz v).mem = s.mem := rfl
@[simp] theorem setRz_diagReq (v : Nat) : (s.setRz v).diagReq = s.diagReq := rfl
@[simp] theorem setRz_work (v : Nat) : (s.setRz v).work = s.work := rfl
@[simp] theorem setRz_rstN (v : Nat) : (s.setRz v).rstN = s.rstN := rfl
@[simp] theorem setRz_inputs (v : Nat) : (s.setRz v).inputs = s.inputs := rfl
@[simp] theorem setRz_resp (v : Nat) : (s.setRz v).resp = s.resp := rfl

/-! ### setRes -/

@[simp] theorem setRes_cfg (v : Nat) (neg : Bool) : (s.setRes v neg).cfg = s.cfg := rfl
@[simp] theorem setRes_ie (v : Nat) (neg : Bool) : (s.setRes v neg).ie = s.ie := rfl
@[simp] theorem setRes_diagEn (v : Nat) (neg : Bool) : (s.setRes v neg).diagEn = s.diagEn := rfl
@[simp] theorem setRes_done (v : Nat) (neg : Bool) : (s.setRes v neg).done = s.done := rfl
@[simp] theorem setRes_err (v : Nat) (neg : Bool) : (s.setRes v neg).err = s.err := rfl
@[simp] theorem setRes_diagv (v : Nat) (neg : Bool) : (s.setRes v neg).diagv = s.diagv := rfl
@[simp] theorem setRes_triv (v : Nat) (neg : Bool) : (s.setRes v neg).triv = s.triv := rfl
@[simp] theorem setRes_ecode (v : Nat) (neg : Bool) : (s.setRes v neg).ecode = s.ecode := rfl
@[simp] theorem setRes_phase (v : Nat) (neg : Bool) : (s.setRes v neg).phase = s.phase := rfl
@[simp] theorem setRes_cmd (v : Nat) (neg : Bool) : (s.setRes v neg).cmd = s.cmd := rfl
@[simp] theorem setRes_klog2 (v : Nat) (neg : Bool) : (s.setRes v neg).klog2 = s.klog2 := rfl
@[simp] theorem setRes_aneg (v : Nat) (neg : Bool) : (s.setRes v neg).aneg = s.aneg := rfl
@[simp] theorem setRes_bneg (v : Nat) (neg : Bool) : (s.setRes v neg).bneg = s.bneg := rfl
@[simp] theorem setRes_resNeg (v : Nat) (neg : Bool) : (s.setRes v neg).resNeg = neg := rfl
@[simp] theorem setRes_da (v : Nat) (neg : Bool) : (s.setRes v neg).da = s.da := rfl
@[simp] theorem setRes_db (v : Nat) (neg : Bool) : (s.setRes v neg).db = s.db := rfl
@[simp] theorem setRes_errIdx (v : Nat) (neg : Bool) : (s.setRes v neg).errIdx = s.errIdx := rfl
@[simp] theorem setRes_errSrc (v : Nat) (neg : Bool) : (s.setRes v neg).errSrc = s.errSrc := rfl
@[simp] theorem setRes_opa (v : Nat) (neg : Bool) : (s.setRes v neg).opa = s.opa := rfl
@[simp] theorem setRes_opb (v : Nat) (neg : Bool) : (s.setRes v neg).opb = s.opb := rfl
@[simp] theorem setRes_res (v : Nat) (neg : Bool) : (s.setRes v neg).res = fitMag s.cfg v := rfl
@[simp] theorem setRes_rx (v : Nat) (neg : Bool) : (s.setRes v neg).rx = s.rx := rfl
@[simp] theorem setRes_ry (v : Nat) (neg : Bool) : (s.setRes v neg).ry = s.ry := rfl
@[simp] theorem setRes_rz (v : Nat) (neg : Bool) : (s.setRes v neg).rz = s.rz := rfl
@[simp] theorem setRes_mem (v : Nat) (neg : Bool) : (s.setRes v neg).mem = s.mem := rfl
@[simp] theorem setRes_diagReq (v : Nat) (neg : Bool) : (s.setRes v neg).diagReq = s.diagReq := rfl
@[simp] theorem setRes_work (v : Nat) (neg : Bool) : (s.setRes v neg).work = s.work := rfl
@[simp] theorem setRes_rstN (v : Nat) (neg : Bool) : (s.setRes v neg).rstN = s.rstN := rfl
@[simp] theorem setRes_inputs (v : Nat) (neg : Bool) : (s.setRes v neg).inputs = s.inputs := rfl
@[simp] theorem setRes_resp (v : Nat) (neg : Bool) : (s.setRes v neg).resp = s.resp := rfl

/-! ### withInputs -/

@[simp] theorem withInputs_cfg (r : List Input) : (s.withInputs r).cfg = s.cfg := rfl
@[simp] theorem withInputs_ie (r : List Input) : (s.withInputs r).ie = s.ie := rfl
@[simp] theorem withInputs_diagEn (r : List Input) : (s.withInputs r).diagEn = s.diagEn := rfl
@[simp] theorem withInputs_done (r : List Input) : (s.withInputs r).done = s.done := rfl
@[simp] theorem withInputs_err (r : List Input) : (s.withInputs r).err = s.err := rfl
@[simp] theorem withInputs_diagv (r : List Input) : (s.withInputs r).diagv = s.diagv := rfl
@[simp] theorem withInputs_triv (r : List Input) : (s.withInputs r).triv = s.triv := rfl
@[simp] theorem withInputs_ecode (r : List Input) : (s.withInputs r).ecode = s.ecode := rfl
@[simp] theorem withInputs_phase (r : List Input) : (s.withInputs r).phase = s.phase := rfl
@[simp] theorem withInputs_cmd (r : List Input) : (s.withInputs r).cmd = s.cmd := rfl
@[simp] theorem withInputs_klog2 (r : List Input) : (s.withInputs r).klog2 = s.klog2 := rfl
@[simp] theorem withInputs_aneg (r : List Input) : (s.withInputs r).aneg = s.aneg := rfl
@[simp] theorem withInputs_bneg (r : List Input) : (s.withInputs r).bneg = s.bneg := rfl
@[simp] theorem withInputs_resNeg (r : List Input) : (s.withInputs r).resNeg = s.resNeg := rfl
@[simp] theorem withInputs_da (r : List Input) : (s.withInputs r).da = s.da := rfl
@[simp] theorem withInputs_db (r : List Input) : (s.withInputs r).db = s.db := rfl
@[simp] theorem withInputs_errIdx (r : List Input) : (s.withInputs r).errIdx = s.errIdx := rfl
@[simp] theorem withInputs_errSrc (r : List Input) : (s.withInputs r).errSrc = s.errSrc := rfl
@[simp] theorem withInputs_opa (r : List Input) : (s.withInputs r).opa = s.opa := rfl
@[simp] theorem withInputs_opb (r : List Input) : (s.withInputs r).opb = s.opb := rfl
@[simp] theorem withInputs_res (r : List Input) : (s.withInputs r).res = s.res := rfl
@[simp] theorem withInputs_rx (r : List Input) : (s.withInputs r).rx = s.rx := rfl
@[simp] theorem withInputs_ry (r : List Input) : (s.withInputs r).ry = s.ry := rfl
@[simp] theorem withInputs_rz (r : List Input) : (s.withInputs r).rz = s.rz := rfl
@[simp] theorem withInputs_mem (r : List Input) : (s.withInputs r).mem = s.mem := rfl
@[simp] theorem withInputs_diagReq (r : List Input) : (s.withInputs r).diagReq = s.diagReq := rfl
@[simp] theorem withInputs_work (r : List Input) : (s.withInputs r).work = s.work := rfl
@[simp] theorem withInputs_rstN (r : List Input) : (s.withInputs r).rstN = s.rstN := rfl
@[simp] theorem withInputs_inputs (r : List Input) : (s.withInputs r).inputs = r := rfl
@[simp] theorem withInputs_resp (r : List Input) : (s.withInputs r).resp = s.resp := rfl

/-! ### setBank -/

@[simp] theorem setBank_cfg (b : Bank) (vs : List Nat) : (s.setBank b vs).cfg = s.cfg := rfl
@[simp] theorem setBank_ie (b : Bank) (vs : List Nat) : (s.setBank b vs).ie = s.ie := rfl
@[simp] theorem setBank_diagEn (b : Bank) (vs : List Nat) : (s.setBank b vs).diagEn = s.diagEn := rfl
@[simp] theorem setBank_done (b : Bank) (vs : List Nat) : (s.setBank b vs).done = s.done := rfl
@[simp] theorem setBank_err (b : Bank) (vs : List Nat) : (s.setBank b vs).err = s.err := rfl
@[simp] theorem setBank_diagv (b : Bank) (vs : List Nat) : (s.setBank b vs).diagv = s.diagv := rfl
@[simp] theorem setBank_triv (b : Bank) (vs : List Nat) : (s.setBank b vs).triv = s.triv := rfl
@[simp] theorem setBank_ecode (b : Bank) (vs : List Nat) : (s.setBank b vs).ecode = s.ecode := rfl
@[simp] theorem setBank_phase (b : Bank) (vs : List Nat) : (s.setBank b vs).phase = s.phase := rfl
@[simp] theorem setBank_cmd (b : Bank) (vs : List Nat) : (s.setBank b vs).cmd = s.cmd := rfl
@[simp] theorem setBank_klog2 (b : Bank) (vs : List Nat) : (s.setBank b vs).klog2 = s.klog2 := rfl
@[simp] theorem setBank_aneg (b : Bank) (vs : List Nat) : (s.setBank b vs).aneg = s.aneg := rfl
@[simp] theorem setBank_bneg (b : Bank) (vs : List Nat) : (s.setBank b vs).bneg = s.bneg := rfl
@[simp] theorem setBank_resNeg (b : Bank) (vs : List Nat) : (s.setBank b vs).resNeg = s.resNeg := rfl
@[simp] theorem setBank_da (b : Bank) (vs : List Nat) : (s.setBank b vs).da = s.da := rfl
@[simp] theorem setBank_db (b : Bank) (vs : List Nat) : (s.setBank b vs).db = s.db := rfl
@[simp] theorem setBank_errIdx (b : Bank) (vs : List Nat) : (s.setBank b vs).errIdx = s.errIdx := rfl
@[simp] theorem setBank_errSrc (b : Bank) (vs : List Nat) : (s.setBank b vs).errSrc = s.errSrc := rfl
@[simp] theorem setBank_opa (b : Bank) (vs : List Nat) : (s.setBank b vs).opa = s.opa := rfl
@[simp] theorem setBank_opb (b : Bank) (vs : List Nat) : (s.setBank b vs).opb = s.opb := rfl
@[simp] theorem setBank_res (b : Bank) (vs : List Nat) : (s.setBank b vs).res = s.res := rfl
@[simp] theorem setBank_rx (b : Bank) (vs : List Nat) : (s.setBank b vs).rx = s.rx := rfl
@[simp] theorem setBank_ry (b : Bank) (vs : List Nat) : (s.setBank b vs).ry = s.ry := rfl
@[simp] theorem setBank_rz (b : Bank) (vs : List Nat) : (s.setBank b vs).rz = s.rz := rfl
@[simp] theorem setBank_mem (b : Bank) (vs : List Nat) : (s.setBank b vs).mem = writeBank s.cfg b.toNat vs s.mem := rfl
@[simp] theorem setBank_diagReq (b : Bank) (vs : List Nat) : (s.setBank b vs).diagReq = s.diagReq := rfl
@[simp] theorem setBank_work (b : Bank) (vs : List Nat) : (s.setBank b vs).work = s.work := rfl
@[simp] theorem setBank_rstN (b : Bank) (vs : List Nat) : (s.setBank b vs).rstN = s.rstN := rfl
@[simp] theorem setBank_inputs (b : Bank) (vs : List Nat) : (s.setBank b vs).inputs = s.inputs := rfl
@[simp] theorem setBank_resp (b : Bank) (vs : List Nat) : (s.setBank b vs).resp = s.resp := rfl

/-! ### setDigits -/

@[simp] theorem setDigits_cfg (dA dB : Nat) : (s.setDigits dA dB).cfg = s.cfg := rfl
@[simp] theorem setDigits_ie (dA dB : Nat) : (s.setDigits dA dB).ie = s.ie := rfl
@[simp] theorem setDigits_diagEn (dA dB : Nat) : (s.setDigits dA dB).diagEn = s.diagEn := rfl
@[simp] theorem setDigits_done (dA dB : Nat) : (s.setDigits dA dB).done = s.done := rfl
@[simp] theorem setDigits_err (dA dB : Nat) : (s.setDigits dA dB).err = s.err := rfl
@[simp] theorem setDigits_diagv (dA dB : Nat) : (s.setDigits dA dB).diagv = s.diagv := rfl
@[simp] theorem setDigits_triv (dA dB : Nat) : (s.setDigits dA dB).triv = s.triv := rfl
@[simp] theorem setDigits_ecode (dA dB : Nat) : (s.setDigits dA dB).ecode = s.ecode := rfl
@[simp] theorem setDigits_phase (dA dB : Nat) : (s.setDigits dA dB).phase = s.phase := rfl
@[simp] theorem setDigits_cmd (dA dB : Nat) : (s.setDigits dA dB).cmd = s.cmd := rfl
@[simp] theorem setDigits_klog2 (dA dB : Nat) : (s.setDigits dA dB).klog2 = s.klog2 := rfl
@[simp] theorem setDigits_aneg (dA dB : Nat) : (s.setDigits dA dB).aneg = s.aneg := rfl
@[simp] theorem setDigits_bneg (dA dB : Nat) : (s.setDigits dA dB).bneg = s.bneg := rfl
@[simp] theorem setDigits_resNeg (dA dB : Nat) : (s.setDigits dA dB).resNeg = s.resNeg := rfl
@[simp] theorem setDigits_da (dA dB : Nat) : (s.setDigits dA dB).da = BitVec.ofNat 16 dA := rfl
@[simp] theorem setDigits_db (dA dB : Nat) : (s.setDigits dA dB).db = BitVec.ofNat 16 dB := rfl
@[simp] theorem setDigits_errIdx (dA dB : Nat) : (s.setDigits dA dB).errIdx = s.errIdx := rfl
@[simp] theorem setDigits_errSrc (dA dB : Nat) : (s.setDigits dA dB).errSrc = s.errSrc := rfl
@[simp] theorem setDigits_opa (dA dB : Nat) : (s.setDigits dA dB).opa = s.opa := rfl
@[simp] theorem setDigits_opb (dA dB : Nat) : (s.setDigits dA dB).opb = s.opb := rfl
@[simp] theorem setDigits_res (dA dB : Nat) : (s.setDigits dA dB).res = s.res := rfl
@[simp] theorem setDigits_rx (dA dB : Nat) : (s.setDigits dA dB).rx = s.rx := rfl
@[simp] theorem setDigits_ry (dA dB : Nat) : (s.setDigits dA dB).ry = s.ry := rfl
@[simp] theorem setDigits_rz (dA dB : Nat) : (s.setDigits dA dB).rz = s.rz := rfl
@[simp] theorem setDigits_mem (dA dB : Nat) : (s.setDigits dA dB).mem = s.mem := rfl
@[simp] theorem setDigits_diagReq (dA dB : Nat) : (s.setDigits dA dB).diagReq = s.diagReq := rfl
@[simp] theorem setDigits_work (dA dB : Nat) : (s.setDigits dA dB).work = s.work := rfl
@[simp] theorem setDigits_rstN (dA dB : Nat) : (s.setDigits dA dB).rstN = s.rstN := rfl
@[simp] theorem setDigits_inputs (dA dB : Nat) : (s.setDigits dA dB).inputs = s.inputs := rfl
@[simp] theorem setDigits_resp (dA dB : Nat) : (s.setDigits dA dB).resp = s.resp := rfl

/-! ### moveTo -/

@[simp] theorem moveTo_cfg (ph : Phase) (w : Work) : (s.moveTo ph w).cfg = s.cfg := rfl
@[simp] theorem moveTo_ie (ph : Phase) (w : Work) : (s.moveTo ph w).ie = s.ie := rfl
@[simp] theorem moveTo_diagEn (ph : Phase) (w : Work) : (s.moveTo ph w).diagEn = s.diagEn := rfl
@[simp] theorem moveTo_done (ph : Phase) (w : Work) : (s.moveTo ph w).done = s.done := rfl
@[simp] theorem moveTo_err (ph : Phase) (w : Work) : (s.moveTo ph w).err = s.err := rfl
@[simp] theorem moveTo_diagv (ph : Phase) (w : Work) : (s.moveTo ph w).diagv = s.diagv := rfl
@[simp] theorem moveTo_triv (ph : Phase) (w : Work) : (s.moveTo ph w).triv = s.triv := rfl
@[simp] theorem moveTo_ecode (ph : Phase) (w : Work) : (s.moveTo ph w).ecode = s.ecode := rfl
@[simp] theorem moveTo_phase (ph : Phase) (w : Work) : (s.moveTo ph w).phase = ph := rfl
@[simp] theorem moveTo_cmd (ph : Phase) (w : Work) : (s.moveTo ph w).cmd = s.cmd := rfl
@[simp] theorem moveTo_klog2 (ph : Phase) (w : Work) : (s.moveTo ph w).klog2 = s.klog2 := rfl
@[simp] theorem moveTo_aneg (ph : Phase) (w : Work) : (s.moveTo ph w).aneg = s.aneg := rfl
@[simp] theorem moveTo_bneg (ph : Phase) (w : Work) : (s.moveTo ph w).bneg = s.bneg := rfl
@[simp] theorem moveTo_resNeg (ph : Phase) (w : Work) : (s.moveTo ph w).resNeg = s.resNeg := rfl
@[simp] theorem moveTo_da (ph : Phase) (w : Work) : (s.moveTo ph w).da = s.da := rfl
@[simp] theorem moveTo_db (ph : Phase) (w : Work) : (s.moveTo ph w).db = s.db := rfl
@[simp] theorem moveTo_errIdx (ph : Phase) (w : Work) : (s.moveTo ph w).errIdx = s.errIdx := rfl
@[simp] theorem moveTo_errSrc (ph : Phase) (w : Work) : (s.moveTo ph w).errSrc = s.errSrc := rfl
@[simp] theorem moveTo_opa (ph : Phase) (w : Work) : (s.moveTo ph w).opa = s.opa := rfl
@[simp] theorem moveTo_opb (ph : Phase) (w : Work) : (s.moveTo ph w).opb = s.opb := rfl
@[simp] theorem moveTo_res (ph : Phase) (w : Work) : (s.moveTo ph w).res = s.res := rfl
@[simp] theorem moveTo_rx (ph : Phase) (w : Work) : (s.moveTo ph w).rx = s.rx := rfl
@[simp] theorem moveTo_ry (ph : Phase) (w : Work) : (s.moveTo ph w).ry = s.ry := rfl
@[simp] theorem moveTo_rz (ph : Phase) (w : Work) : (s.moveTo ph w).rz = s.rz := rfl
@[simp] theorem moveTo_mem (ph : Phase) (w : Work) : (s.moveTo ph w).mem = s.mem := rfl
@[simp] theorem moveTo_diagReq (ph : Phase) (w : Work) : (s.moveTo ph w).diagReq = s.diagReq := rfl
@[simp] theorem moveTo_work (ph : Phase) (w : Work) : (s.moveTo ph w).work = w := rfl
@[simp] theorem moveTo_rstN (ph : Phase) (w : Work) : (s.moveTo ph w).rstN = s.rstN := rfl
@[simp] theorem moveTo_inputs (ph : Phase) (w : Work) : (s.moveTo ph w).inputs = s.inputs := rfl
@[simp] theorem moveTo_resp (ph : Phase) (w : Work) : (s.moveTo ph w).resp = s.resp := rfl

/-! ### accept -/

@[simp] theorem accept_cfg (c : Word) : (accept c s).cfg = s.cfg := rfl
@[simp] theorem accept_ie (c : Word) : (accept c s).ie = s.ie := rfl
@[simp] theorem accept_diagEn (c : Word) : (accept c s).diagEn = s.diagEn := rfl
@[simp] theorem accept_done (c : Word) : (accept c s).done = false := rfl
@[simp] theorem accept_err (c : Word) : (accept c s).err = false := rfl
@[simp] theorem accept_diagv (c : Word) : (accept c s).diagv = (s.diagv && decide (decode c = some .nop)) := rfl
@[simp] theorem accept_triv (c : Word) : (accept c s).triv = false := rfl
@[simp] theorem accept_ecode (c : Word) : (accept c s).ecode = .none := rfl
@[simp] theorem accept_phase (c : Word) : (accept c s).phase = (if decode c = some .mul then .sign else .sub) := rfl
@[simp] theorem accept_cmd (c : Word) : (accept c s).cmd = c := rfl
@[simp] theorem accept_klog2 (c : Word) : (accept c s).klog2 = s.klog2 := rfl
@[simp] theorem accept_aneg (c : Word) : (accept c s).aneg = s.aneg := rfl
@[simp] theorem accept_bneg (c : Word) : (accept c s).bneg = s.bneg := rfl
@[simp] theorem accept_resNeg (c : Word) : (accept c s).resNeg = s.resNeg := rfl
@[simp] theorem accept_da (c : Word) : (accept c s).da = s.da := rfl
@[simp] theorem accept_db (c : Word) : (accept c s).db = s.db := rfl
@[simp] theorem accept_errIdx (c : Word) : (accept c s).errIdx = 0 := rfl
@[simp] theorem accept_errSrc (c : Word) : (accept c s).errSrc = .none := rfl
@[simp] theorem accept_opa (c : Word) : (accept c s).opa = s.opa := rfl
@[simp] theorem accept_opb (c : Word) : (accept c s).opb = s.opb := rfl
@[simp] theorem accept_res (c : Word) : (accept c s).res = s.res := rfl
@[simp] theorem accept_rx (c : Word) : (accept c s).rx = s.rx := rfl
@[simp] theorem accept_ry (c : Word) : (accept c s).ry = s.ry := rfl
@[simp] theorem accept_rz (c : Word) : (accept c s).rz = s.rz := rfl
@[simp] theorem accept_mem (c : Word) : (accept c s).mem = s.mem := rfl
@[simp] theorem accept_diagReq (c : Word) : (accept c s).diagReq = s.diagEn := rfl
@[simp] theorem accept_work (c : Word) : (accept c s).work = Work.empty := rfl
@[simp] theorem accept_rstN (c : Word) : (accept c s).rstN = s.rstN := rfl
@[simp] theorem accept_inputs (c : Word) : (accept c s).inputs = s.inputs := rfl
@[simp] theorem accept_resp (c : Word) : (accept c s).resp = s.resp := rfl

/-! ### complete -/

@[simp] theorem complete_cfg : (complete s).cfg = s.cfg := rfl
@[simp] theorem complete_ie : (complete s).ie = s.ie := rfl
@[simp] theorem complete_diagEn : (complete s).diagEn = s.diagEn := rfl
@[simp] theorem complete_done : (complete s).done = true := rfl
@[simp] theorem complete_err : (complete s).err = s.err := rfl
@[simp] theorem complete_diagv : (complete s).diagv = s.diagv := rfl
@[simp] theorem complete_triv : (complete s).triv = s.triv := rfl
@[simp] theorem complete_ecode : (complete s).ecode = s.ecode := rfl
@[simp] theorem complete_phase : (complete s).phase = .idle := rfl
@[simp] theorem complete_cmd : (complete s).cmd = s.cmd := rfl
@[simp] theorem complete_klog2 : (complete s).klog2 = s.klog2 := rfl
@[simp] theorem complete_aneg : (complete s).aneg = s.aneg := rfl
@[simp] theorem complete_bneg : (complete s).bneg = s.bneg := rfl
@[simp] theorem complete_resNeg : (complete s).resNeg = s.resNeg := rfl
@[simp] theorem complete_da : (complete s).da = s.da := rfl
@[simp] theorem complete_db : (complete s).db = s.db := rfl
@[simp] theorem complete_errIdx : (complete s).errIdx = s.errIdx := rfl
@[simp] theorem complete_errSrc : (complete s).errSrc = s.errSrc := rfl
@[simp] theorem complete_opa : (complete s).opa = s.opa := rfl
@[simp] theorem complete_opb : (complete s).opb = s.opb := rfl
@[simp] theorem complete_res : (complete s).res = s.res := rfl
@[simp] theorem complete_rx : (complete s).rx = s.rx := rfl
@[simp] theorem complete_ry : (complete s).ry = s.ry := rfl
@[simp] theorem complete_rz : (complete s).rz = s.rz := rfl
@[simp] theorem complete_mem : (complete s).mem = s.mem := rfl
@[simp] theorem complete_diagReq : (complete s).diagReq = s.diagReq := rfl
@[simp] theorem complete_work : (complete s).work = Work.empty := rfl
@[simp] theorem complete_rstN : (complete s).rstN = s.rstN := rfl
@[simp] theorem complete_inputs : (complete s).inputs = s.inputs := rfl
@[simp] theorem complete_resp : (complete s).resp = s.resp := rfl

/-! ### raiseErr -/

@[simp] theorem raiseErr_cfg (e : Error) : (raiseErr e s).cfg = s.cfg := rfl
@[simp] theorem raiseErr_ie (e : Error) : (raiseErr e s).ie = s.ie := rfl
@[simp] theorem raiseErr_diagEn (e : Error) : (raiseErr e s).diagEn = s.diagEn := rfl
@[simp] theorem raiseErr_done (e : Error) : (raiseErr e s).done = s.done := rfl
@[simp] theorem raiseErr_err (e : Error) : (raiseErr e s).err = true := rfl
@[simp] theorem raiseErr_diagv (e : Error) : (raiseErr e s).diagv = s.diagv := rfl
@[simp] theorem raiseErr_triv (e : Error) : (raiseErr e s).triv = s.triv := rfl
@[simp] theorem raiseErr_ecode (e : Error) : (raiseErr e s).ecode = e.ecode := rfl
@[simp] theorem raiseErr_phase (e : Error) : (raiseErr e s).phase = .idle := rfl
@[simp] theorem raiseErr_cmd (e : Error) : (raiseErr e s).cmd = s.cmd := rfl
@[simp] theorem raiseErr_klog2 (e : Error) : (raiseErr e s).klog2 = s.klog2 := rfl
@[simp] theorem raiseErr_aneg (e : Error) : (raiseErr e s).aneg = s.aneg := rfl
@[simp] theorem raiseErr_bneg (e : Error) : (raiseErr e s).bneg = s.bneg := rfl
@[simp] theorem raiseErr_resNeg (e : Error) : (raiseErr e s).resNeg = s.resNeg := rfl
@[simp] theorem raiseErr_da (e : Error) : (raiseErr e s).da = s.da := rfl
@[simp] theorem raiseErr_db (e : Error) : (raiseErr e s).db = s.db := rfl
@[simp] theorem raiseErr_errIdx (e : Error) : (raiseErr e s).errIdx = e.idxAfter s.errIdx := rfl
@[simp] theorem raiseErr_errSrc (e : Error) : (raiseErr e s).errSrc = e.srcAfter s.errSrc := rfl
@[simp] theorem raiseErr_opa (e : Error) : (raiseErr e s).opa = s.opa := rfl
@[simp] theorem raiseErr_opb (e : Error) : (raiseErr e s).opb = s.opb := rfl
@[simp] theorem raiseErr_res (e : Error) : (raiseErr e s).res = s.res := rfl
@[simp] theorem raiseErr_rx (e : Error) : (raiseErr e s).rx = s.rx := rfl
@[simp] theorem raiseErr_ry (e : Error) : (raiseErr e s).ry = s.ry := rfl
@[simp] theorem raiseErr_rz (e : Error) : (raiseErr e s).rz = s.rz := rfl
@[simp] theorem raiseErr_mem (e : Error) : (raiseErr e s).mem = s.mem := rfl
@[simp] theorem raiseErr_diagReq (e : Error) : (raiseErr e s).diagReq = s.diagReq := rfl
@[simp] theorem raiseErr_work (e : Error) : (raiseErr e s).work = Work.empty := rfl
@[simp] theorem raiseErr_rstN (e : Error) : (raiseErr e s).rstN = s.rstN := rfl
@[simp] theorem raiseErr_inputs (e : Error) : (raiseErr e s).inputs = s.inputs := rfl
@[simp] theorem raiseErr_resp (e : Error) : (raiseErr e s).resp = s.resp := rfl

/-! ### ackStatus -/

@[simp] theorem ackStatus_cfg (v : Word) : (ackStatus v s).cfg = s.cfg := rfl
@[simp] theorem ackStatus_ie (v : Word) : (ackStatus v s).ie = s.ie := rfl
@[simp] theorem ackStatus_diagEn (v : Word) : (ackStatus v s).diagEn = s.diagEn := rfl
@[simp] theorem ackStatus_done (v : Word) : (ackStatus v s).done = (s.done && !v.getLsbD 1) := rfl
@[simp] theorem ackStatus_err (v : Word) : (ackStatus v s).err = (s.err && !v.getLsbD 2) := rfl
@[simp] theorem ackStatus_diagv (v : Word) : (ackStatus v s).diagv = s.diagv := rfl
@[simp] theorem ackStatus_triv (v : Word) : (ackStatus v s).triv = s.triv := rfl
@[simp] theorem ackStatus_ecode (v : Word) : (ackStatus v s).ecode = s.ecode := rfl
@[simp] theorem ackStatus_phase (v : Word) : (ackStatus v s).phase = s.phase := rfl
@[simp] theorem ackStatus_cmd (v : Word) : (ackStatus v s).cmd = s.cmd := rfl
@[simp] theorem ackStatus_klog2 (v : Word) : (ackStatus v s).klog2 = s.klog2 := rfl
@[simp] theorem ackStatus_aneg (v : Word) : (ackStatus v s).aneg = s.aneg := rfl
@[simp] theorem ackStatus_bneg (v : Word) : (ackStatus v s).bneg = s.bneg := rfl
@[simp] theorem ackStatus_resNeg (v : Word) : (ackStatus v s).resNeg = s.resNeg := rfl
@[simp] theorem ackStatus_da (v : Word) : (ackStatus v s).da = s.da := rfl
@[simp] theorem ackStatus_db (v : Word) : (ackStatus v s).db = s.db := rfl
@[simp] theorem ackStatus_errIdx (v : Word) : (ackStatus v s).errIdx = s.errIdx := rfl
@[simp] theorem ackStatus_errSrc (v : Word) : (ackStatus v s).errSrc = s.errSrc := rfl
@[simp] theorem ackStatus_opa (v : Word) : (ackStatus v s).opa = s.opa := rfl
@[simp] theorem ackStatus_opb (v : Word) : (ackStatus v s).opb = s.opb := rfl
@[simp] theorem ackStatus_res (v : Word) : (ackStatus v s).res = s.res := rfl
@[simp] theorem ackStatus_rx (v : Word) : (ackStatus v s).rx = s.rx := rfl
@[simp] theorem ackStatus_ry (v : Word) : (ackStatus v s).ry = s.ry := rfl
@[simp] theorem ackStatus_rz (v : Word) : (ackStatus v s).rz = s.rz := rfl
@[simp] theorem ackStatus_mem (v : Word) : (ackStatus v s).mem = s.mem := rfl
@[simp] theorem ackStatus_diagReq (v : Word) : (ackStatus v s).diagReq = s.diagReq := rfl
@[simp] theorem ackStatus_work (v : Word) : (ackStatus v s).work = s.work := rfl
@[simp] theorem ackStatus_rstN (v : Word) : (ackStatus v s).rstN = s.rstN := rfl
@[simp] theorem ackStatus_inputs (v : Word) : (ackStatus v s).inputs = s.inputs := rfl
@[simp] theorem ackStatus_resp (v : Word) : (ackStatus v s).resp = s.resp := rfl

/-! ### resetEngine -/

@[simp] theorem resetEngine_cfg : (resetEngine s).cfg = s.cfg := rfl
@[simp] theorem resetEngine_ie : (resetEngine s).ie = (State.resetOf s.cfg).ie := rfl
@[simp] theorem resetEngine_diagEn : (resetEngine s).diagEn = (State.resetOf s.cfg).diagEn := rfl
@[simp] theorem resetEngine_done : (resetEngine s).done = (State.resetOf s.cfg).done := rfl
@[simp] theorem resetEngine_err : (resetEngine s).err = (State.resetOf s.cfg).err := rfl
@[simp] theorem resetEngine_diagv : (resetEngine s).diagv = (State.resetOf s.cfg).diagv := rfl
@[simp] theorem resetEngine_triv : (resetEngine s).triv = (State.resetOf s.cfg).triv := rfl
@[simp] theorem resetEngine_ecode : (resetEngine s).ecode = (State.resetOf s.cfg).ecode := rfl
@[simp] theorem resetEngine_phase : (resetEngine s).phase = (State.resetOf s.cfg).phase := rfl
@[simp] theorem resetEngine_cmd : (resetEngine s).cmd = (State.resetOf s.cfg).cmd := rfl
@[simp] theorem resetEngine_klog2 : (resetEngine s).klog2 = (State.resetOf s.cfg).klog2 := rfl
@[simp] theorem resetEngine_aneg : (resetEngine s).aneg = (State.resetOf s.cfg).aneg := rfl
@[simp] theorem resetEngine_bneg : (resetEngine s).bneg = (State.resetOf s.cfg).bneg := rfl
@[simp] theorem resetEngine_resNeg : (resetEngine s).resNeg = (State.resetOf s.cfg).resNeg := rfl
@[simp] theorem resetEngine_da : (resetEngine s).da = (State.resetOf s.cfg).da := rfl
@[simp] theorem resetEngine_db : (resetEngine s).db = (State.resetOf s.cfg).db := rfl
@[simp] theorem resetEngine_errIdx : (resetEngine s).errIdx = (State.resetOf s.cfg).errIdx := rfl
@[simp] theorem resetEngine_errSrc : (resetEngine s).errSrc = (State.resetOf s.cfg).errSrc := rfl
@[simp] theorem resetEngine_opa : (resetEngine s).opa = (State.resetOf s.cfg).opa := rfl
@[simp] theorem resetEngine_opb : (resetEngine s).opb = (State.resetOf s.cfg).opb := rfl
@[simp] theorem resetEngine_res : (resetEngine s).res = (State.resetOf s.cfg).res := rfl
@[simp] theorem resetEngine_rx : (resetEngine s).rx = (State.resetOf s.cfg).rx := rfl
@[simp] theorem resetEngine_ry : (resetEngine s).ry = (State.resetOf s.cfg).ry := rfl
@[simp] theorem resetEngine_rz : (resetEngine s).rz = (State.resetOf s.cfg).rz := rfl
@[simp] theorem resetEngine_mem : (resetEngine s).mem = (State.resetOf s.cfg).mem := rfl
@[simp] theorem resetEngine_diagReq : (resetEngine s).diagReq = (State.resetOf s.cfg).diagReq := rfl
@[simp] theorem resetEngine_work : (resetEngine s).work = (State.resetOf s.cfg).work := rfl
@[simp] theorem resetEngine_rstN : (resetEngine s).rstN = s.rstN := rfl
@[simp] theorem resetEngine_inputs : (resetEngine s).inputs = s.inputs := rfl
@[simp] theorem resetEngine_resp : (resetEngine s).resp = s.resp := rfl

/-! ### setCtrl -/

@[simp] theorem setCtrl_cfg (v : Word) : (setCtrl v s).cfg = s.cfg := rfl
@[simp] theorem setCtrl_ie (v : Word) : (setCtrl v s).ie = v.getLsbD 0 := rfl
@[simp] theorem setCtrl_diagEn (v : Word) : (setCtrl v s).diagEn = v.getLsbD 1 := rfl
@[simp] theorem setCtrl_done (v : Word) : (setCtrl v s).done = s.done := rfl
@[simp] theorem setCtrl_err (v : Word) : (setCtrl v s).err = s.err := rfl
@[simp] theorem setCtrl_diagv (v : Word) : (setCtrl v s).diagv = s.diagv := rfl
@[simp] theorem setCtrl_triv (v : Word) : (setCtrl v s).triv = s.triv := rfl
@[simp] theorem setCtrl_ecode (v : Word) : (setCtrl v s).ecode = s.ecode := rfl
@[simp] theorem setCtrl_phase (v : Word) : (setCtrl v s).phase = s.phase := rfl
@[simp] theorem setCtrl_cmd (v : Word) : (setCtrl v s).cmd = s.cmd := rfl
@[simp] theorem setCtrl_klog2 (v : Word) : (setCtrl v s).klog2 = s.klog2 := rfl
@[simp] theorem setCtrl_aneg (v : Word) : (setCtrl v s).aneg = s.aneg := rfl
@[simp] theorem setCtrl_bneg (v : Word) : (setCtrl v s).bneg = s.bneg := rfl
@[simp] theorem setCtrl_resNeg (v : Word) : (setCtrl v s).resNeg = s.resNeg := rfl
@[simp] theorem setCtrl_da (v : Word) : (setCtrl v s).da = s.da := rfl
@[simp] theorem setCtrl_db (v : Word) : (setCtrl v s).db = s.db := rfl
@[simp] theorem setCtrl_errIdx (v : Word) : (setCtrl v s).errIdx = s.errIdx := rfl
@[simp] theorem setCtrl_errSrc (v : Word) : (setCtrl v s).errSrc = s.errSrc := rfl
@[simp] theorem setCtrl_opa (v : Word) : (setCtrl v s).opa = s.opa := rfl
@[simp] theorem setCtrl_opb (v : Word) : (setCtrl v s).opb = s.opb := rfl
@[simp] theorem setCtrl_res (v : Word) : (setCtrl v s).res = s.res := rfl
@[simp] theorem setCtrl_rx (v : Word) : (setCtrl v s).rx = s.rx := rfl
@[simp] theorem setCtrl_ry (v : Word) : (setCtrl v s).ry = s.ry := rfl
@[simp] theorem setCtrl_rz (v : Word) : (setCtrl v s).rz = s.rz := rfl
@[simp] theorem setCtrl_mem (v : Word) : (setCtrl v s).mem = s.mem := rfl
@[simp] theorem setCtrl_diagReq (v : Word) : (setCtrl v s).diagReq = s.diagReq := rfl
@[simp] theorem setCtrl_work (v : Word) : (setCtrl v s).work = s.work := rfl
@[simp] theorem setCtrl_rstN (v : Word) : (setCtrl v s).rstN = s.rstN := rfl
@[simp] theorem setCtrl_inputs (v : Word) : (setCtrl v s).inputs = s.inputs := rfl
@[simp] theorem setCtrl_resp (v : Word) : (setCtrl v s).resp = s.resp := rfl

/-! ### writeKcfg -/

@[simp] theorem writeKcfg_cfg (v : Word) : (writeKcfg v s).cfg = s.cfg := rfl
@[simp] theorem writeKcfg_ie (v : Word) : (writeKcfg v s).ie = s.ie := rfl
@[simp] theorem writeKcfg_diagEn (v : Word) : (writeKcfg v s).diagEn = s.diagEn := rfl
@[simp] theorem writeKcfg_done (v : Word) : (writeKcfg v s).done = s.done := rfl
@[simp] theorem writeKcfg_err (v : Word) : (writeKcfg v s).err = s.err := rfl
@[simp] theorem writeKcfg_diagv (v : Word) : (writeKcfg v s).diagv = s.diagv := rfl
@[simp] theorem writeKcfg_triv (v : Word) : (writeKcfg v s).triv = s.triv := rfl
@[simp] theorem writeKcfg_ecode (v : Word) : (writeKcfg v s).ecode = s.ecode := rfl
@[simp] theorem writeKcfg_phase (v : Word) : (writeKcfg v s).phase = s.phase := rfl
@[simp] theorem writeKcfg_cmd (v : Word) : (writeKcfg v s).cmd = s.cmd := rfl
@[simp] theorem writeKcfg_klog2 (v : Word) : (writeKcfg v s).klog2 = v.setWidth 5 := rfl
@[simp] theorem writeKcfg_aneg (v : Word) : (writeKcfg v s).aneg = s.aneg := rfl
@[simp] theorem writeKcfg_bneg (v : Word) : (writeKcfg v s).bneg = s.bneg := rfl
@[simp] theorem writeKcfg_resNeg (v : Word) : (writeKcfg v s).resNeg = s.resNeg := rfl
@[simp] theorem writeKcfg_da (v : Word) : (writeKcfg v s).da = s.da := rfl
@[simp] theorem writeKcfg_db (v : Word) : (writeKcfg v s).db = s.db := rfl
@[simp] theorem writeKcfg_errIdx (v : Word) : (writeKcfg v s).errIdx = s.errIdx := rfl
@[simp] theorem writeKcfg_errSrc (v : Word) : (writeKcfg v s).errSrc = s.errSrc := rfl
@[simp] theorem writeKcfg_opa (v : Word) : (writeKcfg v s).opa = s.opa := rfl
@[simp] theorem writeKcfg_opb (v : Word) : (writeKcfg v s).opb = s.opb := rfl
@[simp] theorem writeKcfg_res (v : Word) : (writeKcfg v s).res = s.res := rfl
@[simp] theorem writeKcfg_rx (v : Word) : (writeKcfg v s).rx = s.rx := rfl
@[simp] theorem writeKcfg_ry (v : Word) : (writeKcfg v s).ry = s.ry := rfl
@[simp] theorem writeKcfg_rz (v : Word) : (writeKcfg v s).rz = s.rz := rfl
@[simp] theorem writeKcfg_mem (v : Word) : (writeKcfg v s).mem = s.mem := rfl
@[simp] theorem writeKcfg_diagReq (v : Word) : (writeKcfg v s).diagReq = s.diagReq := rfl
@[simp] theorem writeKcfg_work (v : Word) : (writeKcfg v s).work = s.work := rfl
@[simp] theorem writeKcfg_rstN (v : Word) : (writeKcfg v s).rstN = s.rstN := rfl
@[simp] theorem writeKcfg_inputs (v : Word) : (writeKcfg v s).inputs = s.inputs := rfl
@[simp] theorem writeKcfg_resp (v : Word) : (writeKcfg v s).resp = s.resp := rfl

/-! ### writeOpsign -/

@[simp] theorem writeOpsign_cfg (v : Word) : (writeOpsign v s).cfg = s.cfg := rfl
@[simp] theorem writeOpsign_ie (v : Word) : (writeOpsign v s).ie = s.ie := rfl
@[simp] theorem writeOpsign_diagEn (v : Word) : (writeOpsign v s).diagEn = s.diagEn := rfl
@[simp] theorem writeOpsign_done (v : Word) : (writeOpsign v s).done = s.done := rfl
@[simp] theorem writeOpsign_err (v : Word) : (writeOpsign v s).err = s.err := rfl
@[simp] theorem writeOpsign_diagv (v : Word) : (writeOpsign v s).diagv = s.diagv := rfl
@[simp] theorem writeOpsign_triv (v : Word) : (writeOpsign v s).triv = s.triv := rfl
@[simp] theorem writeOpsign_ecode (v : Word) : (writeOpsign v s).ecode = s.ecode := rfl
@[simp] theorem writeOpsign_phase (v : Word) : (writeOpsign v s).phase = s.phase := rfl
@[simp] theorem writeOpsign_cmd (v : Word) : (writeOpsign v s).cmd = s.cmd := rfl
@[simp] theorem writeOpsign_klog2 (v : Word) : (writeOpsign v s).klog2 = s.klog2 := rfl
@[simp] theorem writeOpsign_aneg (v : Word) : (writeOpsign v s).aneg = v.getLsbD 0 := rfl
@[simp] theorem writeOpsign_bneg (v : Word) : (writeOpsign v s).bneg = v.getLsbD 1 := rfl
@[simp] theorem writeOpsign_resNeg (v : Word) : (writeOpsign v s).resNeg = s.resNeg := rfl
@[simp] theorem writeOpsign_da (v : Word) : (writeOpsign v s).da = s.da := rfl
@[simp] theorem writeOpsign_db (v : Word) : (writeOpsign v s).db = s.db := rfl
@[simp] theorem writeOpsign_errIdx (v : Word) : (writeOpsign v s).errIdx = s.errIdx := rfl
@[simp] theorem writeOpsign_errSrc (v : Word) : (writeOpsign v s).errSrc = s.errSrc := rfl
@[simp] theorem writeOpsign_opa (v : Word) : (writeOpsign v s).opa = s.opa := rfl
@[simp] theorem writeOpsign_opb (v : Word) : (writeOpsign v s).opb = s.opb := rfl
@[simp] theorem writeOpsign_res (v : Word) : (writeOpsign v s).res = s.res := rfl
@[simp] theorem writeOpsign_rx (v : Word) : (writeOpsign v s).rx = s.rx := rfl
@[simp] theorem writeOpsign_ry (v : Word) : (writeOpsign v s).ry = s.ry := rfl
@[simp] theorem writeOpsign_rz (v : Word) : (writeOpsign v s).rz = s.rz := rfl
@[simp] theorem writeOpsign_mem (v : Word) : (writeOpsign v s).mem = s.mem := rfl
@[simp] theorem writeOpsign_diagReq (v : Word) : (writeOpsign v s).diagReq = s.diagReq := rfl
@[simp] theorem writeOpsign_work (v : Word) : (writeOpsign v s).work = s.work := rfl
@[simp] theorem writeOpsign_rstN (v : Word) : (writeOpsign v s).rstN = s.rstN := rfl
@[simp] theorem writeOpsign_inputs (v : Word) : (writeOpsign v s).inputs = s.inputs := rfl
@[simp] theorem writeOpsign_resp (v : Word) : (writeOpsign v s).resp = s.resp := rfl

/-! ### writeRx -/

@[simp] theorem writeRx_cfg (j : Nat) (v : Word) : (writeRx j v s).cfg = s.cfg := rfl
@[simp] theorem writeRx_ie (j : Nat) (v : Word) : (writeRx j v s).ie = s.ie := rfl
@[simp] theorem writeRx_diagEn (j : Nat) (v : Word) : (writeRx j v s).diagEn = s.diagEn := rfl
@[simp] theorem writeRx_done (j : Nat) (v : Word) : (writeRx j v s).done = s.done := rfl
@[simp] theorem writeRx_err (j : Nat) (v : Word) : (writeRx j v s).err = s.err := rfl
@[simp] theorem writeRx_diagv (j : Nat) (v : Word) : (writeRx j v s).diagv = s.diagv := rfl
@[simp] theorem writeRx_triv (j : Nat) (v : Word) : (writeRx j v s).triv = s.triv := rfl
@[simp] theorem writeRx_ecode (j : Nat) (v : Word) : (writeRx j v s).ecode = s.ecode := rfl
@[simp] theorem writeRx_phase (j : Nat) (v : Word) : (writeRx j v s).phase = s.phase := rfl
@[simp] theorem writeRx_cmd (j : Nat) (v : Word) : (writeRx j v s).cmd = s.cmd := rfl
@[simp] theorem writeRx_klog2 (j : Nat) (v : Word) : (writeRx j v s).klog2 = s.klog2 := rfl
@[simp] theorem writeRx_aneg (j : Nat) (v : Word) : (writeRx j v s).aneg = s.aneg := rfl
@[simp] theorem writeRx_bneg (j : Nat) (v : Word) : (writeRx j v s).bneg = s.bneg := rfl
@[simp] theorem writeRx_resNeg (j : Nat) (v : Word) : (writeRx j v s).resNeg = s.resNeg := rfl
@[simp] theorem writeRx_da (j : Nat) (v : Word) : (writeRx j v s).da = s.da := rfl
@[simp] theorem writeRx_db (j : Nat) (v : Word) : (writeRx j v s).db = s.db := rfl
@[simp] theorem writeRx_errIdx (j : Nat) (v : Word) : (writeRx j v s).errIdx = s.errIdx := rfl
@[simp] theorem writeRx_errSrc (j : Nat) (v : Word) : (writeRx j v s).errSrc = s.errSrc := rfl
@[simp] theorem writeRx_opa (j : Nat) (v : Word) : (writeRx j v s).opa = s.opa := rfl
@[simp] theorem writeRx_opb (j : Nat) (v : Word) : (writeRx j v s).opb = s.opb := rfl
@[simp] theorem writeRx_res (j : Nat) (v : Word) : (writeRx j v s).res = s.res := rfl
@[simp] theorem writeRx_rx (j : Nat) (v : Word) : (writeRx j v s).rx = fitElem s.cfg (putWord s.rx j v) := rfl
@[simp] theorem writeRx_ry (j : Nat) (v : Word) : (writeRx j v s).ry = s.ry := rfl
@[simp] theorem writeRx_rz (j : Nat) (v : Word) : (writeRx j v s).rz = s.rz := rfl
@[simp] theorem writeRx_mem (j : Nat) (v : Word) : (writeRx j v s).mem = s.mem := rfl
@[simp] theorem writeRx_diagReq (j : Nat) (v : Word) : (writeRx j v s).diagReq = s.diagReq := rfl
@[simp] theorem writeRx_work (j : Nat) (v : Word) : (writeRx j v s).work = s.work := rfl
@[simp] theorem writeRx_rstN (j : Nat) (v : Word) : (writeRx j v s).rstN = s.rstN := rfl
@[simp] theorem writeRx_inputs (j : Nat) (v : Word) : (writeRx j v s).inputs = s.inputs := rfl
@[simp] theorem writeRx_resp (j : Nat) (v : Word) : (writeRx j v s).resp = s.resp := rfl

/-! ### writeRy -/

@[simp] theorem writeRy_cfg (j : Nat) (v : Word) : (writeRy j v s).cfg = s.cfg := rfl
@[simp] theorem writeRy_ie (j : Nat) (v : Word) : (writeRy j v s).ie = s.ie := rfl
@[simp] theorem writeRy_diagEn (j : Nat) (v : Word) : (writeRy j v s).diagEn = s.diagEn := rfl
@[simp] theorem writeRy_done (j : Nat) (v : Word) : (writeRy j v s).done = s.done := rfl
@[simp] theorem writeRy_err (j : Nat) (v : Word) : (writeRy j v s).err = s.err := rfl
@[simp] theorem writeRy_diagv (j : Nat) (v : Word) : (writeRy j v s).diagv = s.diagv := rfl
@[simp] theorem writeRy_triv (j : Nat) (v : Word) : (writeRy j v s).triv = s.triv := rfl
@[simp] theorem writeRy_ecode (j : Nat) (v : Word) : (writeRy j v s).ecode = s.ecode := rfl
@[simp] theorem writeRy_phase (j : Nat) (v : Word) : (writeRy j v s).phase = s.phase := rfl
@[simp] theorem writeRy_cmd (j : Nat) (v : Word) : (writeRy j v s).cmd = s.cmd := rfl
@[simp] theorem writeRy_klog2 (j : Nat) (v : Word) : (writeRy j v s).klog2 = s.klog2 := rfl
@[simp] theorem writeRy_aneg (j : Nat) (v : Word) : (writeRy j v s).aneg = s.aneg := rfl
@[simp] theorem writeRy_bneg (j : Nat) (v : Word) : (writeRy j v s).bneg = s.bneg := rfl
@[simp] theorem writeRy_resNeg (j : Nat) (v : Word) : (writeRy j v s).resNeg = s.resNeg := rfl
@[simp] theorem writeRy_da (j : Nat) (v : Word) : (writeRy j v s).da = s.da := rfl
@[simp] theorem writeRy_db (j : Nat) (v : Word) : (writeRy j v s).db = s.db := rfl
@[simp] theorem writeRy_errIdx (j : Nat) (v : Word) : (writeRy j v s).errIdx = s.errIdx := rfl
@[simp] theorem writeRy_errSrc (j : Nat) (v : Word) : (writeRy j v s).errSrc = s.errSrc := rfl
@[simp] theorem writeRy_opa (j : Nat) (v : Word) : (writeRy j v s).opa = s.opa := rfl
@[simp] theorem writeRy_opb (j : Nat) (v : Word) : (writeRy j v s).opb = s.opb := rfl
@[simp] theorem writeRy_res (j : Nat) (v : Word) : (writeRy j v s).res = s.res := rfl
@[simp] theorem writeRy_rx (j : Nat) (v : Word) : (writeRy j v s).rx = s.rx := rfl
@[simp] theorem writeRy_ry (j : Nat) (v : Word) : (writeRy j v s).ry = fitElem s.cfg (putWord s.ry j v) := rfl
@[simp] theorem writeRy_rz (j : Nat) (v : Word) : (writeRy j v s).rz = s.rz := rfl
@[simp] theorem writeRy_mem (j : Nat) (v : Word) : (writeRy j v s).mem = s.mem := rfl
@[simp] theorem writeRy_diagReq (j : Nat) (v : Word) : (writeRy j v s).diagReq = s.diagReq := rfl
@[simp] theorem writeRy_work (j : Nat) (v : Word) : (writeRy j v s).work = s.work := rfl
@[simp] theorem writeRy_rstN (j : Nat) (v : Word) : (writeRy j v s).rstN = s.rstN := rfl
@[simp] theorem writeRy_inputs (j : Nat) (v : Word) : (writeRy j v s).inputs = s.inputs := rfl
@[simp] theorem writeRy_resp (j : Nat) (v : Word) : (writeRy j v s).resp = s.resp := rfl

/-! ### writeOpa -/

@[simp] theorem writeOpa_cfg (j : Nat) (v : Word) : (writeOpa j v s).cfg = s.cfg := rfl
@[simp] theorem writeOpa_ie (j : Nat) (v : Word) : (writeOpa j v s).ie = s.ie := rfl
@[simp] theorem writeOpa_diagEn (j : Nat) (v : Word) : (writeOpa j v s).diagEn = s.diagEn := rfl
@[simp] theorem writeOpa_done (j : Nat) (v : Word) : (writeOpa j v s).done = s.done := rfl
@[simp] theorem writeOpa_err (j : Nat) (v : Word) : (writeOpa j v s).err = s.err := rfl
@[simp] theorem writeOpa_diagv (j : Nat) (v : Word) : (writeOpa j v s).diagv = s.diagv := rfl
@[simp] theorem writeOpa_triv (j : Nat) (v : Word) : (writeOpa j v s).triv = s.triv := rfl
@[simp] theorem writeOpa_ecode (j : Nat) (v : Word) : (writeOpa j v s).ecode = s.ecode := rfl
@[simp] theorem writeOpa_phase (j : Nat) (v : Word) : (writeOpa j v s).phase = s.phase := rfl
@[simp] theorem writeOpa_cmd (j : Nat) (v : Word) : (writeOpa j v s).cmd = s.cmd := rfl
@[simp] theorem writeOpa_klog2 (j : Nat) (v : Word) : (writeOpa j v s).klog2 = s.klog2 := rfl
@[simp] theorem writeOpa_aneg (j : Nat) (v : Word) : (writeOpa j v s).aneg = s.aneg := rfl
@[simp] theorem writeOpa_bneg (j : Nat) (v : Word) : (writeOpa j v s).bneg = s.bneg := rfl
@[simp] theorem writeOpa_resNeg (j : Nat) (v : Word) : (writeOpa j v s).resNeg = s.resNeg := rfl
@[simp] theorem writeOpa_da (j : Nat) (v : Word) : (writeOpa j v s).da = s.da := rfl
@[simp] theorem writeOpa_db (j : Nat) (v : Word) : (writeOpa j v s).db = s.db := rfl
@[simp] theorem writeOpa_errIdx (j : Nat) (v : Word) : (writeOpa j v s).errIdx = s.errIdx := rfl
@[simp] theorem writeOpa_errSrc (j : Nat) (v : Word) : (writeOpa j v s).errSrc = s.errSrc := rfl
@[simp] theorem writeOpa_opa (j : Nat) (v : Word) : (writeOpa j v s).opa = fitMag s.cfg (putWord s.opa j v) := rfl
@[simp] theorem writeOpa_opb (j : Nat) (v : Word) : (writeOpa j v s).opb = s.opb := rfl
@[simp] theorem writeOpa_res (j : Nat) (v : Word) : (writeOpa j v s).res = s.res := rfl
@[simp] theorem writeOpa_rx (j : Nat) (v : Word) : (writeOpa j v s).rx = s.rx := rfl
@[simp] theorem writeOpa_ry (j : Nat) (v : Word) : (writeOpa j v s).ry = s.ry := rfl
@[simp] theorem writeOpa_rz (j : Nat) (v : Word) : (writeOpa j v s).rz = s.rz := rfl
@[simp] theorem writeOpa_mem (j : Nat) (v : Word) : (writeOpa j v s).mem = s.mem := rfl
@[simp] theorem writeOpa_diagReq (j : Nat) (v : Word) : (writeOpa j v s).diagReq = s.diagReq := rfl
@[simp] theorem writeOpa_work (j : Nat) (v : Word) : (writeOpa j v s).work = s.work := rfl
@[simp] theorem writeOpa_rstN (j : Nat) (v : Word) : (writeOpa j v s).rstN = s.rstN := rfl
@[simp] theorem writeOpa_inputs (j : Nat) (v : Word) : (writeOpa j v s).inputs = s.inputs := rfl
@[simp] theorem writeOpa_resp (j : Nat) (v : Word) : (writeOpa j v s).resp = s.resp := rfl

/-! ### writeOpb -/

@[simp] theorem writeOpb_cfg (j : Nat) (v : Word) : (writeOpb j v s).cfg = s.cfg := rfl
@[simp] theorem writeOpb_ie (j : Nat) (v : Word) : (writeOpb j v s).ie = s.ie := rfl
@[simp] theorem writeOpb_diagEn (j : Nat) (v : Word) : (writeOpb j v s).diagEn = s.diagEn := rfl
@[simp] theorem writeOpb_done (j : Nat) (v : Word) : (writeOpb j v s).done = s.done := rfl
@[simp] theorem writeOpb_err (j : Nat) (v : Word) : (writeOpb j v s).err = s.err := rfl
@[simp] theorem writeOpb_diagv (j : Nat) (v : Word) : (writeOpb j v s).diagv = s.diagv := rfl
@[simp] theorem writeOpb_triv (j : Nat) (v : Word) : (writeOpb j v s).triv = s.triv := rfl
@[simp] theorem writeOpb_ecode (j : Nat) (v : Word) : (writeOpb j v s).ecode = s.ecode := rfl
@[simp] theorem writeOpb_phase (j : Nat) (v : Word) : (writeOpb j v s).phase = s.phase := rfl
@[simp] theorem writeOpb_cmd (j : Nat) (v : Word) : (writeOpb j v s).cmd = s.cmd := rfl
@[simp] theorem writeOpb_klog2 (j : Nat) (v : Word) : (writeOpb j v s).klog2 = s.klog2 := rfl
@[simp] theorem writeOpb_aneg (j : Nat) (v : Word) : (writeOpb j v s).aneg = s.aneg := rfl
@[simp] theorem writeOpb_bneg (j : Nat) (v : Word) : (writeOpb j v s).bneg = s.bneg := rfl
@[simp] theorem writeOpb_resNeg (j : Nat) (v : Word) : (writeOpb j v s).resNeg = s.resNeg := rfl
@[simp] theorem writeOpb_da (j : Nat) (v : Word) : (writeOpb j v s).da = s.da := rfl
@[simp] theorem writeOpb_db (j : Nat) (v : Word) : (writeOpb j v s).db = s.db := rfl
@[simp] theorem writeOpb_errIdx (j : Nat) (v : Word) : (writeOpb j v s).errIdx = s.errIdx := rfl
@[simp] theorem writeOpb_errSrc (j : Nat) (v : Word) : (writeOpb j v s).errSrc = s.errSrc := rfl
@[simp] theorem writeOpb_opa (j : Nat) (v : Word) : (writeOpb j v s).opa = s.opa := rfl
@[simp] theorem writeOpb_opb (j : Nat) (v : Word) : (writeOpb j v s).opb = fitMag s.cfg (putWord s.opb j v) := rfl
@[simp] theorem writeOpb_res (j : Nat) (v : Word) : (writeOpb j v s).res = s.res := rfl
@[simp] theorem writeOpb_rx (j : Nat) (v : Word) : (writeOpb j v s).rx = s.rx := rfl
@[simp] theorem writeOpb_ry (j : Nat) (v : Word) : (writeOpb j v s).ry = s.ry := rfl
@[simp] theorem writeOpb_rz (j : Nat) (v : Word) : (writeOpb j v s).rz = s.rz := rfl
@[simp] theorem writeOpb_mem (j : Nat) (v : Word) : (writeOpb j v s).mem = s.mem := rfl
@[simp] theorem writeOpb_diagReq (j : Nat) (v : Word) : (writeOpb j v s).diagReq = s.diagReq := rfl
@[simp] theorem writeOpb_work (j : Nat) (v : Word) : (writeOpb j v s).work = s.work := rfl
@[simp] theorem writeOpb_rstN (j : Nat) (v : Word) : (writeOpb j v s).rstN = s.rstN := rfl
@[simp] theorem writeOpb_inputs (j : Nat) (v : Word) : (writeOpb j v s).inputs = s.inputs := rfl
@[simp] theorem writeOpb_resp (j : Nat) (v : Word) : (writeOpb j v s).resp = s.resp := rfl

/-! ### writeBankWord -/

@[simp] theorem writeBankWord_cfg (b i j : Nat) (v : Word) : (writeBankWord b i j v s).cfg = s.cfg := rfl
@[simp] theorem writeBankWord_ie (b i j : Nat) (v : Word) : (writeBankWord b i j v s).ie = s.ie := rfl
@[simp] theorem writeBankWord_diagEn (b i j : Nat) (v : Word) : (writeBankWord b i j v s).diagEn = s.diagEn := rfl
@[simp] theorem writeBankWord_done (b i j : Nat) (v : Word) : (writeBankWord b i j v s).done = s.done := rfl
@[simp] theorem writeBankWord_err (b i j : Nat) (v : Word) : (writeBankWord b i j v s).err = s.err := rfl
@[simp] theorem writeBankWord_diagv (b i j : Nat) (v : Word) : (writeBankWord b i j v s).diagv = false := rfl
@[simp] theorem writeBankWord_triv (b i j : Nat) (v : Word) : (writeBankWord b i j v s).triv = s.triv := rfl
@[simp] theorem writeBankWord_ecode (b i j : Nat) (v : Word) : (writeBankWord b i j v s).ecode = s.ecode := rfl
@[simp] theorem writeBankWord_phase (b i j : Nat) (v : Word) : (writeBankWord b i j v s).phase = s.phase := rfl
@[simp] theorem writeBankWord_cmd (b i j : Nat) (v : Word) : (writeBankWord b i j v s).cmd = s.cmd := rfl
@[simp] theorem writeBankWord_klog2 (b i j : Nat) (v : Word) : (writeBankWord b i j v s).klog2 = s.klog2 := rfl
@[simp] theorem writeBankWord_aneg (b i j : Nat) (v : Word) : (writeBankWord b i j v s).aneg = s.aneg := rfl
@[simp] theorem writeBankWord_bneg (b i j : Nat) (v : Word) : (writeBankWord b i j v s).bneg = s.bneg := rfl
@[simp] theorem writeBankWord_resNeg (b i j : Nat) (v : Word) : (writeBankWord b i j v s).resNeg = s.resNeg := rfl
@[simp] theorem writeBankWord_da (b i j : Nat) (v : Word) : (writeBankWord b i j v s).da = s.da := rfl
@[simp] theorem writeBankWord_db (b i j : Nat) (v : Word) : (writeBankWord b i j v s).db = s.db := rfl
@[simp] theorem writeBankWord_errIdx (b i j : Nat) (v : Word) : (writeBankWord b i j v s).errIdx = s.errIdx := rfl
@[simp] theorem writeBankWord_errSrc (b i j : Nat) (v : Word) : (writeBankWord b i j v s).errSrc = s.errSrc := rfl
@[simp] theorem writeBankWord_opa (b i j : Nat) (v : Word) : (writeBankWord b i j v s).opa = s.opa := rfl
@[simp] theorem writeBankWord_opb (b i j : Nat) (v : Word) : (writeBankWord b i j v s).opb = s.opb := rfl
@[simp] theorem writeBankWord_res (b i j : Nat) (v : Word) : (writeBankWord b i j v s).res = s.res := rfl
@[simp] theorem writeBankWord_rx (b i j : Nat) (v : Word) : (writeBankWord b i j v s).rx = s.rx := rfl
@[simp] theorem writeBankWord_ry (b i j : Nat) (v : Word) : (writeBankWord b i j v s).ry = s.ry := rfl
@[simp] theorem writeBankWord_rz (b i j : Nat) (v : Word) : (writeBankWord b i j v s).rz = s.rz := rfl
@[simp] theorem writeBankWord_mem (b i j : Nat) (v : Word) : (writeBankWord b i j v s).mem = writeWord s.mem (bankAddr s.cfg b i j) (elemWord s.cfg j v) := rfl
@[simp] theorem writeBankWord_diagReq (b i j : Nat) (v : Word) : (writeBankWord b i j v s).diagReq = s.diagReq := rfl
@[simp] theorem writeBankWord_work (b i j : Nat) (v : Word) : (writeBankWord b i j v s).work = s.work := rfl
@[simp] theorem writeBankWord_rstN (b i j : Nat) (v : Word) : (writeBankWord b i j v s).rstN = s.rstN := rfl
@[simp] theorem writeBankWord_inputs (b i j : Nat) (v : Word) : (writeBankWord b i j v s).inputs = s.inputs := rfl
@[simp] theorem writeBankWord_resp (b i j : Nat) (v : Word) : (writeBankWord b i j v s).resp = s.resp := rfl

/-! ### respond -/

@[simp] theorem respond_cfg (r : Resp) : (s.respond r).cfg = s.cfg := rfl
@[simp] theorem respond_ie (r : Resp) : (s.respond r).ie = s.ie := rfl
@[simp] theorem respond_diagEn (r : Resp) : (s.respond r).diagEn = s.diagEn := rfl
@[simp] theorem respond_done (r : Resp) : (s.respond r).done = s.done := rfl
@[simp] theorem respond_err (r : Resp) : (s.respond r).err = s.err := rfl
@[simp] theorem respond_diagv (r : Resp) : (s.respond r).diagv = s.diagv := rfl
@[simp] theorem respond_triv (r : Resp) : (s.respond r).triv = s.triv := rfl
@[simp] theorem respond_ecode (r : Resp) : (s.respond r).ecode = s.ecode := rfl
@[simp] theorem respond_phase (r : Resp) : (s.respond r).phase = s.phase := rfl
@[simp] theorem respond_cmd (r : Resp) : (s.respond r).cmd = s.cmd := rfl
@[simp] theorem respond_klog2 (r : Resp) : (s.respond r).klog2 = s.klog2 := rfl
@[simp] theorem respond_aneg (r : Resp) : (s.respond r).aneg = s.aneg := rfl
@[simp] theorem respond_bneg (r : Resp) : (s.respond r).bneg = s.bneg := rfl
@[simp] theorem respond_resNeg (r : Resp) : (s.respond r).resNeg = s.resNeg := rfl
@[simp] theorem respond_da (r : Resp) : (s.respond r).da = s.da := rfl
@[simp] theorem respond_db (r : Resp) : (s.respond r).db = s.db := rfl
@[simp] theorem respond_errIdx (r : Resp) : (s.respond r).errIdx = s.errIdx := rfl
@[simp] theorem respond_errSrc (r : Resp) : (s.respond r).errSrc = s.errSrc := rfl
@[simp] theorem respond_opa (r : Resp) : (s.respond r).opa = s.opa := rfl
@[simp] theorem respond_opb (r : Resp) : (s.respond r).opb = s.opb := rfl
@[simp] theorem respond_res (r : Resp) : (s.respond r).res = s.res := rfl
@[simp] theorem respond_rx (r : Resp) : (s.respond r).rx = s.rx := rfl
@[simp] theorem respond_ry (r : Resp) : (s.respond r).ry = s.ry := rfl
@[simp] theorem respond_rz (r : Resp) : (s.respond r).rz = s.rz := rfl
@[simp] theorem respond_mem (r : Resp) : (s.respond r).mem = s.mem := rfl
@[simp] theorem respond_diagReq (r : Resp) : (s.respond r).diagReq = s.diagReq := rfl
@[simp] theorem respond_work (r : Resp) : (s.respond r).work = s.work := rfl
@[simp] theorem respond_rstN (r : Resp) : (s.respond r).rstN = s.rstN := rfl
@[simp] theorem respond_inputs (r : Resp) : (s.respond r).inputs = s.inputs := rfl
@[simp] theorem respond_resp (r : Resp) : (s.respond r).resp = r := rfl

/-! ### commitTrivial -/

@[simp] theorem commitTrivial_cfg (w : Work) : (commitTrivial w s).cfg = s.cfg := rfl
@[simp] theorem commitTrivial_ie (w : Work) : (commitTrivial w s).ie = s.ie := rfl
@[simp] theorem commitTrivial_diagEn (w : Work) : (commitTrivial w s).diagEn = s.diagEn := rfl
@[simp] theorem commitTrivial_done (w : Work) : (commitTrivial w s).done = s.done := rfl
@[simp] theorem commitTrivial_err (w : Work) : (commitTrivial w s).err = s.err := rfl
@[simp] theorem commitTrivial_diagv (w : Work) : (commitTrivial w s).diagv = s.diagv := rfl
@[simp] theorem commitTrivial_triv (w : Work) : (commitTrivial w s).triv = true := rfl
@[simp] theorem commitTrivial_ecode (w : Work) : (commitTrivial w s).ecode = s.ecode := rfl
@[simp] theorem commitTrivial_phase (w : Work) : (commitTrivial w s).phase = s.phase := rfl
@[simp] theorem commitTrivial_cmd (w : Work) : (commitTrivial w s).cmd = s.cmd := rfl
@[simp] theorem commitTrivial_klog2 (w : Work) : (commitTrivial w s).klog2 = s.klog2 := rfl
@[simp] theorem commitTrivial_aneg (w : Work) : (commitTrivial w s).aneg = s.aneg := rfl
@[simp] theorem commitTrivial_bneg (w : Work) : (commitTrivial w s).bneg = s.bneg := rfl
@[simp] theorem commitTrivial_resNeg (w : Work) : (commitTrivial w s).resNeg = decide (w.prod < 0) := rfl
@[simp] theorem commitTrivial_da (w : Work) : (commitTrivial w s).da = BitVec.ofNat 16 w.dA := rfl
@[simp] theorem commitTrivial_db (w : Work) : (commitTrivial w s).db = BitVec.ofNat 16 w.dB := rfl
@[simp] theorem commitTrivial_errIdx (w : Work) : (commitTrivial w s).errIdx = s.errIdx := rfl
@[simp] theorem commitTrivial_errSrc (w : Work) : (commitTrivial w s).errSrc = s.errSrc := rfl
@[simp] theorem commitTrivial_opa (w : Work) : (commitTrivial w s).opa = s.opa := rfl
@[simp] theorem commitTrivial_opb (w : Work) : (commitTrivial w s).opb = s.opb := rfl
@[simp] theorem commitTrivial_res (w : Work) : (commitTrivial w s).res = fitMag s.cfg w.prod.natAbs := rfl
@[simp] theorem commitTrivial_rx (w : Work) : (commitTrivial w s).rx = s.rx := rfl
@[simp] theorem commitTrivial_ry (w : Work) : (commitTrivial w s).ry = s.ry := rfl
@[simp] theorem commitTrivial_rz (w : Work) : (commitTrivial w s).rz = s.rz := rfl
@[simp] theorem commitTrivial_mem (w : Work) : (commitTrivial w s).mem = s.mem := rfl
@[simp] theorem commitTrivial_diagReq (w : Work) : (commitTrivial w s).diagReq = s.diagReq := rfl
@[simp] theorem commitTrivial_work (w : Work) : (commitTrivial w s).work = s.work := rfl
@[simp] theorem commitTrivial_rstN (w : Work) : (commitTrivial w s).rstN = s.rstN := rfl
@[simp] theorem commitTrivial_inputs (w : Work) : (commitTrivial w s).inputs = s.inputs := rfl
@[simp] theorem commitTrivial_resp (w : Work) : (commitTrivial w s).resp = s.resp := rfl

/-! ### commitNtt -/

@[simp] theorem commitNtt_cfg (w : Work) : (commitNtt w s).cfg = s.cfg := rfl
@[simp] theorem commitNtt_ie (w : Work) : (commitNtt w s).ie = s.ie := rfl
@[simp] theorem commitNtt_diagEn (w : Work) : (commitNtt w s).diagEn = s.diagEn := rfl
@[simp] theorem commitNtt_done (w : Work) : (commitNtt w s).done = s.done := rfl
@[simp] theorem commitNtt_err (w : Work) : (commitNtt w s).err = s.err := rfl
@[simp] theorem commitNtt_diagv (w : Work) : (commitNtt w s).diagv = s.diagReq := rfl
@[simp] theorem commitNtt_triv (w : Work) : (commitNtt w s).triv = s.triv := rfl
@[simp] theorem commitNtt_ecode (w : Work) : (commitNtt w s).ecode = s.ecode := rfl
@[simp] theorem commitNtt_phase (w : Work) : (commitNtt w s).phase = s.phase := rfl
@[simp] theorem commitNtt_cmd (w : Work) : (commitNtt w s).cmd = s.cmd := rfl
@[simp] theorem commitNtt_klog2 (w : Work) : (commitNtt w s).klog2 = BitVec.ofNat 5 w.klog := rfl
@[simp] theorem commitNtt_aneg (w : Work) : (commitNtt w s).aneg = s.aneg := rfl
@[simp] theorem commitNtt_bneg (w : Work) : (commitNtt w s).bneg = s.bneg := rfl
@[simp] theorem commitNtt_resNeg (w : Work) : (commitNtt w s).resNeg = decide (w.signC = -1) := rfl
@[simp] theorem commitNtt_da (w : Work) : (commitNtt w s).da = BitVec.ofNat 16 w.dA := rfl
@[simp] theorem commitNtt_db (w : Work) : (commitNtt w s).db = BitVec.ofNat 16 w.dB := rfl
@[simp] theorem commitNtt_errIdx (w : Work) : (commitNtt w s).errIdx = s.errIdx := rfl
@[simp] theorem commitNtt_errSrc (w : Work) : (commitNtt w s).errSrc = s.errSrc := rfl
@[simp] theorem commitNtt_opa (w : Work) : (commitNtt w s).opa = s.opa := rfl
@[simp] theorem commitNtt_opb (w : Work) : (commitNtt w s).opb = s.opb := rfl
@[simp] theorem commitNtt_res (w : Work) : (commitNtt w s).res = fitMag s.cfg w.c := rfl
@[simp] theorem commitNtt_rx (w : Work) : (commitNtt w s).rx = s.rx := rfl
@[simp] theorem commitNtt_ry (w : Work) : (commitNtt w s).ry = s.ry := rfl
@[simp] theorem commitNtt_rz (w : Work) : (commitNtt w s).rz = s.rz := rfl
@[simp] theorem commitNtt_mem (w : Work) : (commitNtt w s).mem = commitBanks s.cfg w s.mem := rfl
@[simp] theorem commitNtt_diagReq (w : Work) : (commitNtt w s).diagReq = s.diagReq := rfl
@[simp] theorem commitNtt_work (w : Work) : (commitNtt w s).work = s.work := rfl
@[simp] theorem commitNtt_rstN (w : Work) : (commitNtt w s).rstN = s.rstN := rfl
@[simp] theorem commitNtt_inputs (w : Work) : (commitNtt w s).inputs = s.inputs := rfl
@[simp] theorem commitNtt_resp (w : Work) : (commitNtt w s).resp = s.resp := rfl

variable (w : Work)

/-! ### trivWork -/

@[simp] theorem trivWork_signC : (trivWork w).signC = w.signC := rfl
@[simp] theorem trivWork_mA : (trivWork w).mA = w.mA := rfl
@[simp] theorem trivWork_mB : (trivWork w).mB = w.mB := rfl
@[simp] theorem trivWork_dA : (trivWork w).dA = w.dA := rfl
@[simp] theorem trivWork_dB : (trivWork w).dB = w.dB := rfl
@[simp] theorem trivWork_trivial : (trivWork w).trivial = w.trivial := rfl
@[simp] theorem trivWork_klog : (trivWork w).klog = w.klog := rfl
@[simp] theorem trivWork_vA : (trivWork w).vA = w.vA := rfl
@[simp] theorem trivWork_vB : (trivWork w).vB = w.vB := rfl
@[simp] theorem trivWork_fA : (trivWork w).fA = w.fA := rfl
@[simp] theorem trivWork_fB : (trivWork w).fB = w.fB := rfl
@[simp] theorem trivWork_fC : (trivWork w).fC = w.fC := rfl
@[simp] theorem trivWork_raw : (trivWork w).raw = w.raw := rfl
@[simp] theorem trivWork_vC : (trivWork w).vC = w.vC := rfl
@[simp] theorem trivWork_prod : (trivWork w).prod = w.signC * (w.mA * w.mB : Nat) := rfl
@[simp] theorem trivWork_c : (trivWork w).c = w.c := rfl

/-! ### encWork -/

@[simp] theorem encWork_signC : (encWork w).signC = w.signC := rfl
@[simp] theorem encWork_mA : (encWork w).mA = w.mA := rfl
@[simp] theorem encWork_mB : (encWork w).mB = w.mB := rfl
@[simp] theorem encWork_dA : (encWork w).dA = w.dA := rfl
@[simp] theorem encWork_dB : (encWork w).dB = w.dB := rfl
@[simp] theorem encWork_trivial : (encWork w).trivial = w.trivial := rfl
@[simp] theorem encWork_klog : (encWork w).klog = w.klog := rfl
@[simp] theorem encWork_vA : (encWork w).vA = digitEncode w.mA (2 ^ w.klog) := rfl
@[simp] theorem encWork_vB : (encWork w).vB = digitEncode w.mB (2 ^ w.klog) := rfl
@[simp] theorem encWork_fA : (encWork w).fA = w.fA := rfl
@[simp] theorem encWork_fB : (encWork w).fB = w.fB := rfl
@[simp] theorem encWork_fC : (encWork w).fC = w.fC := rfl
@[simp] theorem encWork_raw : (encWork w).raw = w.raw := rfl
@[simp] theorem encWork_vC : (encWork w).vC = w.vC := rfl
@[simp] theorem encWork_prod : (encWork w).prod = w.prod := rfl
@[simp] theorem encWork_c : (encWork w).c = w.c := rfl

/-! ### fnttWork -/

@[simp] theorem fnttWork_signC : (fnttWork w).signC = w.signC := rfl
@[simp] theorem fnttWork_mA : (fnttWork w).mA = w.mA := rfl
@[simp] theorem fnttWork_mB : (fnttWork w).mB = w.mB := rfl
@[simp] theorem fnttWork_dA : (fnttWork w).dA = w.dA := rfl
@[simp] theorem fnttWork_dB : (fnttWork w).dB = w.dB := rfl
@[simp] theorem fnttWork_trivial : (fnttWork w).trivial = w.trivial := rfl
@[simp] theorem fnttWork_klog : (fnttWork w).klog = w.klog := rfl
@[simp] theorem fnttWork_vA : (fnttWork w).vA = w.vA := rfl
@[simp] theorem fnttWork_vB : (fnttWork w).vB = w.vB := rfl
@[simp] theorem fnttWork_fA : (fnttWork w).fA = transform (modulusOf w.klog) w.klog forwardRoot w.vA := rfl
@[simp] theorem fnttWork_fB : (fnttWork w).fB = transform (modulusOf w.klog) w.klog forwardRoot w.vB := rfl
@[simp] theorem fnttWork_fC : (fnttWork w).fC = w.fC := rfl
@[simp] theorem fnttWork_raw : (fnttWork w).raw = w.raw := rfl
@[simp] theorem fnttWork_vC : (fnttWork w).vC = w.vC := rfl
@[simp] theorem fnttWork_prod : (fnttWork w).prod = w.prod := rfl
@[simp] theorem fnttWork_c : (fnttWork w).c = w.c := rfl

/-! ### pmulWork -/

@[simp] theorem pmulWork_signC : (pmulWork w).signC = w.signC := rfl
@[simp] theorem pmulWork_mA : (pmulWork w).mA = w.mA := rfl
@[simp] theorem pmulWork_mB : (pmulWork w).mB = w.mB := rfl
@[simp] theorem pmulWork_dA : (pmulWork w).dA = w.dA := rfl
@[simp] theorem pmulWork_dB : (pmulWork w).dB = w.dB := rfl
@[simp] theorem pmulWork_trivial : (pmulWork w).trivial = w.trivial := rfl
@[simp] theorem pmulWork_klog : (pmulWork w).klog = w.klog := rfl
@[simp] theorem pmulWork_vA : (pmulWork w).vA = w.vA := rfl
@[simp] theorem pmulWork_vB : (pmulWork w).vB = w.vB := rfl
@[simp] theorem pmulWork_fA : (pmulWork w).fA = w.fA := rfl
@[simp] theorem pmulWork_fB : (pmulWork w).fB = w.fB := rfl
@[simp] theorem pmulWork_fC : (pmulWork w).fC = List.zipWith (rmul (modulusOf w.klog)) w.fA w.fB := rfl
@[simp] theorem pmulWork_raw : (pmulWork w).raw = w.raw := rfl
@[simp] theorem pmulWork_vC : (pmulWork w).vC = w.vC := rfl
@[simp] theorem pmulWork_prod : (pmulWork w).prod = w.prod := rfl
@[simp] theorem pmulWork_c : (pmulWork w).c = w.c := rfl

/-! ### inttWork -/

@[simp] theorem inttWork_signC : (inttWork w).signC = w.signC := rfl
@[simp] theorem inttWork_mA : (inttWork w).mA = w.mA := rfl
@[simp] theorem inttWork_mB : (inttWork w).mB = w.mB := rfl
@[simp] theorem inttWork_dA : (inttWork w).dA = w.dA := rfl
@[simp] theorem inttWork_dB : (inttWork w).dB = w.dB := rfl
@[simp] theorem inttWork_trivial : (inttWork w).trivial = w.trivial := rfl
@[simp] theorem inttWork_klog : (inttWork w).klog = w.klog := rfl
@[simp] theorem inttWork_vA : (inttWork w).vA = w.vA := rfl
@[simp] theorem inttWork_vB : (inttWork w).vB = w.vB := rfl
@[simp] theorem inttWork_fA : (inttWork w).fA = w.fA := rfl
@[simp] theorem inttWork_fB : (inttWork w).fB = w.fB := rfl
@[simp] theorem inttWork_fC : (inttWork w).fC = w.fC := rfl
@[simp] theorem inttWork_raw : (inttWork w).raw = transform (modulusOf w.klog) w.klog (inverseRoot w.klog) w.fC := rfl
@[simp] theorem inttWork_vC : (inttWork w).vC = w.vC := rfl
@[simp] theorem inttWork_prod : (inttWork w).prod = w.prod := rfl
@[simp] theorem inttWork_c : (inttWork w).c = w.c := rfl

/-! ### scaleWork -/

@[simp] theorem scaleWork_signC : (scaleWork w).signC = w.signC := rfl
@[simp] theorem scaleWork_mA : (scaleWork w).mA = w.mA := rfl
@[simp] theorem scaleWork_mB : (scaleWork w).mB = w.mB := rfl
@[simp] theorem scaleWork_dA : (scaleWork w).dA = w.dA := rfl
@[simp] theorem scaleWork_dB : (scaleWork w).dB = w.dB := rfl
@[simp] theorem scaleWork_trivial : (scaleWork w).trivial = w.trivial := rfl
@[simp] theorem scaleWork_klog : (scaleWork w).klog = w.klog := rfl
@[simp] theorem scaleWork_vA : (scaleWork w).vA = w.vA := rfl
@[simp] theorem scaleWork_vB : (scaleWork w).vB = w.vB := rfl
@[simp] theorem scaleWork_fA : (scaleWork w).fA = w.fA := rfl
@[simp] theorem scaleWork_fB : (scaleWork w).fB = w.fB := rfl
@[simp] theorem scaleWork_fC : (scaleWork w).fC = w.fC := rfl
@[simp] theorem scaleWork_raw : (scaleWork w).raw = w.raw := rfl
@[simp] theorem scaleWork_vC : (scaleWork w).vC = w.raw.map fun v => rmul (modulusOf w.klog) v (scaleFactor w.klog) := rfl
@[simp] theorem scaleWork_prod : (scaleWork w).prod = w.prod := rfl
@[simp] theorem scaleWork_c : (scaleWork w).c = w.c := rfl

/-! ### decWork -/

@[simp] theorem decWork_signC : (decWork w).signC = w.signC := rfl
@[simp] theorem decWork_mA : (decWork w).mA = w.mA := rfl
@[simp] theorem decWork_mB : (decWork w).mB = w.mB := rfl
@[simp] theorem decWork_dA : (decWork w).dA = w.dA := rfl
@[simp] theorem decWork_dB : (decWork w).dB = w.dB := rfl
@[simp] theorem decWork_trivial : (decWork w).trivial = w.trivial := rfl
@[simp] theorem decWork_klog : (decWork w).klog = w.klog := rfl
@[simp] theorem decWork_vA : (decWork w).vA = w.vA := rfl
@[simp] theorem decWork_vB : (decWork w).vB = w.vB := rfl
@[simp] theorem decWork_fA : (decWork w).fA = w.fA := rfl
@[simp] theorem decWork_fB : (decWork w).fB = w.fB := rfl
@[simp] theorem decWork_fC : (decWork w).fC = w.fC := rfl
@[simp] theorem decWork_raw : (decWork w).raw = w.raw := rfl
@[simp] theorem decWork_vC : (decWork w).vC = w.vC := rfl
@[simp] theorem decWork_prod : (decWork w).prod = w.prod := rfl
@[simp] theorem decWork_c : (decWork w).c = digitDecode w.vC := rfl

end Sys2Proof.Machine
end

