-- ==== Sys2Proof/Laws/Commands.lean ====
section
/-! SUPPORT. What the checks of a command can come to, what a command with given checks does, and the
whole run of MUL from each phase: the lemmas that statements about commands cite. -/

namespace Sys2Proof.Machine

/-! ### Checks -/

@[simp] theorem Check.bind_pass {α β : Type} (a : α) (k : α → Check β) :
    (Check.pass a).bind k = k a := rfl
@[simp] theorem Check.bind_raise {α β : Type} (e : Error) (k : α → Check β) :
    (Check.raise e : Check α).bind k = .raise e := rfl
@[simp] theorem Check.bind_stop {α β : Type} (f : Fault) (k : α → Check β) :
    (Check.stop f : Check α).bind k = .stop f := rfl
@[simp] theorem Check.finish_pass {α : Type} (a : α) (s : State) (k : α → State) :
    (Check.pass a).finish s k = .next (complete (k a)) := rfl
@[simp] theorem Check.finish_raise {α : Type} (e : Error) (s : State) (k : α → State) :
    (Check.raise e : Check α).finish s k = .next (raiseErr e s) := rfl
@[simp] theorem Check.finish_stop {α : Type} (f : Fault) (s : State) (k : α → State) :
    (Check.stop f : Check α).finish s k = .fault f := rfl

/-- Everything a checked command can do when it answers a next state. -/
theorem Check.finish_next {α : Type} {c : Check α} {s t : State} {k : α → State}
    (h : c.finish s k = .next t) :
    (∃ a, c = .pass a ∧ t = complete (k a)) ∨ (∃ e, c = .raise e ∧ t = raiseErr e s) := by
  cases c with
  | pass a => simp only [finish_pass, Host.Outcome.next.injEq] at h; exact .inl ⟨a, rfl, h.symm⟩
  | raise e => simp only [finish_raise, Host.Outcome.next.injEq] at h; exact .inr ⟨e, rfl, h.symm⟩
  | stop f => simp at h

theorem Check.bind_eq_pass {α β : Type} {c : Check α} {k : α → Check β} {b : β}
    (h : c.bind k = .pass b) : ∃ a, c = .pass a ∧ k a = .pass b := by
  cases c with
  | pass a => exact ⟨a, rfl, h⟩
  | raise e => simp at h
  | stop f => simp at h

/-- What passing the length check says (40_ring_arithmetic.md R137). -/
theorem checkLength_pass {s : State} {n : Nat} (h : checkLength s = .pass n) :
    n = s.klog2.toNat ∧ n ≤ s.cfg.lkmax := by
  unfold checkLength at h
  split at h
  · rename_i hle
    simp only [Check.pass.injEq] at h
    exact ⟨h.symm, h ▸ hle⟩
  · simp at h

theorem checkBanks_pass {bs : List Bank} {u : Unit} (h : checkBanks bs = .pass u) :
    bs.all Bank.valid = true := by
  unfold checkBanks at h
  split at h
  · assumption
  · simp at h

theorem checkScalar_pass {v n x : Nat} {src : ErrSrc} (h : checkScalar v src n = .pass x) :
    x = v ∧ v < modulusOf n := by
  unfold checkScalar at h
  split at h
  · rename_i hv
    simp only [Check.pass.injEq] at h
    exact ⟨h.symm, hv⟩
  · simp at h

/-- What passing the element checks says (40_ring_arithmetic.md R136). -/
theorem checkElems_pass {s : State} {b : Bank} {src : ErrSrc} {p n i : Nat} {vs : List Nat}
    (h : checkElems s b src p n i = .pass vs) :
    vs.length = n ∧ (∀ j v, vs[j]? = some v → readElem s.cfg s.mem b.toNat (i + j) = some v) ∧
      ∀ v ∈ vs, v < p := by
  induction n generalizing i vs with
  | zero =>
    simp only [checkElems, Check.pass.injEq] at h
    subst h; simp
  | succ n ih =>
    unfold checkElems at h
    split at h
    · simp at h
    · rename_i v hr
      split at h
      · rename_i hv
        obtain ⟨ws, hw, hp⟩ := Check.bind_eq_pass h
        simp only [Check.pass.injEq] at hp
        subst hp
        obtain ⟨h1, h2, h3⟩ := ih hw
        refine ⟨by simp [h1], ?_, ?_⟩
        · intro j x hx
          cases j with
          | zero => simp only [List.getElem?_cons_zero, Option.some.injEq] at hx; exact hx ▸ hr
          | succ j =>
            rw [show i + (j + 1) = i + 1 + j by omega]
            exact h2 j x (by simpa using hx)
        · intro x hx
          rcases List.mem_cons.1 hx with hx | hx
          · exact hx ▸ hv
          · exact h3 x hx
      · simp at h

/-- A written vector of ring elements passes the element checks. -/
theorem checkElems_of_source {s : State} {b : Bank} {src : ErrSrc} {p i : Nat} {vs : List Nat}
    (h : ∀ j v, vs[j]? = some v → readElem s.cfg s.mem b.toNat (i + j) = some v)
    (hp : ∀ v ∈ vs, v < p) : checkElems s b src p vs.length i = .pass vs := by
  induction vs generalizing i with
  | nil => rfl
  | cons v vs ih =>
    have h0 := h 0 v rfl
    rw [Nat.add_zero] at h0
    rw [List.length_cons, checkElems, h0]
    simp only [hp v (by simp), if_true]
    rw [ih (fun j x hx => by
      rw [show i + 1 + j = i + (j + 1) by omega]; exact h (j + 1) x (by simpa using hx))
      fun x hx => hp x (List.mem_cons_of_mem _ hx)]
    rfl

/-- The first element that is not below p raises E_RANGE, all before it being in range. -/
theorem checkElems_raise {s : State} {b : Bank} {src : ErrSrc} {p n i d v : Nat} (hd : d < n)
    (hok : ∀ j < d, ∃ v, readElem s.cfg s.mem b.toNat (i + j) = some v ∧ v < p)
    (hv : readElem s.cfg s.mem b.toNat (i + d) = some v) (hp : p ≤ v) :
    checkElems s b src p n i = .raise (.range src (i + d)) := by
  induction d generalizing i n with
  | zero =>
    obtain ⟨n, rfl⟩ := Nat.exists_eq_succ_of_ne_zero (show n ≠ 0 by omega)
    rw [Nat.add_zero] at hv ⊢
    rw [Nat.succ_eq_add_one, checkElems, hv]
    simp [show ¬ v < p by omega]
  | succ d ih =>
    obtain ⟨n, rfl⟩ := Nat.exists_eq_succ_of_ne_zero (show n ≠ 0 by omega)
    obtain ⟨x, hx, hxp⟩ := hok 0 (by omega)
    rw [Nat.add_zero] at hx
    rw [Nat.succ_eq_add_one, checkElems, hx]
    simp only [hxp, if_true]
    rw [ih (i := i + 1) (by omega)
      (fun j hj => by rw [show i + 1 + j = i + (j + 1) by omega]; exact hok (j + 1) (by omega))
      (by rw [show i + 1 + d = i + (d + 1) by omega]; exact hv)]
    simp only [Check.bind_raise, show i + 1 + d = i + (d + 1) by omega]

/-- The first unwritten element stops the model, all before it being in range. -/
theorem checkElems_stop {s : State} {b : Bank} {src : ErrSrc} {p n i d : Nat} (hd : d < n)
    (hok : ∀ j < d, ∃ v, readElem s.cfg s.mem b.toNat (i + j) = some v ∧ v < p)
    (hv : readElem s.cfg s.mem b.toNat (i + d) = none) :
    checkElems s b src p n i = .stop (.commandReadUnwritten b (i + d)) := by
  induction d generalizing i n with
  | zero =>
    obtain ⟨n, rfl⟩ := Nat.exists_eq_succ_of_ne_zero (show n ≠ 0 by omega)
    rw [Nat.add_zero] at hv ⊢
    rw [Nat.succ_eq_add_one, checkElems, hv]
  | succ d ih =>
    obtain ⟨n, rfl⟩ := Nat.exists_eq_succ_of_ne_zero (show n ≠ 0 by omega)
    obtain ⟨x, hx, hxp⟩ := hok 0 (by omega)
    rw [Nat.add_zero] at hx
    rw [Nat.succ_eq_add_one, checkElems, hx]
    simp only [hxp, if_true]
    rw [ih (i := i + 1) (by omega)
      (fun j hj => by rw [show i + 1 + j = i + (j + 1) by omega]; exact hok (j + 1) (by omega))
      (by rw [show i + 1 + d = i + (d + 1) by omega]; exact hv)]
    simp only [Check.bind_stop, show i + 1 + d = i + (d + 1) by omega]

/-! ### Prologues -/

theorem checkLength_ok {s : State} (h : s.klog2.toNat ≤ s.cfg.lkmax) :
    checkLength s = .pass s.klog2.toNat := if_pos h

theorem checkLength_bad {s : State} (h : s.cfg.lkmax < s.klog2.toNat) :
    checkLength s = .raise .arg := if_neg (by omega)

theorem checkBanks_ok {bs : List Bank} (h : bs.all Bank.valid = true) : checkBanks bs = .pass () :=
  if_pos h

theorem prologueK_ok {s : State} {bs : List Bank} (hb : bs.all Bank.valid = true)
    (h : s.klog2.toNat ≤ s.cfg.lkmax) : prologueK s bs = .pass s.klog2.toNat := by
  rw [prologueK, checkBanks_ok hb, Check.bind_pass, checkLength_ok h]

theorem prologueK_arg {s : State} {bs : List Bank} (hb : bs.all Bank.valid = true)
    (h : s.cfg.lkmax < s.klog2.toNat) : prologueK s bs = .raise .arg := by
  rw [prologueK, checkBanks_ok hb, Check.bind_pass, checkLength_bad h]

/-- A source that is written and in range is read whole (40_ring_arithmetic.md R136, R145). -/
theorem checkBank_ok {s : State} {b : Bank} {src : ErrSrc} {n : Nat} {xs : List Nat}
    (h : RingSource s b n xs) : checkBank s b src n = .pass xs := by
  obtain ⟨hl, hr, hp⟩ := h
  rw [checkBank, ← hl]
  apply checkElems_of_source
  · intro j v hj; rw [Nat.zero_add]; exact hr j v hj
  · exact hp

theorem prologueVec1_ok {s : State} {bs : List Bank} {rs1 : Bank} {xs : List Nat}
    (hb : bs.all Bank.valid = true) (h : s.klog2.toNat ≤ s.cfg.lkmax)
    (h1 : RingSource s rs1 s.klog2.toNat xs) :
    prologueVec1 s bs rs1 = .pass (s.klog2.toNat, xs) := by
  rw [prologueVec1, prologueK_ok hb h, Check.bind_pass, checkBank_ok h1, Check.bind_pass]

theorem prologueVec2_ok {s : State} {bs : List Bank} {rs1 rs2 : Bank} {xs ys : List Nat}
    (hb : bs.all Bank.valid = true) (h : s.klog2.toNat ≤ s.cfg.lkmax)
    (h1 : RingSource s rs1 s.klog2.toNat xs) (h2 : RingSource s rs2 s.klog2.toNat ys) :
    prologueVec2 s bs rs1 rs2 = .pass (s.klog2.toNat, xs, ys) := by
  rw [prologueVec2, prologueVec1_ok hb h h1, Check.bind_pass, checkBank_ok h2, Check.bind_pass]

/-- What passing a prologue of one source says. -/
theorem prologueVec1_pass {s : State} {bs : List Bank} {rs1 : Bank} {a : Nat × List Nat}
    (h : prologueVec1 s bs rs1 = .pass a) :
    bs.all Bank.valid = true ∧ a.1 = s.klog2.toNat ∧ a.1 ≤ s.cfg.lkmax ∧
      RingSource s rs1 a.1 a.2 := by
  obtain ⟨n, hk, h⟩ := Check.bind_eq_pass h
  obtain ⟨xs, hx, h⟩ := Check.bind_eq_pass h
  simp only [Check.pass.injEq] at h
  subst h
  obtain ⟨u, hu, hn⟩ := Check.bind_eq_pass hk
  obtain ⟨h1, h2⟩ := checkLength_pass hn
  obtain ⟨e1, e2, e3⟩ := checkElems_pass hx
  exact ⟨checkBanks_pass hu, h1, h2, e1, fun i v hi => by simpa using e2 i v hi, e3⟩

/-- What passing a prologue of two sources says. -/
theorem prologueVec2_pass {s : State} {bs : List Bank} {rs1 rs2 : Bank}
    {a : Nat × List Nat × List Nat} (h : prologueVec2 s bs rs1 rs2 = .pass a) :
    bs.all Bank.valid = true ∧ a.1 = s.klog2.toNat ∧ a.1 ≤ s.cfg.lkmax ∧
      RingSource s rs1 a.1 a.2.1 ∧ RingSource s rs2 a.1 a.2.2 := by
  obtain ⟨p, h1, h⟩ := Check.bind_eq_pass h
  obtain ⟨w, h2, h⟩ := Check.bind_eq_pass h
  simp only [Check.pass.injEq] at h
  subst h
  obtain ⟨x1, x2, x3, x4⟩ := prologueVec1_pass h1
  obtain ⟨e1, e2, e3⟩ := checkElems_pass h2
  exact ⟨x1, x2, x3, x4, e1, fun i v hi => by simpa using e2 i v hi, e3⟩

/-- A completed bank command: the destination holds the vector and every other byte of memory is as
before (10_state.md R49). -/
theorem complete_setBank_result {s : State} {rd : Bank} {ys : List Nat}
    (hy : ∀ y ∈ ys, y < 2 ^ ewOf s.cfg) : BankResult s (complete (s.setBank rd ys)) rd ys := by
  refine ⟨rfl, holds_writeBank s.mem hy, ?_⟩
  intro a ha
  apply readByte_writeBank_other
  intro i j k hi hj hk he
  exact ha ⟨i, j, k, hi, hj, hk, he⟩

/-! ### The run of MUL (43_orchestrator.md R211, R218) -/

/-- SIGN's working values depend on the four operand fields only (43_orchestrator.md R219). -/
theorem signWork_congr {s t : State} (h1 : t.opa = s.opa) (h2 : t.opb = s.opb)
    (h3 : t.aneg = s.aneg) (h4 : t.bneg = s.bneg) : signWork t = signWork s := by
  simp only [signWork, h1, h2, h3, h4]

/-- What no move of MUL changes (43_orchestrator.md R230). -/
theorem mulMove_keeps (s : State) :
    (mulMove s).cfg = s.cfg ∧ (mulMove s).cmd = s.cmd ∧ (mulMove s).rstN = s.rstN ∧
      (mulMove s).inputs = s.inputs ∧ (mulMove s).opa = s.opa ∧ (mulMove s).opb = s.opb ∧
      (mulMove s).rx = s.rx ∧ (mulMove s).ry = s.ry ∧ (mulMove s).rz = s.rz := by
  unfold mulMove leaveSign leaveFin
  cases s.phase <;> simp <;> split <;> (try split) <;> simp

theorem mulFinish_succ (fuel : Nat) (s : State) :
    mulFinish (fuel + 1) s =
      if (mulMove s).phase = .idle then mulMove s else mulFinish fuel (mulMove s) := rfl

theorem leaveFin_phase (w : Work) (s : State) : (leaveFin w s).phase = .idle := rfl

/-- From FIN the next move is the last. -/
theorem mulFinish_fin (fuel : Nat) (s : State) (w : Work) :
    mulFinish (fuel + 1) (s.moveTo .fin w) = leaveFin w (s.moveTo .fin w) := by
  rw [mulFinish_succ]
  exact if_pos (leaveFin_phase _ _)

theorem mulFinish_triv (fuel : Nat) (s : State) (w : Work) :
    mulFinish (fuel + 2) (s.moveTo .triv w) =
      leaveFin (trivWork w) (s.moveTo .fin (trivWork w)) := by
  rw [mulFinish_succ, if_neg (by simp [mulMove])]
  exact mulFinish_fin fuel s (trivWork w)

theorem mulFinish_dec (fuel : Nat) (s : State) (w : Work) :
    mulFinish (fuel + 2) (s.moveTo .dec w) =
      leaveFin (decWork w) (s.moveTo .fin (decWork w)) := by
  rw [mulFinish_succ, if_neg (by simp [mulMove])]
  exact mulFinish_fin fuel s (decWork w)

theorem mulFinish_scale (fuel : Nat) (s : State) (w : Work) :
    mulFinish (fuel + 1) (s.moveTo .scale w) = mulFinish fuel (s.moveTo .dec (scaleWork w)) := by
  rw [mulFinish_succ, if_neg (by simp [mulMove])]; rfl

theorem mulFinish_intt (fuel : Nat) (s : State) (w : Work) :
    mulFinish (fuel + 1) (s.moveTo .intt w) = mulFinish fuel (s.moveTo .scale (inttWork w)) := by
  rw [mulFinish_succ, if_neg (by simp [mulMove])]; rfl

theorem mulFinish_pmul (fuel : Nat) (s : State) (w : Work) :
    mulFinish (fuel + 1) (s.moveTo .pmul w) = mulFinish fuel (s.moveTo .intt (pmulWork w)) := by
  rw [mulFinish_succ, if_neg (by simp [mulMove])]; rfl

theorem mulFinish_fntt (fuel : Nat) (s : State) (w : Work) :
    mulFinish (fuel + 1) (s.moveTo .fntt w) = mulFinish fuel (s.moveTo .pmul (fnttWork w)) := by
  rw [mulFinish_succ, if_neg (by simp [mulMove])]; rfl

theorem mulFinish_enc (fuel : Nat) (s : State) (w : Work) :
    mulFinish (fuel + 1) (s.moveTo .enc w) = mulFinish fuel (s.moveTo .fntt (encWork w)) := by
  rw [mulFinish_succ, if_neg (by simp [mulMove])]; rfl

/-- The working values of a whole NTT path, from those of SIGN. -/
def nttWork (w : Work) : Work :=
  decWork (scaleWork (inttWork (pmulWork (fnttWork (encWork w)))))

@[simp] theorem nttWork_trivial (w : Work) : (nttWork w).trivial = w.trivial := by simp [nttWork]
@[simp] theorem nttWork_klog (w : Work) : (nttWork w).klog = w.klog := by simp [nttWork]
@[simp] theorem nttWork_signC (w : Work) : (nttWork w).signC = w.signC := by simp [nttWork]
@[simp] theorem nttWork_dA (w : Work) : (nttWork w).dA = w.dA := by simp [nttWork]
@[simp] theorem nttWork_dB (w : Work) : (nttWork w).dB = w.dB := by simp [nttWork]

/-- MUL from SIGN, whole: the trivial path, the NTT path, or E_CAP (43_orchestrator.md R218). -/
theorem mulFinish_sign {s : State} (h : s.phase = .sign) :
    mulFinish 8 s =
      if (signWork s).trivial then
        leaveFin (trivWork (signWork s)) (s.moveTo .fin (trivWork (signWork s)))
      else if (signWork s).klog ≤ s.cfg.lkmax then
        leaveFin (nttWork (signWork s)) (s.moveTo .fin (nttWork (signWork s)))
      else raiseErr .cap (s.setDigits (signWork s).dA (signWork s).dB) := by
  have hm : mulMove s = leaveSign (signWork s) s := by simp [mulMove, h]
  rw [mulFinish_succ, hm, leaveSign]
  split
  · rw [if_neg (by simp)]; exact mulFinish_triv 5 s (signWork s)
  · split
    · rw [if_neg (by simp), mulFinish_enc, mulFinish_fntt, mulFinish_pmul, mulFinish_intt,
        mulFinish_scale, mulFinish_dec]
      rfl
    · rw [if_pos (by simp)]

end Sys2Proof.Machine
end

