-- ==== Sys2Proof/Laws/Bus.lean ====
section
/-! SUPPORT. What one host access, one sequencer turn and one step can do when they answer a next
state: one inversion lemma each, which every invariant is derived from. -/

namespace Sys2Proof.Machine

/-- A host read leaves everything but the response as it was (20_memory.md R81). -/
theorem hostRead_next {w : Width} {a : Word} {s t : State} (h : hostRead w a s = .next t) :
    s.rstN = true ∧ ∃ r, t = s.respond r := by
  unfold hostRead at h
  split at h
  · simp at h
  · rename_i hr
    refine ⟨by simpa using hr, ?_⟩
    repeat' split at h
    all_goals simp at h
    all_goals exact ⟨_, h.symm⟩

/-- A host write is refused with no effect, or has the effect of its target (20_memory.md R74). -/
theorem hostWrite_next {w : Width} {a v : Word} {s t : State} (h : hostWrite w a v s = .next t) :
    s.rstN = true ∧
      ((writeRefused s.busy (accessTarget s.cfg w a) = true ∧ t = s.respond .error) ∨
       (writeRefused s.busy (accessTarget s.cfg w a) = false ∧
          t = (writeTarget s v (accessTarget s.cfg w a)).respond .ok)) := by
  unfold hostWrite at h
  split at h
  · simp at h
  · rename_i hr
    refine ⟨by simpa using hr, ?_⟩
    split at h
    · simp only [Host.Outcome.next.injEq] at h
      exact .inl ⟨by assumption, h.symm⟩
    · simp only [Host.Outcome.next.injEq] at h
      exact .inr ⟨Bool.eq_false_iff.2 (by assumption), h.symm⟩

/-- The command in flight, run to its end: a command's meaning, or E_ILLEGAL. -/
theorem runCommand_next {s t : State} (h : runCommand s = .next t) :
    (∃ i, decode s.cmd = some i ∧ exec i s = .next t) ∨
      (decode s.cmd = none ∧ t = raiseErr .illegal s) := by
  unfold runCommand at h
  split at h
  · exact .inl ⟨_, by assumption, h⟩
  · simp only [Host.Outcome.next.injEq] at h
    exact .inr ⟨by assumption, h.symm⟩

/-- Everything one step can do (43_orchestrator.md R210, R212; log entries 2 and 3). -/
theorem step_next {s t : State} (h : step s = .next t) :
    (s.inputs = [] ∧ s.running = true ∧ runCommand s = .next t) ∨
    (s.inputs = [] ∧ s.running = false ∧ t = s) ∨
    (∃ w a rest, s.inputs = .read w a :: rest ∧ hostRead w a (s.withInputs rest) = .next t) ∨
    (∃ w a v rest, s.inputs = .write w a v :: rest ∧
      hostWrite w a v (s.withInputs rest) = .next t) ∨
    (∃ rest, s.inputs = .seq :: rest ∧ s.running = true ∧
      moveCommand (s.withInputs rest) = .next t) ∨
    (∃ rest, s.inputs = .seq :: rest ∧ s.running = false ∧ t = s.withInputs rest) ∨
    (∃ level rest, s.inputs = .rstn level :: rest ∧
      t = driveReset level (s.withInputs rest)) := by
  unfold step at h
  split at h
  · rename_i hin
    unfold seqFinish at h
    split at h
    · exact .inl ⟨hin, by assumption, h⟩
    · simp only [Host.Outcome.next.injEq] at h
      exact .inr (.inl ⟨hin, Bool.eq_false_iff.2 (by assumption), h.symm⟩)
  · rename_i w a rest hin; exact .inr (.inr (.inl ⟨w, a, rest, hin, h⟩))
  · rename_i w a v rest hin; exact .inr (.inr (.inr (.inl ⟨w, a, v, rest, hin, h⟩)))
  · rename_i rest hin
    unfold seqMove at h
    split at h
    · rename_i hr; exact .inr (.inr (.inr (.inr (.inl ⟨rest, hin, hr, h⟩))))
    · rename_i hr
      simp only [Host.Outcome.next.injEq] at h
      exact .inr (.inr (.inr (.inr (.inr (.inl ⟨rest, hin, Bool.eq_false_iff.2 hr, h.symm⟩)))))
  · rename_i level rest hin
    simp only [Host.Outcome.next.injEq] at h
    exact .inr (.inr (.inr (.inr (.inr (.inr ⟨level, rest, hin, h.symm⟩)))))

/-! ### Pending inputs do not matter to an access -/

@[simp] theorem withInputs_withInputs (s : State) (r r' : List Input) :
    (s.withInputs r).withInputs r' = s.withInputs r' := rfl

@[simp] theorem withInputs_respond (s : State) (r : List Input) (x : Resp) :
    (s.withInputs r).respond x = (s.respond x).withInputs r := rfl

@[simp] theorem withInputs_busy (s : State) (r : List Input) : (s.withInputs r).busy = s.busy := rfl

@[simp] theorem withInputs_running (s : State) (r : List Input) :
    (s.withInputs r).running = s.running := rfl

theorem targetWord_withInputs (s : State) (r : List Input) (tg : Target) :
    targetWord (s.withInputs r) tg = targetWord s tg := by cases tg <;> rfl

theorem writeTarget_withInputs (s : State) (r : List Input) (v : Word) (tg : Target) :
    writeTarget (s.withInputs r) v tg = (writeTarget s v tg).withInputs r := by
  cases tg
  case ctrl =>
    change writeCtrl v (s.withInputs r) = (writeCtrl v s).withInputs r
    unfold writeCtrl
    split <;> rfl
  all_goals rfl

/-- A read that is not refused answers the word of its target. -/
theorem answers_read {s : State} {w : Width} {a v : Word} (hr : s.rstN = true)
    (hn : readRefused s.busy (accessTarget s.cfg w a) = false)
    (hv : targetWord s (accessTarget s.cfg w a) = some v) :
    Answers s (.read w a) (s.respond (.data v)) := by
  intro rest
  change hostRead w a (s.withInputs rest) = _
  unfold hostRead
  rw [if_neg (by simp [hr]), if_neg (by simp [hn]), withInputs_cfg, targetWord_withInputs, hv]
  rfl

/-- A refused read answers a bus error. -/
theorem answers_read_refused {s : State} {w : Width} {a : Word} (hr : s.rstN = true)
    (hn : readRefused s.busy (accessTarget s.cfg w a) = true) :
    Answers s (.read w a) (s.respond .error) := by
  intro rest
  change hostRead w a (s.withInputs rest) = _
  unfold hostRead
  rw [if_neg (by simp [hr]), if_pos (by simp [hn])]
  rfl

/-- A write that is not refused has the effect of its target and answers OK. -/
theorem answers_write {s : State} {w : Width} {a v : Word} (hr : s.rstN = true)
    (hn : writeRefused s.busy (accessTarget s.cfg w a) = false) :
    Answers s (.write w a v) ((writeTarget s v (accessTarget s.cfg w a)).respond .ok) := by
  intro rest
  change hostWrite w a v (s.withInputs rest) = _
  unfold hostWrite
  rw [if_neg (by simp [hr]), if_neg (by simp [hn]), withInputs_cfg, writeTarget_withInputs]
  rfl

/-- A refused write answers a bus error. -/
theorem answers_write_refused {s : State} {w : Width} {a v : Word} (hr : s.rstN = true)
    (hn : writeRefused s.busy (accessTarget s.cfg w a) = true) :
    Answers s (.write w a v) (s.respond .error) := by
  intro rest
  change hostWrite w a v (s.withInputs rest) = _
  unfold hostWrite
  rw [if_neg (by simp [hr]), if_pos (by simp [hn])]
  rfl

/-- `go` then `wait` on an idle engine: the command is accepted and runs to its end
(30_encoding.md R112). -/
theorem goWait_idle {s : State} {i : Instr} (hr : s.rstN = true) (hp : s.phase = .idle) :
    goWait i s = runCommand (((accept (encode i) s).respond .ok).withInputs []) := by
  have ht : accessTarget s.cfg .w32 0x014 = .cmd := rfl
  have hn : writeRefused s.busy (accessTarget s.cfg .w32 0x014) = false := by
    rw [ht]; simp [writeRefused, State.busy, hp, Target.isData]
  unfold goWait goInput
  rw [answers_write hr hn [], ht]
  change seqFinish (((accept (encode i) s).respond .ok).withInputs []) = _
  unfold seqFinish
  rw [if_pos]
  have hphase : (accept (encode i) s).phase ≠ .idle := by simp only [accept]; split <;> simp
  simpa [State.running, State.busy, State.respond, State.withInputs, accept, hr] using hphase

/-- `go` then `wait` on a busy engine: the write is refused (10_state.md R34) and the command in flight
runs to its end. -/
theorem goWait_busy {s : State} {i : Instr} (hr : s.rstN = true) (hp : s.phase ≠ .idle) :
    goWait i s = step ((s.respond .error).withInputs []) := by
  have hn : writeRefused s.busy (accessTarget s.cfg .w32 0x014) = true := by
    have ht : accessTarget s.cfg .w32 0x014 = .cmd := rfl
    rw [ht]; simp [writeRefused, State.busy, hp]
  unfold goWait goInput
  rw [answers_write_refused hr hn []]

/-- What a step leaves is one state up to the inputs still pending. -/
theorem Answers.unique {s t u : State} {inp : Input} (h : Answers s inp t) (h' : Answers s inp u) :
    t.withInputs [] = u.withInputs [] := by
  have := (h []).symm.trans (h' [])
  simpa using this

/-- An aligned 32-bit access at an address given as a number. -/
theorem accessTarget_ofNat (c : Config) {n : Nat} (h : n < 2 ^ 32) (h4 : n % 4 = 0) :
    accessTarget c .w32 (BitVec.ofNat 32 n) = target c n := by
  have : (BitVec.ofNat 32 n).toNat = n := by
    rw [BitVec.toNat_ofNat]; exact Nat.mod_eq_of_lt h
  unfold accessTarget
  rw [this, if_pos ⟨rfl, h4⟩]

/-- A bank target lies inside the bank window (20_memory.md R73). -/
theorem accessTarget_bank {c : Config} {w : Width} {a : Word} {b i j : Nat}
    (h : accessTarget c w a = .bank b i j) : b ≤ 5 ∧ i < c.kmax ∧ j < ewwOf c := by
  unfold accessTarget at h
  split at h
  · unfold target at h
    have ct : ∀ n, controlTarget n ≠ .bank b i j := by intro n; unfold controlTarget; split <;> simp
    have wt : ∀ (mk : Nat → Target) base n x, (∀ j', mk j' ≠ .bank b i j) →
        windowTarget mk base n x ≠ .bank b i j := by
      intro mk base n x hm
      unfold windowTarget
      split
      · exact hm _
      · simp
    repeat' split at h
    · exact absurd h (ct _)
    all_goals first | exact absurd h (wt _ _ _ _ (by simp)) | (simp at h) | skip
    unfold bankTarget at h
    split at h
    · simp only [Target.bank.injEq] at h
      obtain ⟨rfl, rfl, rfl⟩ := h
      assumption
    · simp at h
  · simp at h

end Sys2Proof.Machine
end

