-- ==== Sys2Proof/Laws/MemInv.lean ====
section
/-! SUPPORT. The bank memory's invariant is kept by the two ways a bank is written: a host write of a
word and a command's write of a vector. -/

namespace Sys2Proof.Machine

theorem bankAddr_mod (c : Config) (b i j : Nat) : bankAddr c b i j % 4 = 0 := by
  have e : i * (4 * estrOf c) = 4 * (i * estrOf c) := by ring
  simp only [bankAddr, e]
  omega

theorem word_start (c : Config) (b i j : Nat) {k : Nat} (hk : k < 4) :
    (bankAddr c b i j + k) - (bankAddr c b i j + k) % 4 = bankAddr c b i j := by
  have := bankAddr_mod c b i j
  omega

theorem elemWord_idem (c : Config) (j : Nat) (w : Word) :
    elemWord c j (elemWord c j w) = elemWord c j w := by
  apply BitVec.eq_of_toNat_eq
  simp only [elemWord, BitVec.toNat_ofNat]
  have hw := w.isLt
  have h1 : w.toNat % 2 ^ (ewOf c - 32 * j) < 2 ^ 32 := lt_of_le_of_lt (Nat.mod_le _ _) hw
  rw [Nat.mod_eq_of_lt h1, Nat.mod_mod, Nat.mod_eq_of_lt h1]

/-- The words of an element that fits EW have no reserved bit set (10_state.md R47). -/
theorem elemWord_wordOf {c : Config} {v j : Nat} (hv : v < 2 ^ ewOf c) (hj : j < ewwOf c) :
    elemWord c j (wordOf v j) = wordOf v j := by
  have htop := top_word_used c
  have hlt : v / 2 ^ (32 * j) < 2 ^ (ewOf c - 32 * j) := by
    rw [Nat.div_lt_iff_lt_mul (Nat.pow_pos (by decide)), ← Nat.pow_add,
      show ewOf c - 32 * j + 32 * j = ewOf c by omega]
    exact hv
  have h2 : v / 2 ^ (32 * j) % 2 ^ 32 < 2 ^ (ewOf c - 32 * j) :=
    lt_of_le_of_lt (Nat.mod_le _ _) hlt
  apply BitVec.eq_of_toNat_eq
  simp only [elemWord, wordOf, BitVec.toNat_ofNat]
  rw [Nat.mod_eq_of_lt h2, Nat.mod_mod]

/-- A merge of cells that come in whole mapped words, each without reserved bits, keeps the invariant
of the bank memory. -/
theorem memInv_mergeCells {c : Config} {m : Memory} {xs : List Host.Cell} (hm : MemInv c m)
    (hx : Rising xs) (hmap : ∀ z ∈ xs, MappedByte c z.1)
    (hwhole : ∀ b i j, b ≤ 5 → i < c.kmax → j < ewwOf c →
      (∀ k < 4, readByte xs (bankAddr c b i j + k) = none) ∨
      ∃ w, elemWord c j w = w ∧
        ∀ k < 4, readByte xs (bankAddr c b i j + k) = some (byteOf w k)) :
    MemInv c (mergeCells xs m) := by
  have hmap' : ∀ z ∈ mergeCells xs m, MappedByte c z.1 := fun z hz =>
    (mem_mergeCells hz).elim (hmap z) (hm.mapped z)
  refine ⟨wf_mergeCells ((wf_iff_rising _).2 hx) hm.sorted, hmap', ?_, ?_⟩
  · intro z hz
    obtain ⟨b, i, j, k, hb, hi, hj, hk, he⟩ := hmap' z hz
    rw [he, word_start c b i j hk, readWord_isSome_iff]
    intro k' hk'
    rw [readByte_mergeCells hx]
    rcases hwhole b i j hb hi hj with hn | ⟨w, -, hw⟩
    · have hz' : z ∈ m := by
        rcases mem_mergeCells hz with h | h
        · have := (readByte_isSome_iff (m := xs) (a := z.1)).2 ⟨z, h, rfl⟩
          rw [he, hn k hk] at this
          simp at this
        · exact h
      have := hm.whole z hz'
      rw [he, word_start c b i j hk, readWord_isSome_iff] at this
      rw [hn k' hk']
      exact this k' hk'
    · rw [hw k' hk']; rfl
  · intro b i j w hb hi hj hw
    rcases hwhole b i j hb hi hj with hn | ⟨w', hw', hw''⟩
    · apply hm.reserved b i j w hb hi hj
      rw [← hw]
      apply readWord_congr
      intro k hk
      rw [readByte_mergeCells hx, hn k hk]; rfl
    · have : readWord (mergeCells xs m) (bankAddr c b i j) = some w' := by
        apply readWord_of_bytes
        intro k hk
        rw [readByte_mergeCells hx, hw'' k hk]; rfl
      rw [this] at hw
      simp only [Option.some.injEq] at hw
      exact hw ▸ hw'

/-- A command's write of a vector keeps the invariant of the bank memory. -/
theorem memInv_writeBank {c : Config} {m : Memory} {b : Nat} {vs : List Nat} (hm : MemInv c m)
    (hb : b ≤ 5) (hl : vs.length ≤ c.kmax) : MemInv c (writeBank c b vs m) := by
  apply memInv_mergeCells hm (rising_bankCells c b 0 vs)
  · intro z hz
    obtain ⟨i, j, k, -, h2, h3, h4, h5⟩ := bankCells_place hz
    exact ⟨b, i, j, k, hb, by omega, h3, h4, h5⟩
  · intro b' i j _ hi hj
    by_cases hin : b' = b ∧ i < vs.length
    · obtain ⟨rfl, hlt⟩ := hin
      refine .inr ⟨wordOf (vs[i] % 2 ^ ewOf c) j,
        elemWord_wordOf (Nat.mod_lt _ (Nat.pow_pos (by decide))) hj, ?_⟩
      intro k hk
      have := readByte_bankCells (c := c) (b := b') (i := 0) (List.getElem?_eq_getElem hlt) hj hk
      rwa [Nat.zero_add] at this
    · left
      intro k hk
      rw [readByte_eq_none_iff]
      intro z hz he
      obtain ⟨i', j', k', -, h2, h3, h4, h5⟩ := bankCells_place hz
      obtain ⟨hb', hi', -⟩ := bankAddr_inj hi (show i' < c.kmax by omega) hj h3 hk h4
        (he.symm.trans h5)
      exact hin ⟨hb', by omega⟩

/-- A host write of a bank word keeps the invariant of the bank memory. -/
theorem memInv_writeWord {c : Config} {m : Memory} {b i j : Nat} (w : Word) (hm : MemInv c m)
    (hb : b ≤ 5) (hi : i < c.kmax) (hj : j < ewwOf c) :
    MemInv c (writeWord m (bankAddr c b i j) (elemWord c j w)) := by
  apply memInv_mergeCells hm (rising_wordCells _ _)
  · intro z hz
    simp only [wordCells, List.mem_cons, List.not_mem_nil, or_false] at hz
    rcases hz with h | h | h | h <;> subst h
    · exact ⟨b, i, j, 0, hb, hi, hj, by decide, rfl⟩
    · exact ⟨b, i, j, 1, hb, hi, hj, by decide, rfl⟩
    · exact ⟨b, i, j, 2, hb, hi, hj, by decide, rfl⟩
    · exact ⟨b, i, j, 3, hb, hi, hj, by decide, rfl⟩
  · intro b' i' j' _ hi' hj'
    by_cases hin : b' = b ∧ i' = i ∧ j' = j
    · obtain ⟨rfl, rfl, rfl⟩ := hin
      exact .inr ⟨_, elemWord_idem c j' w, fun k hk => readByte_wordCells _ _ k hk⟩
    · left
      intro k hk
      apply readByte_wordCells_none
      intro k' hk' he
      obtain ⟨h1, h2, h3, -⟩ := bankAddr_inj hi' hi hj' hj hk hk' he
      exact hin ⟨h1, h2, h3⟩

theorem memInv_empty (c : Config) : MemInv c [] :=
  ⟨rfl, by simp, by simp, by intro b i j w _ _ _ h; simp [readWord, readByte] at h⟩

end Sys2Proof.Machine
end

