-- ==== Sys2Proof/Laws/PerInstr.lean ====
section
/-! SUPPORT. Facts about every command as syntax, one lemma per constructor: its word has the fixed
bits of its table row and zeros in the reserved bits (30_encoding.md R106, R107). -/

namespace Sys2Proof.Laws

/-- 30_encoding.md R107, R106 (2): the command's word matches its row under the row's mask, and its
reserved bits are 0. -/
def FixedBits.Statement (i : Instr) : Prop :=
  encode i &&& i.matchMask.2 = i.matchMask.1 ∧ reservedZero (encode i) = true

theorem FixedBits.nop : FixedBits.Statement .nop := by
  unfold FixedBits.Statement
  decide +kernel

theorem FixedBits.mul : FixedBits.Statement .mul := by
  unfold FixedBits.Statement
  decide +kernel

theorem FixedBits.enca (rd : Bank) : FixedBits.Statement (.enca rd) := by
  revert rd
  unfold FixedBits.Statement
  decide +kernel

theorem FixedBits.encb (rd : Bank) : FixedBits.Statement (.encb rd) := by
  revert rd
  unfold FixedBits.Statement
  decide +kernel

theorem FixedBits.dec (rs1 : Bank) : FixedBits.Statement (.dec rs1) := by
  revert rs1
  unfold FixedBits.Statement
  decide +kernel

theorem FixedBits.nttf (rd rs1 : Bank) : FixedBits.Statement (.nttf rd rs1) := by
  revert rd rs1
  unfold FixedBits.Statement
  decide +kernel

theorem FixedBits.ntti (rd rs1 : Bank) : FixedBits.Statement (.ntti rd rs1) := by
  revert rd rs1
  unfold FixedBits.Statement
  decide +kernel

theorem FixedBits.nttw (rd rs1 : Bank) : FixedBits.Statement (.nttw rd rs1) := by
  revert rd rs1
  unfold FixedBits.Statement
  decide +kernel

theorem FixedBits.scal (rd rs1 : Bank) : FixedBits.Statement (.scal rd rs1) := by
  revert rd rs1
  unfold FixedBits.Statement
  decide +kernel

theorem FixedBits.padd (rd rs1 rs2 : Bank) : FixedBits.Statement (.padd rd rs1 rs2) := by
  revert rd rs1 rs2
  unfold FixedBits.Statement
  decide +kernel

theorem FixedBits.psub (rd rs1 rs2 : Bank) : FixedBits.Statement (.psub rd rs1 rs2) := by
  revert rd rs1 rs2
  unfold FixedBits.Statement
  decide +kernel

theorem FixedBits.pmul (rd rs1 rs2 : Bank) : FixedBits.Statement (.pmul rd rs1 rs2) := by
  revert rd rs1 rs2
  unfold FixedBits.Statement
  decide +kernel

theorem FixedBits.madd : FixedBits.Statement .madd := by
  unfold FixedBits.Statement
  decide +kernel

theorem FixedBits.msub : FixedBits.Statement .msub := by
  unfold FixedBits.Statement
  decide +kernel

theorem FixedBits.mmul : FixedBits.Statement .mmul := by
  unfold FixedBits.Statement
  decide +kernel

theorem FixedBits.minv : FixedBits.Statement .minv := by
  unfold FixedBits.Statement
  decide +kernel

end Sys2Proof.Laws
end

