-- ==== Sys2Proof/Laws/Words.lean ====
section
/-! SUPPORT. The words of a multi-word quantity (00_scope.md R14): reading a word after replacing one,
and the words of a truncated quantity. -/

namespace Sys2Proof.Machine

theorem wordOf_getLsbD (v k i : Nat) :
    (wordOf v k).getLsbD i = (decide (i < 32) && v.testBit (32 * k + i)) := by
  simp [wordOf, BitVec.getLsbD_ofNat, Nat.testBit_div_two_pow, Nat.add_comm]

/-- Bit by bit: replacing word j replaces bits 32j .. 32j+31 and no other. -/
theorem putWord_testBit (v j : Nat) (w : Word) (i : Nat) :
    (putWord v j w).testBit i =
      if i < 32 * j then v.testBit i
      else if i < 32 * (j + 1) then w.getLsbD (i - 32 * j) else v.testBit i := by
  have hw := w.isLt
  have hpos : 0 < 2 ^ (32 * j) := Nat.pow_pos (by decide)
  have e : 2 ^ (32 * (j + 1)) = 2 ^ 32 * 2 ^ (32 * j) := by
    rw [← Nat.pow_add, Nat.mul_succ, Nat.add_comm]
  have hlow : v % 2 ^ (32 * j) + w.toNat * 2 ^ (32 * j) < 2 ^ (32 * (j + 1)) := by
    have h1 := Nat.mod_lt v hpos
    have h2 : (w.toNat + 1) * 2 ^ (32 * j) ≤ 2 ^ 32 * 2 ^ (32 * j) := Nat.mul_le_mul_right _ hw
    rw [Nat.succ_mul] at h2
    omega
  have hsplit : putWord v j w =
      2 ^ (32 * (j + 1)) * (v / 2 ^ (32 * (j + 1))) +
        (2 ^ (32 * j) * w.toNat + v % 2 ^ (32 * j)) := by
    unfold putWord; ring
  rw [hsplit, Nat.testBit_two_pow_mul_add _ (by rw [Nat.mul_comm, Nat.add_comm]; exact hlow),
    Nat.testBit_two_pow_mul_add _ (Nat.mod_lt _ hpos)]
  have e1 : (v % 2 ^ (32 * j)).testBit i = (decide (i < 32 * j) && v.testBit i) :=
    Nat.testBit_mod_two_pow ..
  have e2 : (v / 2 ^ (32 * (j + 1))).testBit (i - 32 * (j + 1)) =
      v.testBit (i - 32 * (j + 1) + 32 * (j + 1)) := Nat.testBit_div_two_pow ..
  rw [e1, e2]
  by_cases a : i < 32 * j
  · simp only [a, show i < 32 * (j + 1) by omega, if_true, decide_true, Bool.true_and]
  · by_cases b : i < 32 * (j + 1)
    · simp only [a, b, if_true, if_false]
      rfl
    · simp only [a, b, if_false]
      rw [show i - 32 * (j + 1) + 32 * (j + 1) = i by omega]

theorem wordOf_putWord_same (v j : Nat) (w : Word) : wordOf (putWord v j w) j = w := by
  refine BitVec.eq_of_getLsbD_eq fun i hi => ?_
  rw [wordOf_getLsbD, putWord_testBit, if_neg (by omega), if_pos (by omega),
    Nat.add_sub_cancel_left]
  simp [hi]

theorem wordOf_putWord_other {v j k : Nat} (w : Word) (h : k ≠ j) :
    wordOf (putWord v j w) k = wordOf v k := by
  refine BitVec.eq_of_getLsbD_eq fun i hi => ?_
  rw [wordOf_getLsbD, wordOf_getLsbD, putWord_testBit]
  by_cases a : 32 * k + i < 32 * j
  · rw [if_pos a]
  · rw [if_neg a, if_neg (by omega)]

/-- A truncated quantity: its word k keeps the bits below the width. -/
theorem wordOf_mod (v k n : Nat) :
    wordOf (v % 2 ^ n) k = BitVec.ofNat 32 ((wordOf v k).toNat % 2 ^ (n - 32 * k)) := by
  refine BitVec.eq_of_getLsbD_eq fun i hi => ?_
  have hb : (wordOf v k).toNat.testBit i = v.testBit (32 * k + i) := by
    have := wordOf_getLsbD v k i
    rw [decide_eq_true hi, Bool.true_and] at this
    exact this
  rw [wordOf_getLsbD, Nat.testBit_mod_two_pow, BitVec.getLsbD_ofNat, Nat.testBit_mod_two_pow, hb]
  by_cases a : i < n - 32 * k
  · simp [a, show 32 * k + i < n by omega]
  · simp [a, show ¬ 32 * k + i < n by omega]

theorem wordOf_mod_low {v k n : Nat} (h : 32 * (k + 1) ≤ n) : wordOf (v % 2 ^ n) k = wordOf v k := by
  have hw := (wordOf v k).isLt
  have hle : 2 ^ 32 ≤ 2 ^ (n - 32 * k) := Nat.pow_le_pow_right (by decide) (by omega)
  rw [wordOf_mod, Nat.mod_eq_of_lt (by omega), BitVec.ofNat_toNat, BitVec.setWidth_eq]

end Sys2Proof.Machine
end

