-- ==== Sys2Proof/Tests/Slice0.lean ====
section
/-! SUPPORT. The model's own tests. Expected values are those of 95_test_vectors.md (the vector is named
at each test) or of the encodings of 30_encoding.md R101; none is the model's own answer. The witnesses
at the end show that the hypotheses of each statement can be met. -/

/- One kernel evaluation at a time: side by side they would need a thread and a stack each. -/
set_option Elab.async false

namespace Sys2Proof.Tests

open Sys2Proof.Machine

/-! ### Small states and what is looked at -/

/-- Whether an outcome is a next state of which a check holds. -/
def nextIs (o : Host.Outcome State Fault Refusal) (f : State → Bool) : Bool :=
  match o with
  | .next t => f t
  | .fault _ => false
  | .refused _ => false

theorem exists_of_nextIs {o : Host.Outcome State Fault Refusal} {f : State → Bool}
    (h : nextIs o f = true) : ∃ t, o = .next t ∧ f t = true := by
  cases o with
  | next t => exact ⟨t, rfl, h⟩
  | fault _ => simp [nextIs] at h
  | refused _ => simp [nextIs] at h

/-- RX, RY and the length set, the rest at reset. -/
def scalar (n : Nat) (x y : Nat) : State :=
  { State.reset with klog2 := BitVec.ofNat 5 n, rx := x, ry := y }

/-- Banks A and B written and the length set, the rest at reset. -/
def banks (n : Nat) (xs ys : List Nat) : State :=
  { State.reset with
    klog2 := BitVec.ofNat 5 n
    mem := writeBank Config.default 1 ys (writeBank Config.default 0 xs []) }

/-- The operands of a MUL set, the rest at reset. -/
def operands (na : Bool) (a : Nat) (nb : Bool) (b : Nat) : State :=
  { State.reset with aneg := na, opa := a, bneg := nb, opb := b }

/-- The command word in flight, then one step. -/
def run (s : State) (w : Nat) : Host.Outcome State Fault Refusal := step (s.withFetchWord 32 w)

/-- Elements 0.. of a bank are these. -/
def bankIs (t : State) (b : Bank) (xs : List Nat) : Bool :=
  (List.range xs.length).map (fun i => readElem t.cfg t.mem b.toNat i) == xs.map some

/-! ### WellFormed: each bank field of each class refuses the numbers above 5 (R103) -/

theorem smoke_d : Instr.wf (.enca 6) = false ∧ Instr.wf (.encb 7) = false := by decide
theorem smoke_s : Instr.wf (.dec 6) = false := by decide
theorem smoke_ds_rd : Instr.wf (.nttf 6 0) = false ∧ Instr.wf (.ntti 7 0) = false ∧
    Instr.wf (.nttw 6 0) = false ∧ Instr.wf (.scal 7 0) = false := by decide
theorem smoke_ds_rs1 : Instr.wf (.nttf 0 6) = false ∧ Instr.wf (.ntti 0 7) = false ∧
    Instr.wf (.nttw 0 6) = false ∧ Instr.wf (.scal 0 7) = false := by decide
theorem smoke_dss_rd : Instr.wf (.padd 6 0 0) = false ∧ Instr.wf (.psub 7 0 0) = false ∧
    Instr.wf (.pmul 6 0 0) = false := by decide
theorem smoke_dss_rs1 : Instr.wf (.padd 0 6 0) = false ∧ Instr.wf (.psub 0 7 0) = false ∧
    Instr.wf (.pmul 0 6 0) = false := by decide
theorem smoke_dss_rs2 : Instr.wf (.padd 0 0 6) = false ∧ Instr.wf (.psub 0 0 7) = false ∧
    Instr.wf (.pmul 0 0 6) = false := by decide
theorem smoke_legal : Instr.wf (.padd 5 5 5) = true ∧ Instr.wf .nop = true := by decide

/-! ### Decode: one word per command, written field by field (R101: reserved 13, RS2 3, 0, RS1 3, 0,
RD 3, OPC 8) -/

theorem decode_nop : decode 0b0000000000000_000_0_000_0_000_00000000 = some .nop := by
  decide +kernel
theorem decode_mul : decode 0b0000000000000_000_0_000_0_000_00000001 = some .mul := by
  decide +kernel
theorem decode_enca : decode 0b0000000000000_000_0_000_0_101_00010000 = some (.enca Bank.C) := by
  decide +kernel
theorem decode_encb : decode 0b0000000000000_000_0_000_0_001_00010001 = some (.encb Bank.B) := by
  decide +kernel
theorem decode_dec : decode 0b0000000000000_000_0_101_0_000_00010010 = some (.dec Bank.C) := by
  decide +kernel
theorem decode_nttf :
    decode 0b0000000000000_000_0_001_0_010_00100000 = some (.nttf Bank.FA Bank.B) := by
  decide +kernel
theorem decode_ntti :
    decode 0b0000000000000_000_0_100_0_101_00100001 = some (.ntti Bank.C Bank.FC) := by
  decide +kernel
theorem decode_nttw :
    decode 0b0000000000000_000_0_011_0_100_00100010 = some (.nttw Bank.FC Bank.FB) := by
  decide +kernel
theorem decode_scal :
    decode 0b0000000000000_000_0_101_0_001_00100011 = some (.scal Bank.B Bank.C) := by
  decide +kernel
theorem decode_padd :
    decode 0b0000000000000_011_0_010_0_100_00110000 = some (.padd Bank.FC Bank.FA Bank.FB) := by
  decide +kernel
theorem decode_psub :
    decode 0b0000000000000_001_0_000_0_101_00110001 = some (.psub Bank.C Bank.A Bank.B) := by
  decide +kernel
theorem decode_pmul :
    decode 0b0000000000000_101_0_100_0_011_00110010 = some (.pmul Bank.FB Bank.FC Bank.C) := by
  decide +kernel
theorem decode_madd : decode 0b0000000000000_000_0_000_0_000_01000000 = some .madd := by
  decide +kernel
theorem decode_msub : decode 0b0000000000000_000_0_000_0_000_01000001 = some .msub := by
  decide +kernel
theorem decode_mmul : decode 0b0000000000000_000_0_000_0_000_01000010 = some .mmul := by
  decide +kernel
theorem decode_minv : decode 0b0000000000000_000_0_000_0_000_01000011 = some .minv := by
  decide +kernel

/-- Undefined OPC, each reserved field, an unused field, a bank above 5 (R106). -/
theorem decode_refuses :
    decode 0b0000000000000_000_0_000_0_000_01000100 = none ∧
    decode 0b1000000000000_000_0_000_0_000_00000000 = none ∧
    decode 0b0000000000001_000_0_000_0_000_00000001 = none ∧
    decode 0b0000000000000_000_1_000_0_000_01000000 = none ∧
    decode 0b0000000000000_000_0_000_1_000_00010000 = none ∧
    decode 0b0000000000000_001_0_000_0_000_00100000 = none ∧
    decode 0b0000000000000_000_0_001_0_000_00010000 = none ∧
    decode 0b0000000000000_000_0_000_0_001_00010010 = none ∧
    decode 0b0000000000000_110_0_000_0_000_00110000 = none ∧
    decode 0b0000000000000_000_0_111_0_000_00100011 = none ∧
    decode 0b0000000000000_000_0_000_0_110_00010001 = none := by
  decide +kernel

/-! ### Commands -/

/-- R217: `go NOP; wait` leaves STATUS = 0x0000_0002. -/
theorem test_nop : nextIs (run State.reset 0x00000000)
    (fun t => t.statusWord == 0x00000002) = true := by decide +kernel

/-- VM2: -7 times 6 on the trivial path. -/
theorem test_mul_trivial : nextIs (run (operands true 7 false 6) 0x00000001)
    (fun t => t.res == 42 && t.resNeg && t.statusWord == 0x00000012 &&
      t.digitsWord == 0x00010001) = true := by decide +kernel

/-- VM17: the inexact product 2999 times 9997, K = 8. -/
theorem test_mul_ntt : nextIs (run (operands false 2999 false 9997) 0x00000001)
    (fun t => t.res == 29724003 && t.klog2 == 3 && t.digitsWord == 0x00040004 &&
      t.statusWord == 0x00000002) = true := by decide +kernel

/-- VC1. -/
theorem test_enca : nextIs (run { State.reset with klog2 := 3, opa := 1234 } 0x00000010)
    (fun t => bankIs t Bank.A [4, 3, 2, 1, 0, 0, 0, 0]) = true := by decide +kernel

/-- VC2: the high digits are dropped. -/
theorem test_encb : nextIs (run { State.reset with klog2 := 2, opb := 123456 } 0x00000111)
    (fun t => bankIs t Bank.B [6, 5, 4, 3]) = true := by decide +kernel

/-- VC10, with NEG set before (VC14). -/
theorem test_dec : nextIs
    (run { banks 3 [32, 52, 61, 60, 34, 16, 5, 0] [] with resNeg := true } 0x00000012)
    (fun t => t.res == 7006652 && !t.resNeg) = true := by decide +kernel

/-- VC13: E_RANGE at index 2. -/
theorem test_dec_range : nextIs (run (banks 3 [1, 2, 257, 0, 0, 0, 0, 0] []) 0x00000012)
    (fun t => t.statusWord == 0x00000304 && t.errinfoWord == 0x00010002 && t.res == 0) = true := by
  decide +kernel

/-- 95_test_vectors.md §2.3, K = 4. -/
theorem test_nttf : nextIs (run (banks 2 [1, 2, 3, 4] []) 0x00000220)
    (fun t => bankIs t Bank.FA [10, 7, 15, 6]) = true := by decide +kernel

/-- VT8: KLOG2 = 7 is E_ARG. -/
theorem test_nttf_arg : nextIs (run (banks 7 [1, 2, 3, 4] []) 0x00000220)
    (fun t => t.statusWord == 0x00000204) = true := by decide +kernel

/-- 95_test_vectors.md §2.3, K = 4, in place. -/
theorem test_ntti : nextIs (run (banks 2 [10, 7, 15, 6] []) 0x00000021)
    (fun t => bankIs t Bank.A [4, 8, 12, 16]) = true := by decide +kernel

/-- 95_test_vectors.md §2.4: RX = 2 follows the recursion, not the sum. -/
theorem test_nttw : nextIs (run { banks 2 [1, 2, 3, 4] [] with rx := 2 } 0x00000222)
    (fun t => bankIs t Bank.FA [10, 11, 15, 2]) = true := by decide +kernel

/-- 95_test_vectors.md §2.4: RX = 0, where pow(0, 0) is 1. -/
theorem test_nttw_zero : nextIs (run { banks 2 [1, 2, 3, 4] [] with rx := 0 } 0x00000222)
    (fun t => bankIs t Bank.FA [10, 15, 15, 15]) = true := by decide +kernel

/-- VT4. -/
theorem test_scal : nextIs (run (banks 2 [1, 1, 1, 1] []) 0x00000523)
    (fun t => bankIs t Bank.C [13, 13, 13, 13]) = true := by decide +kernel

/-- VP1. -/
theorem test_padd : nextIs (run (banks 2 [1, 16, 5, 0] [16, 16, 12, 0]) 0x00010530)
    (fun t => bankIs t Bank.C [0, 15, 0, 0]) = true := by decide +kernel

/-- VP9: RS1 is checked before RS2. -/
theorem test_padd_range : nextIs (run (banks 2 [1, 16, 5, 20] [16, 16, 17, 0]) 0x00010530)
    (fun t => t.errinfoWord == 0x00010003 && readElem t.cfg t.mem 5 0 == none) = true := by
  decide +kernel

/-- VP3: the sources swapped. -/
theorem test_psub : nextIs (run (banks 2 [1, 16, 5, 0] [16, 16, 12, 0]) 0x00001531)
    (fun t => bankIs t Bank.C [15, 0, 7, 0]) = true := by decide +kernel

/-- VP4. -/
theorem test_pmul : nextIs (run (banks 2 [1, 16, 5, 0] [16, 16, 12, 0]) 0x00010532)
    (fun t => bankIs t Bank.C [16, 1, 9, 0]) = true := by decide +kernel

/-- VS2: the largest sum. -/
theorem test_madd : nextIs (run (scalar 2 16 16) 0x00000040)
    (fun t => t.rz == 15 && t.statusWord == 0x00000002) = true := by decide +kernel

/-- VS16: RY out of range. -/
theorem test_madd_range : nextIs (run (scalar 2 16 17) 0x00000040)
    (fun t => t.errinfoWord == 0x00040000 && t.statusWord == 0x00000304) = true := by
  decide +kernel

/-- VS4: a wrap below zero. -/
theorem test_msub : nextIs (run (scalar 2 0 16) 0x00000041) (fun t => t.rz == 1) = true := by
  decide +kernel

/-- VS29: K = 64, (p - 1) squared. -/
theorem test_mmul : nextIs (run (scalar 6 (2 ^ 64) (2 ^ 64)) 0x00000042)
    (fun t => t.rz == 1) = true := by decide +kernel

/-- VS23. -/
theorem test_minv : nextIs (run (scalar 3 3 0) 0x00000043) (fun t => t.rz == 86) = true := by
  decide +kernel

/-- VS26: 641 divides p at K = 32. -/
theorem test_minv_noinv : nextIs (run (scalar 5 641 0) 0x00000043)
    (fun t => t.statusWord == 0x00000404 && t.rz == 0) = true := by decide +kernel

/-- P3 step 10: an illegal word is accepted and ends in E_ILLEGAL. -/
theorem test_illegal : nextIs (run State.reset 0x00000044)
    (fun t => t.statusWord == 0x00000104 && t.cmd == 0x00000044) = true := by decide +kernel

/-! ### Configurations and the bus -/

/-- 00_scope.md R12, the rows for KMAX = 64 and 4096. -/
theorem test_widths :
    (ewOf { lkOff := 0 } = 65 ∧ ewwOf { lkOff := 0 } = 3 ∧ estrOf { lkOff := 0 } = 4 ∧
      magwOf { lkOff := 0 } = 288 ∧ nwmOf { lkOff := 0 } = 9) ∧
    (ewOf { lkOff := 6 } = 4097 ∧ ewwOf { lkOff := 6 } = 129 ∧ estrOf { lkOff := 6 } = 256 ∧
      magwOf { lkOff := 6 } = 17728 ∧ nwmOf { lkOff := 6 } = 554) := by decide +kernel

/-- P6: the MUL is accepted, the operand write and the second command are refused while busy, and the
result is that of the first. -/
theorem test_busy_lock : nextIs
    (Host.Core.run Sys2Proof.core 5 ((operands false 1234 false 5678).withInputs
      [.write .w32 0x014 1, .seq, .write .w32 0x4000 1, .write .w32 0x014 0]))
    (fun t => t.res == 7006652 && t.opa == 1234 && t.cmd == 1 && t.resp == .error &&
      t.statusWord == 0x00000002) = true := by decide +kernel

/-- R73 and R47: word 2 of element 1 of bank 1 lies at 0x1100_0018 and keeps one bit; it reads back. -/
theorem test_bank_word : nextIs
    (Host.Core.run Sys2Proof.core 2 (State.reset.withInputs
      [.write .w32 0x11000018 0xFFFFFFFF, .read .w32 0x11000018]))
    (fun t => t.resp == .data 1) = true := by decide +kernel

/-! ### Witnesses: the hypotheses of the statements can be met -/

/-- Bool form of `RingSource`. -/
def sourceCheck (s : State) (b : Bank) (n : Nat) (xs : List Nat) : Bool :=
  xs.length == 2 ^ n && bankIs s b xs && xs.all fun x => decide (x < 2 ^ 2 ^ n + 1)

theorem ringSource_of_check {s : State} {b : Bank} {n : Nat} {xs : List Nat}
    (h : sourceCheck s b n xs = true) : RingSource s b n xs := by
  simp only [sourceCheck, bankIs, Bool.and_eq_true, beq_iff_eq, List.all_eq_true,
    decide_eq_true_eq] at h
  refine ⟨h.1.1, fun i v hi => ?_, h.2⟩
  obtain ⟨hl, hv⟩ := List.getElem?_eq_some_iff.1 hi
  have := congrArg (fun l => l[i]?) h.1.2
  simpa [hl, hv] using this

/-- Bool form of the elements before the one looked for. -/
def prefixCheck (s : State) (b : Bank) (n i : Nat) : Bool :=
  decide (i < 2 ^ n) && (List.range i).all fun j =>
    match readElem s.cfg s.mem b.toNat j with
    | some v => decide (v < 2 ^ 2 ^ n + 1)
    | none => false

theorem prefix_of_check {s : State} {b : Bank} {n i : Nat} (h : prefixCheck s b n i = true) :
    i < 2 ^ n ∧ ∀ j < i, ∃ v, readElem s.cfg s.mem b.toNat j = some v ∧ v < 2 ^ 2 ^ n + 1 := by
  simp only [prefixCheck, Bool.and_eq_true, decide_eq_true_eq, List.all_eq_true,
    List.mem_range] at h
  refine ⟨h.1, fun j hj => ?_⟩
  have := h.2 j hj
  cases hr : readElem s.cfg s.mem b.toNat j with
  | none => simp [hr] at this
  | some v => exact ⟨v, rfl, by simpa [hr] using this⟩

theorem firstOutOfRange_of_check {s : State} {b : Bank} {n i v : Nat}
    (h : prefixCheck s b n i = true) (hv : readElem s.cfg s.mem b.toNat i = some v)
    (hp : 2 ^ 2 ^ n + 1 ≤ v) : FirstOutOfRange s b n i :=
  ⟨(prefix_of_check h).1, (prefix_of_check h).2, v, hv, hp⟩

theorem firstUnwritten_of_check {s : State} {b : Bank} {n i : Nat}
    (h : prefixCheck s b n i = true) (hv : readElem s.cfg s.mem b.toNat i = none) :
    FirstUnwritten s b n i :=
  ⟨(prefix_of_check h).1, (prefix_of_check h).2, hv⟩

theorem leastLength_of_check {d n : Nat} (h : d ≤ 2 ^ (n + 1) ∧ 2 ^ n < d) :
    LeastLength d (n + 1) := by
  refine ⟨h.1, fun e he => ?_⟩
  by_contra hc
  have := Nat.pow_le_pow_right (n := 2) (by decide) (Nat.lt_succ_iff.1 (Nat.lt_of_not_le hc))
  omega

/-- A MUL accepted with these operands. -/
def mulInFlight (na : Bool) (a : Nat) (nb : Bool) (b : Nat) : State :=
  accept 0x00000001 (operands na a nb b)

/-- A command accepted in a state. -/
def inFlight (w : Word) (s : State) : State := accept w s

/-- The vectors of 95_test_vectors.md §2.2, with one element of B replaced. -/
def pair (x : Nat) : State := banks 2 [1, 16, 5, 0] [16, 16, x, 0]

theorem witness_DecodeOfEncode : Instr.wf (.pmul 5 5 5) = true := by decide

theorem witness_DecodedWordIsTheEncoding :
    decode 0x00055532 = some (.pmul Bank.C Bank.C Bank.C) := by decide +kernel

theorem witness_LegalityOfCommandWords :
    State.reset.rstN = true ∧ State.reset.phase = .idle ∧ decode 0x00000044 = none := by
  decide +kernel

theorem witness_StepRunsDecodedCommand :
    ((inFlight 0x43 State.reset).rstN = true ∧ (inFlight 0x43 State.reset).phase ≠ .idle ∧
      decode (inFlight 0x43 State.reset).cmd = some .minv ∧
      (inFlight 0x43 State.reset).inputs = []) ∧
    (((inFlight 0x43 State.reset).withInputs [.seq]).inputs = [.seq] ∧ Instr.minv ≠ .mul) ∧
    (((mulInFlight true 7 false 6).withInputs [.seq]).inputs = [.seq] ∧
      (mulInFlight true 7 false 6).phase ≠ .idle ∧
      decode (mulInFlight true 7 false 6).cmd = some .mul) ∧
    (decode (BitVec.ofNat 32 0x00055532) = some (.pmul 5 5 5) ∧ 0x00055532 < 2 ^ 32) := by
  decide +kernel

theorem witness_CommandWriteIsAccepted :
    State.reset.rstN = true ∧ State.reset.phase = .idle := by decide

theorem witness_CommandRegister :
    (State.reset.rstN = true ∧ State.reset.phase = .idle) ∧
    ((inFlight 0 State.reset).rstN = true ∧ (inFlight 0 State.reset).phase ≠ .idle) ∧
    ((inFlight 0 State.reset).inputs = [] ∧
      nextIs (step (inFlight 0 State.reset)) (fun _ => true) = true) := by decide +kernel

theorem witness_IdleEngineKeepsState :
    State.reset.phase = .idle ∧ State.reset.inputs = [] := by decide

theorem witness_MulPhasePaths :
    (mulInFlight true 7 false 6).rstN = true ∧ decode (mulInFlight true 7 false 6).cmd = some .mul ∧
    (mulInFlight true 7 false 6).phase ≠ .idle ∧ (mulInFlight true 7 false 6).phase ≠ .sub := by
  decide +kernel

theorem witness_MulPhasePaths_other :
    (inFlight 0 State.reset).rstN = true ∧ (inFlight 0 State.reset).phase ≠ .idle ∧
    decode (inFlight 0 State.reset).cmd ≠ some .mul ∧
    Answers (inFlight 0 State.reset) .seq (complete (inFlight 0 State.reset)) := by
  have hd : decode (inFlight 0 State.reset).cmd = some .nop := by decide +kernel
  have hm : decode (inFlight 0 State.reset).cmd ≠ some .mul := by rw [hd]; exact fun h => by cases h
  refine ⟨by decide +kernel, by decide +kernel, hm, fun r => ?_⟩
  change seqMove ((inFlight 0 State.reset).withInputs r) = _
  have hr : (inFlight 0 State.reset).running = true := by decide +kernel
  unfold seqMove moveCommand runCommand
  rw [if_pos (by exact hr), if_neg (by exact hm)]
  simp only [withInputs_cmd, hd]
  rfl

theorem witness_ScheduleDoesNotChangeResults :
    (mulInFlight false 1234 false 5678).rstN = true ∧
    (mulInFlight false 1234 false 5678).phase ≠ .idle := by decide +kernel

theorem witness_CommandsEndInFinitelyManyMoves :
    ((mulInFlight false 1234 false 5678).rstN = true ∧
      (mulInFlight false 1234 false 5678).phase ≠ .idle ∧
      decode (mulInFlight false 1234 false 5678).cmd = some .mul) ∧
    ((inFlight 0 State.reset).inputs = [] ∧
      nextIs (step (inFlight 0 State.reset)) (fun _ => true) = true) := by decide +kernel

theorem witness_NopRun : State.reset.rstN = true ∧ State.reset.phase = .idle := by decide

theorem witness_MulTrivialPath :
    (mulInFlight true 999 false 999).phase = .sign ∧
    digitCount (mulInFlight true 999 false 999).opa ≤ 3 ∧
    digitCount (mulInFlight true 999 false 999).opb ≤ 3 := by decide +kernel

/-- 1000 times 1, the boundary of the trivial path; and 33 digits times 32, above KMAX = 64. -/
theorem witness_MulNttPath :
    ((mulInFlight false 1000 false 1).phase = .sign ∧
    ¬ (digitCount (mulInFlight false 1000 false 1).opa ≤ 3 ∧
      digitCount (mulInFlight false 1000 false 1).opb ≤ 3) ∧
    LeastLength (digitCount (mulInFlight false 1000 false 1).opa +
      digitCount (mulInFlight false 1000 false 1).opb) 3 ∧
    2 ^ 3 ≤ (mulInFlight false 1000 false 1).cfg.kmax) ∧
    ((mulInFlight false (10 ^ 32) false (10 ^ 31)).phase = .sign ∧
      ¬ (digitCount (mulInFlight false (10 ^ 32) false (10 ^ 31)).opa ≤ 3 ∧
        digitCount (mulInFlight false (10 ^ 32) false (10 ^ 31)).opb ≤ 3) ∧
      LeastLength (digitCount (mulInFlight false (10 ^ 32) false (10 ^ 31)).opa +
        digitCount (mulInFlight false (10 ^ 32) false (10 ^ 31)).opb) 7 ∧
      (mulInFlight false (10 ^ 32) false (10 ^ 31)).cfg.kmax < 2 ^ 7) :=
  ⟨⟨by decide +kernel, by decide +kernel, leastLength_of_check (by decide +kernel),
      by decide +kernel⟩,
    by decide +kernel, by decide +kernel, leastLength_of_check (by decide +kernel),
    by decide +kernel⟩

/-- 10^31 times 10^31, the largest length at KMAX = 64 (VM21). -/
theorem witness_MulResultIsReducedCoefficientSum :
    (mulInFlight false (10 ^ 31) false (10 ^ 31)).phase = .sign ∧
    ¬ (digitCount (mulInFlight false (10 ^ 31) false (10 ^ 31)).opa ≤ 3 ∧
      digitCount (mulInFlight false (10 ^ 31) false (10 ^ 31)).opb ≤ 3) ∧
    LeastLength (digitCount (mulInFlight false (10 ^ 31) false (10 ^ 31)).opa +
      digitCount (mulInFlight false (10 ^ 31) false (10 ^ 31)).opb) 6 ∧
    6 ≤ (mulInFlight false (10 ^ 31) false (10 ^ 31)).cfg.lkmax :=
  ⟨by decide +kernel, by decide +kernel, leastLength_of_check (by decide +kernel),
    by decide +kernel⟩

/-- VM23: 33 and 32 digits. The second clause: 7 times 6. -/
theorem witness_MulCapacityError :
    ((mulInFlight false (10 ^ 32) false (10 ^ 31)).phase = .sign ∧
      ¬ (digitCount (mulInFlight false (10 ^ 32) false (10 ^ 31)).opa ≤ 3 ∧
        digitCount (mulInFlight false (10 ^ 32) false (10 ^ 31)).opb ≤ 3) ∧
      LeastLength (digitCount (mulInFlight false (10 ^ 32) false (10 ^ 31)).opa +
        digitCount (mulInFlight false (10 ^ 32) false (10 ^ 31)).opb) 7 ∧
      (mulInFlight false (10 ^ 32) false (10 ^ 31)).cfg.kmax < 2 ^ 7) ∧
    ((mulInFlight false 7 false 6).phase = .sign ∧ (mulInFlight false 7 false 6).ecode = .none ∧
      digitCount (mulInFlight false 7 false 6).opa ≤ 3 ∧
      digitCount (mulInFlight false 7 false 6).opb ≤ 3 ∧
      ∃ t, exec .mul (mulInFlight false 7 false 6) = .next t) :=
  ⟨⟨by decide +kernel, by decide +kernel, leastLength_of_check (by decide +kernel),
      by decide +kernel⟩,
    by decide +kernel, by decide +kernel, by decide +kernel, by decide +kernel, ⟨_, rfl⟩⟩

/-- The largest magnitude at KMAX = 64, and a count at each end of its range. -/
theorem witness_DigitCountsFitDigits :
    RegInv (operands false (2 ^ 288 - 1) false 0) ∧
    (0 < 999 ∧ digitCount 999 = 3) ∧ (0 < 1000 ∧ digitCount 1000 = 4) :=
  ⟨by constructor <;> decide +kernel, by decide, by decide⟩

theorem witness_MulIsExactExceptFourByFourDigits :
    (mulInFlight true (10 ^ 31) false (10 ^ 31)).phase = .sign ∧
    digitCount (mulInFlight true (10 ^ 31) false (10 ^ 31)).opa +
      digitCount (mulInFlight true (10 ^ 31) false (10 ^ 31)).opb ≤
        (mulInFlight true (10 ^ 31) false (10 ^ 31)).cfg.kmax ∧
    ¬ (digitCount (mulInFlight true (10 ^ 31) false (10 ^ 31)).opa = 4 ∧
      digitCount (mulInFlight true (10 ^ 31) false (10 ^ 31)).opb = 4) := by decide +kernel

theorem witness_MulCommutes : (mulInFlight true 2999 false 9997).phase = .sign := by
  decide +kernel

/-- A MUL just accepted meets the invariant. -/
theorem inv_mulInFlight :
    (mulInFlight true 7 false 6).Inv ∧
    (accept 1 { operands false 1234 false 5678 with diagEn := true }).Inv := by
  refine ⟨⟨memInv_empty _, ?_, ?_, ?_⟩, ⟨memInv_empty _, ?_, ?_, ?_⟩⟩
  · constructor <;> decide +kernel
  · constructor <;> decide +kernel
  · refine ⟨by decide +kernel, trivial, rfl, by decide +kernel⟩
  · constructor <;> decide +kernel
  · constructor <;> decide +kernel
  · refine ⟨by decide +kernel, trivial, rfl, by decide +kernel⟩

/-- A MUL in flight meets the invariant, and its next step answers a next state. -/
theorem witness_StepKeepsInvariant :
    (mulInFlight true 7 false 6).Inv ∧ ∃ t, step (mulInFlight true 7 false 6) = .next t := by
  refine ⟨inv_mulInFlight.1, ?_⟩
  · obtain ⟨t, ht, _⟩ := exists_of_nextIs (o := step (mulInFlight true 7 false 6))
      (f := fun _ => true) (by decide +kernel)
    exact ⟨t, ht⟩

theorem witness_NoStepMakesNegativeZero :
    (mulInFlight true 7 false 6).Inv ∧
    ¬ ((mulInFlight true 7 false 6).resNeg = true ∧ (mulInFlight true 7 false 6).res = 0) ∧
    ∃ t, step (mulInFlight true 7 false 6) = .next t :=
  ⟨witness_StepKeepsInvariant.1, by decide +kernel, witness_StepKeepsInvariant.2⟩

/-- DIAGV set by 1234 times 5678 with diagnostics on, TRIV set by -7 times 6, both in states that meet
the invariant. -/
theorem witness_OnlyMulSetsDiagvAndTriv :
    ((∃ t, step (accept 1 { operands false 1234 false 5678 with diagEn := true }) = .next t ∧
        t.diagv = true) ∧
      (accept 1 { operands false 1234 false 5678 with diagEn := true }).diagv = false ∧
      (accept 1 { operands false 1234 false 5678 with diagEn := true }).Inv) ∧
    (∃ t, step (mulInFlight true 7 false 6) = .next t ∧ t.triv = true) ∧
    (mulInFlight true 7 false 6).triv = false ∧ (mulInFlight true 7 false 6).Inv :=
  ⟨⟨exists_of_nextIs (by decide +kernel), by decide +kernel, inv_mulInFlight.2⟩,
    exists_of_nextIs (f := fun t => t.triv) (by decide +kernel), by decide +kernel,
    inv_mulInFlight.1⟩

/-- E_ARG, RX out of range by one, RY out of range by one, both at the largest ring element. -/
theorem witness_ScalarCommands :
    (17 : Nat) = 2 ^ 2 ^ (scalar 2 16 16).klog2.toNat + 1 ∧
    (scalar 7 0 0).cfg.lkmax < (scalar 7 0 0).klog2.toNat ∧
    (scalar 2 17 3).klog2.toNat ≤ (scalar 2 17 3).cfg.lkmax ∧ 17 ≤ (scalar 2 17 3).rx ∧
    ((scalar 2 16 17).rx < 17 ∧ 17 ≤ (scalar 2 16 17).ry) ∧
    ((scalar 2 16 16).rx < 17 ∧ (scalar 2 16 16).ry < 17) := by decide +kernel

/-- E_ARG, RX out of range by one, 641 at K = 32 without an inverse, p - 1 with one. -/
theorem witness_InverseCommand :
    (scalar 7 0 0).cfg.lkmax < (scalar 7 0 0).klog2.toNat ∧
    (17 ≤ (scalar 2 17 0).rx ∧ (scalar 2 17 0).klog2.toNat ≤ (scalar 2 17 0).cfg.lkmax) ∧
    ((scalar 5 641 0).rx < 2 ^ 2 ^ 5 + 1 ∧ Nat.gcd (scalar 5 641 0).rx (2 ^ 2 ^ 5 + 1) ≠ 1) ∧
    ((scalar 2 16 99).rx < 17 ∧ Nat.gcd (scalar 2 16 99).rx 17 = 1) := by decide +kernel

/-- The two sources of VP1, and every bank number at its bound. -/
theorem witness_PointwiseCommands :
    Bank.C.toNat ≤ 5 ∧ (2 : Nat) = (pair 12).klog2.toNat ∧ 2 ≤ (pair 12).cfg.lkmax ∧
    RingSource (pair 12) Bank.A 2 [1, 16, 5, 0] ∧ RingSource (pair 12) Bank.B 2 [16, 16, 12, 0] :=
  ⟨by decide, by decide +kernel, by decide +kernel, ringSource_of_check (by decide +kernel),
    ringSource_of_check (by decide +kernel)⟩

/-- The clauses of the errors: KLOG2 = 7, an element of RS1 equal to p in the last place, one of RS2. -/
theorem witness_PointwiseCommands_errors :
    (banks 7 [] []).cfg.lkmax < (banks 7 [] []).klog2.toNat ∧
    FirstOutOfRange (banks 2 [1, 16, 5, 17] []) Bank.A 2 3 ∧
    RingSource (pair 17) Bank.A 2 [1, 16, 5, 0] ∧ FirstOutOfRange (pair 17) Bank.B 2 2 :=
  ⟨by decide +kernel,
    firstOutOfRange_of_check (v := 17) (by decide +kernel) (by decide +kernel) (by decide),
    ringSource_of_check (by decide +kernel),
    firstOutOfRange_of_check (v := 17) (by decide +kernel) (by decide +kernel) (by decide)⟩

/-- A source at K = 4, a bad element of it, and a length above KMAX. -/
theorem witness_TransformCommands :
    (RingSource (banks 2 [1, 2, 3, 16] []) Bank.A 2 [1, 2, 3, 16] ∧
      (banks 2 [1, 2, 3, 16] []).rx < 2 ^ 2 ^ 2 + 1) ∧
    (RingSource { banks 2 [1, 2, 3, 4] [] with rx := 17 } Bank.A 2 [1, 2, 3, 4] ∧
      2 ^ 2 ^ 2 + 1 ≤ ({ banks 2 [1, 2, 3, 4] [] with rx := 17 } : State).rx) ∧
    (2 : Nat) = (banks 2 [1, 2, 3, 16] []).klog2.toNat ∧
    2 ≤ (banks 2 [1, 2, 3, 16] []).cfg.lkmax ∧
    FirstOutOfRange (banks 2 [1, 2, 17, 4] []) Bank.A 2 2 ∧
    (banks 7 [] []).cfg.lkmax < (banks 7 [] []).klog2.toNat :=
  ⟨⟨ringSource_of_check (by decide +kernel), by decide +kernel⟩,
    ⟨ringSource_of_check (by decide +kernel), by decide +kernel⟩,
    by decide +kernel, by decide +kernel,
    firstOutOfRange_of_check (v := 17) (by decide +kernel) (by decide +kernel) (by decide),
    by decide +kernel⟩

/-- RX = p and RX = p - 1 beside a good source. -/
theorem witness_TransformWithRootCommand :
    (RingSource { banks 2 [1, 2, 3, 4] [] with rx := 17 } Bank.A 2 [1, 2, 3, 4] ∧
      2 ^ 2 ^ 2 + 1 ≤ ({ banks 2 [1, 2, 3, 4] [] with rx := 17 } : State).rx) ∧
    (RingSource { banks 2 [1, 2, 3, 4] [] with rx := 16 } Bank.A 2 [1, 2, 3, 4] ∧
      ({ banks 2 [1, 2, 3, 4] [] with rx := 16 } : State).rx < 2 ^ 2 ^ 2 + 1) ∧
    FirstOutOfRange (banks 2 [1, 2, 17, 4] []) Bank.A 2 2 ∧
    (banks 7 [] []).cfg.lkmax < (banks 7 [] []).klog2.toNat :=
  ⟨⟨ringSource_of_check (by decide +kernel), by decide +kernel⟩,
    ⟨ringSource_of_check (by decide +kernel), by decide +kernel⟩,
    firstOutOfRange_of_check (v := 17) (by decide +kernel) (by decide +kernel) (by decide),
    by decide +kernel⟩

theorem witness_TransformRecursion : [1, 2, 3, 4].length = 2 ^ (1 + 1) := by decide

/-- The engine's root at K = 4, with a vector that holds p - 1. -/
theorem witness_TransformClosedForm :
    (1 : Nat) ≤ 2 ∧ (17 : Nat) = 2 ^ 2 ^ 2 + 1 ∧ [1, 2, 3, 16].length = 2 ^ 2 ∧
    (∀ x ∈ [1, 2, 3, 16], x < 17) ∧ 4 ^ 2 ^ (2 - 1) % 17 = 17 - 1 := by decide

theorem witness_TransformRoundTrip :
    (banks 2 [1, 2, 3, 16] []).rstN = true ∧ (banks 2 [1, 2, 3, 16] []).phase = .idle ∧
    (banks 2 [1, 2, 3, 16] []).klog2.toNat ≤ (banks 2 [1, 2, 3, 16] []).cfg.lkmax ∧
    Bank.C.toNat ≤ 5 ∧ Bank.A.toNat ≤ 5 ∧
    RingSource (banks 2 [1, 2, 3, 16] []) Bank.A (banks 2 [1, 2, 3, 16] []).klog2.toNat
      [1, 2, 3, 16] :=
  ⟨rfl, rfl, by decide +kernel, by decide, by decide, ringSource_of_check (by decide +kernel)⟩

theorem witness_CyclicConvolution :
    (pair 12).rstN = true ∧ (pair 12).phase = .idle ∧
    Bank.A ≠ Bank.B ∧ (2 : Nat) = (pair 12).klog2.toNat ∧ 2 ≤ (pair 12).cfg.lkmax ∧
    RingSource (pair 12) Bank.A 2 [1, 16, 5, 0] ∧ RingSource (pair 12) Bank.B 2 [16, 16, 12, 0] :=
  ⟨rfl, rfl, by decide, by decide +kernel, by decide +kernel,
    ringSource_of_check (by decide +kernel), ringSource_of_check (by decide +kernel)⟩

theorem witness_VzeroPseudoCommand :
    (pair 12).rstN = true ∧ (pair 12).phase = .idle ∧
    (pair 12).klog2.toNat ≤ (pair 12).cfg.lkmax ∧ Bank.C.toNat ≤ 5 ∧ Bank.A.toNat ≤ 5 ∧
    RingSource (pair 12) Bank.A (pair 12).klog2.toNat [1, 16, 5, 0] :=
  ⟨rfl, rfl, by decide +kernel, by decide, by decide, ringSource_of_check (by decide +kernel)⟩

/-- KLOG2 at the bound and above it. -/
theorem witness_EncodeCommands :
    (6 : Nat) = (scalar 6 0 0).klog2.toNat ∧ 6 ≤ (scalar 6 0 0).cfg.lkmax ∧ Bank.C.toNat ≤ 5 ∧
    (scalar 7 0 0).cfg.lkmax < (scalar 7 0 0).klog2.toNat := by decide +kernel

theorem witness_DecodeCommand :
    RingSource (banks 2 [16, 16, 16, 16] []) Bank.A 2 [16, 16, 16, 16] ∧
    (2 : Nat) = (banks 2 [16, 16, 16, 16] []).klog2.toNat ∧
    FirstOutOfRange (banks 2 [1, 2, 17, 4] []) Bank.A 2 2 ∧
    (banks 7 [] []).cfg.lkmax < (banks 7 [] []).klog2.toNat :=
  ⟨ringSource_of_check (by decide +kernel), by decide +kernel,
    firstOutOfRange_of_check (v := 17) (by decide +kernel) (by decide +kernel) (by decide),
    by decide +kernel⟩

theorem witness_EncodeThenDecode :
    (scalar 2 0 0).rstN = true ∧ (scalar 2 0 0).phase = .idle ∧
    Bank.C.toNat ≤ 5 ∧ 2 ≤ (scalar 2 0 0).klog2.toNat ∧
    (scalar 2 0 0).klog2.toNat ≤ (scalar 2 0 0).cfg.lkmax := by decide +kernel

/-- A MUL over capacity, a MADD out of range and an illegal word end in an error. -/
theorem witness_ErrorsWriteNothingElse :
    ((mulInFlight false (10 ^ 32) false (10 ^ 31)).rstN = true ∧
      (mulInFlight false (10 ^ 32) false (10 ^ 31)).phase ≠ .idle ∧
      (mulInFlight false (10 ^ 32) false (10 ^ 31)).inputs = [] ∧
      (mulInFlight false (10 ^ 32) false (10 ^ 31)).err = false) ∧
    (∃ t, step (mulInFlight false (10 ^ 32) false (10 ^ 31)) = .next t ∧ t.err = true) ∧
    (∃ t, step (inFlight 0x40 (scalar 2 17 3)) = .next t ∧ t.err = true) ∧
    (∃ t, step (inFlight 0x44 State.reset) = .next t ∧ t.err = true) :=
  ⟨by decide +kernel, exists_of_nextIs (f := fun t => t.err) (by decide +kernel),
    exists_of_nextIs (f := fun t => t.err) (by decide +kernel),
    exists_of_nextIs (f := fun t => t.err) (by decide +kernel)⟩

/-- A command in flight with no event pending, and a next state after it. -/
theorem witness_CommandEndsInOneOfTwoWays :
    ((inFlight 0x40 (scalar 2 16 16)).rstN = true ∧ (inFlight 0x40 (scalar 2 16 16)).phase ≠ .idle ∧
      (inFlight 0x40 (scalar 2 16 16)).inputs = [] ∧ (inFlight 0x40 (scalar 2 16 16)).done = false ∧
      (inFlight 0x40 (scalar 2 16 16)).err = false) ∧
    ∃ t, step (inFlight 0x40 (scalar 2 16 16)) = .next t ∧ t.done = true :=
  ⟨by decide +kernel, exists_of_nextIs (f := fun t => t.done) (by decide +kernel)⟩

theorem witness_LengthErrorComesFirst :
    Instr.wf (.padd 5 5 5) = true ∧ Instr.padd 5 5 5 ≠ .nop ∧ Instr.padd 5 5 5 ≠ .mul ∧
    (scalar 31 0 0).cfg.lkmax < (scalar 31 0 0).klog2.toNat := by decide +kernel

/-- Element 3 of A is not written; with A written, element 0 of B is not. -/
theorem witness_UnwrittenElementFaults :
    FirstUnwritten (banks 2 [1, 2, 3] []) Bank.A 2 3 ∧
    (2 : Nat) = (banks 2 [1, 2, 3] []).klog2.toNat ∧
    RingSource (banks 2 [1, 2, 3, 4] []) Bank.A 2 [1, 2, 3, 4] ∧
    FirstUnwritten (banks 2 [1, 2, 3, 4] []) Bank.B 2 0 :=
  ⟨firstUnwritten_of_check (by decide +kernel) (by decide +kernel), by decide +kernel,
    ringSource_of_check (by decide +kernel),
    firstUnwritten_of_check (by decide +kernel) (by decide +kernel)⟩

/-- One command of each kind that writes: a scalar one, a bank one, DEC and MUL. -/
theorem witness_OnlyTheseCommandsWrite :
    (∃ t, exec .madd (scalar 2 16 16) = .next t ∧ t.rz = 15) ∧
    (∃ t, exec (.nttf 2 0) (banks 2 [1, 2, 3, 4] []) = .next t ∧ t.done = true) ∧
    (∃ t, exec (.dec 0) (banks 2 [1, 2, 3, 4] []) = .next t ∧ t.res = 4321) ∧
    (∃ t, exec .mul (mulInFlight false 7 false 6) = .next t ∧ t.res = 42) := by
  refine ⟨?_, ?_, ?_, ?_⟩
  · simpa using exists_of_nextIs (o := exec .madd (scalar 2 16 16))
      (f := fun t => decide (t.rz = 15)) (by decide +kernel)
  · exact exists_of_nextIs (f := fun t => t.done) (by decide +kernel)
  · simpa using exists_of_nextIs (o := exec (.dec 0) (banks 2 [1, 2, 3, 4] []))
      (f := fun t => decide (t.res = 4321)) (by decide +kernel)
  · simpa using exists_of_nextIs (o := exec .mul (mulInFlight false 7 false 6))
      (f := fun t => decide (t.res = 42)) (by decide +kernel)

/-- Another width, an address off by one, the first reserved word after the registers. -/
theorem witness_RefusedAccesses :
    State.reset.rstN = true ∧ Width.w64 ≠ .w32 ∧ (0x00000013 : Word).toNat % 4 ≠ 0 ∧
    target State.reset.cfg (0x0000002C : Word).toNat = .reserved ∧
    target State.reset.cfg (0x1000000C : Word).toNat = .reserved := by decide +kernel

/-- The last words of the windows at KMAX = 64. -/
theorem witness_AddressMap :
    2 < ewwOf Config.default ∧ 8 < nwmOf Config.default ∧ 63 < Config.default.kmax ∧
    0x150003F8 % 4 = 0 ∧ target Config.default 0x150003F8 ≠ .reserved := by decide +kernel

/-- While NOP is in flight: a data window, a refused write, a register read, a CTRL write; and a MUL
whose next move does not end it. -/
theorem witness_BusyLock :
    ((inFlight 0 State.reset).rstN = true ∧ (inFlight 0 State.reset).phase ≠ .idle) ∧
    (target Config.default 0x4000).isData = true ∧
    target Config.default 0x018 ∈ [Target.cmd, .kcfg, .opsign] ∧
    target Config.default 0x010 ∈ [Target.id, .param0, .param1, .ctrl, .status, .cmd, .kcfg, .opsign,
        .resinfo, .digits, .errinfo] ∧
    target Config.default 0x00C ∈ [Target.ctrl, .status] ∧
    (mulMove (mulInFlight false 7 false 6)).phase ≠ .idle := by decide +kernel

theorem witness_ReadsHaveNoSideEffect :
    (State.reset.withInputs [.read .w32 0x010]).inputs = [.read .w32 0x010] ∧
    ∃ t, step (State.reset.withInputs [.read .w32 0x010]) = .next t ∧ t.resp = .data 0 := by
  refine ⟨rfl, ?_⟩
  simpa using exists_of_nextIs (o := step (State.reset.withInputs [.read .w32 0x010]))
    (f := fun t => decide (t.resp = .data 0)) (by decide +kernel)

theorem witness_ControlRegisterReads : State.reset.rstN = true := by decide

theorem witness_StatusWriteClearsEvents :
    State.reset.rstN = true ∧ (inFlight 0 State.reset).rstN = true := by decide

theorem witness_ControlWrite :
    State.reset.rstN = true ∧ (0x7FFFFFFF : Word).getLsbD 31 = false := by decide

theorem witness_ResetValues :
    (mulInFlight false 7 false 6).rstN = true ∧ (0x80000003 : Word).getLsbD 31 = true ∧
    ({ State.reset with rstN := false } : State).rstN = false := by decide

theorem witness_ReadOnlyWritesIgnored :
    State.reset.rstN = true ∧ State.reset.phase = .idle ∧ 2 < ewwOf State.reset.cfg ∧
    8 < nwmOf State.reset.cfg := by decide +kernel

theorem witness_LengthAndSignWrites :
    State.reset.rstN = true ∧ State.reset.phase = .idle := by decide

/-- The last words of the register and bank windows of the reset state. -/
theorem witness_OperandRegisterWords :
    State.reset.rstN = true ∧ State.reset.phase = .idle ∧ RegInv State.reset ∧
    8 < nwmOf State.reset.cfg ∧ 2 < ewwOf State.reset.cfg :=
  ⟨by decide, by decide, by constructor <;> decide +kernel, by decide +kernel, by decide +kernel⟩

/-- The last word of the last element of bank 5, and an element that has been written. -/
theorem witness_BankWordAccess :
    State.reset.rstN = true ∧ State.reset.phase = .idle ∧ 63 < State.reset.cfg.kmax ∧
    2 < ewwOf State.reset.cfg ∧
    0x150003F8 = 0x10000000 + 5 * 0x01000000 + 63 * (4 * estrOf State.reset.cfg) + 4 * 2 ∧
    readWord State.reset.mem 0x150003F8 = none ∧
    readWord (banks 2 [1, 2, 3, 4] []).mem 0x10000010 = some 2 := by decide +kernel

/-- A completion, and the three ways a write changes the line: IE set on a pending event, the events cleared, a new command. -/
theorem witness_InterruptLine :
    (∃ t, exec .madd (scalar 2 16 16) = .next t ∧ t.done = true) ∧
    Answers State.reset (.write .w32 0x00C 1) { State.reset with ie := true, resp := .ok } ∧
    Answers State.reset (.write .w32 0x010 6) { State.reset with resp := .ok } ∧
    Answers State.reset (.write .w32 0x014 0) { accept 0 State.reset with resp := .ok } :=
  ⟨exists_of_nextIs (f := fun t => t.done) (by decide +kernel),
    fun _ => by rfl, fun _ => by rfl, fun _ => by rfl⟩

theorem witness_HostAccessDuringReset :
    ({ State.reset with rstN := false } : State).rstN = false := by decide

/-- An idle engine, a busy one, one held in reset, and a command issued to the idle one. -/
theorem witness_GoWaitIsTheCommandWriteAndTheRun :
    (Instr.wf .madd = true ∧ (scalar 2 16 16).rstN = true ∧ (scalar 2 16 16).phase = .idle) ∧
    ((mulInFlight true 7 false 6).rstN = true ∧ (mulInFlight true 7 false 6).phase ≠ .idle) ∧
    ({ State.reset with rstN := false } : State).rstN = false ∧
    ∃ t, goWait .madd (scalar 2 16 16) = .next t ∧ t.rz = 15 := by
  refine ⟨by decide +kernel, by decide +kernel, rfl, ?_⟩
  simpa using exists_of_nextIs (o := goWait .madd (scalar 2 16 16))
    (f := fun t => decide (t.rz = 15)) (by decide +kernel)

end Sys2Proof.Tests
end

section
/-! SUPPORT. What one step can do, as cases: the writes of a completed command, where a turn of MUL's
sequencer can lead, the effect of a host write, and from these the effect of a step. Every statement
about all steps is derived from `step_effect`. -/

namespace Sys2Proof.Machine

/-! ### The commands other than MUL (43_orchestrator.md R215, R216; 60_exceptions.md R258) -/

/-- What a completing command other than MUL writes beside the completion: nothing, RZ, RES with
NEG = 0, or elements of one bank (43_orchestrator.md R230). -/
inductive CommandWrite (s : State) : State → Prop where
  | nothing : CommandWrite s s
  | rz (v : Nat) : CommandWrite s (s.setRz v)
  | res (v : Nat) : CommandWrite s (s.setRes v false)
  | bank (b : Bank) (vs : List Nat) (hb : b.toNat ≤ 5) (hl : vs.length ≤ s.cfg.kmax) :
      CommandWrite s (s.setBank b vs)

/-- The two ends of a command other than MUL (60_exceptions.md R250). -/
inductive CommandEnd (s : State) : State → Prop where
  | completed {u : State} (hu : CommandWrite s u) : CommandEnd s (complete u)
  | erred (e : Error) : CommandEnd s (raiseErr e s)

/-- A checked command ends in one of the two ways if what it writes after its checks is a command's
write. -/
theorem CommandEnd.of_finish {α : Type} {c : Check α} {s t : State} {k : α → State}
    (h : c.finish s k = .next t) (hk : ∀ a, c = .pass a → CommandWrite s (k a)) :
    CommandEnd s t := by
  rcases Check.finish_next h with ⟨a, ha, rfl⟩ | ⟨e, -, rfl⟩
  · exact .completed (hk a ha)
  · exact .erred e

theorem prologueK_pass {s : State} {bs : List Bank} {n : Nat} (h : prologueK s bs = .pass n) :
    bs.all Bank.valid = true ∧ n ≤ s.cfg.lkmax := by
  obtain ⟨u, hu, hn⟩ := Check.bind_eq_pass h
  exact ⟨checkBanks_pass hu, (checkLength_pass hn).2⟩

theorem toNat_le_of_all_valid {bs : List Bank} (h : bs.all Bank.valid = true) {b : Bank}
    (hb : b ∈ bs) : b.toNat ≤ 5 := by
  simpa [Bank.valid] using List.all_eq_true.1 h b hb

/-- Writing a vector of a legal length to a checked bank is a command's write. -/
theorem CommandWrite.of_length {s : State} {bs : List Bank} {rd : Bank} {n : Nat} {ys : List Nat}
    (hb : bs.all Bank.valid = true) (hrd : rd ∈ bs) (hn : n ≤ s.cfg.lkmax)
    (hl : ys.length = 2 ^ n) : CommandWrite s (s.setBank rd ys) :=
  .bank rd ys (toNat_le_of_all_valid hb hrd) (hl ▸ two_pow_le_kmax hn)

theorem execEncode_end {mag : Nat} {rd : Bank} {s t : State} (h : execEncode mag rd s = .next t) :
    CommandEnd s t := by
  refine .of_finish h fun n hn => ?_
  obtain ⟨hb, hle⟩ := prologueK_pass hn
  exact .of_length hb (by simp) hle (digitEncode_length _ _)

theorem execScalar2_end {op : Nat → Nat → Nat → Nat} {s t : State}
    (h : execScalar2 op s = .next t) : CommandEnd s t :=
  .of_finish h fun _ _ => .rz _

theorem execPointwise_end {op : Nat → Nat → Nat → Nat} {rd rs1 rs2 : Bank} {s t : State}
    (h : execPointwise op rd rs1 rs2 s = .next t) : CommandEnd s t := by
  refine .of_finish h fun a ha => ?_
  obtain ⟨hb, -, hle, ⟨hl1, -⟩, hl2, -⟩ := prologueVec2_pass ha
  exact .of_length hb (by simp) hle (by simp [hl1, hl2])

/-- A command of one source vector that writes to RD a vector as long as its source. -/
theorem execVector_end {rd rs1 : Bank} {f : Nat × List Nat → List Nat} {s t : State}
    (hf : ∀ a : Nat × List Nat, a.2.length = 2 ^ a.1 → (f a).length = 2 ^ a.1)
    (h : (prologueVec1 s [rd, rs1] rs1).finish s (fun a => s.setBank rd (f a)) = .next t) :
    CommandEnd s t := by
  refine .of_finish h fun a ha => ?_
  obtain ⟨hb, -, hle, hl, -⟩ := prologueVec1_pass ha
  exact .of_length hb (by simp) hle (hf a hl)

theorem execNttw_end {rd rs1 : Bank} {s t : State} (h : execNttw rd rs1 s = .next t) :
    CommandEnd s t := by
  refine .of_finish h fun a ha => ?_
  obtain ⟨⟨n, xs⟩, hv, ha⟩ := Check.bind_eq_pass ha
  obtain ⟨w, -, ha⟩ := Check.bind_eq_pass ha
  obtain ⟨hb, -, hle, hl, -⟩ := prologueVec1_pass hv
  simp only [Check.pass.injEq] at ha
  subst ha
  exact .of_length hb (by simp) hle (transform_length _ _ _ _ hl)

/-- Everything a command other than MUL can do when it answers a next state. -/
theorem exec_end {i : Instr} {s t : State} (hi : i ≠ .mul) (h : exec i s = .next t) :
    CommandEnd s t := by
  cases i with
  | nop =>
    obtain rfl : complete s = t := by simpa [exec, execNop] using h
    exact .completed .nothing
  | mul => exact absurd rfl hi
  | enca rd => exact execEncode_end h
  | encb rd => exact execEncode_end h
  | dec rs1 => exact .of_finish h fun _ _ => .res _
  | nttf rd rs1 => exact execVector_end (fun _ => transform_length _ _ _ _) h
  | ntti rd rs1 => exact execVector_end (fun _ => transform_length _ _ _ _) h
  | nttw rd rs1 => exact execNttw_end h
  | scal rd rs1 => exact execVector_end (fun _ hl => by simpa using hl) h
  | padd rd rs1 rs2 => exact execPointwise_end h
  | psub rd rs1 rs2 => exact execPointwise_end h
  | pmul rd rs1 rs2 => exact execPointwise_end h
  | madd => exact execScalar2_end h
  | msub => exact execScalar2_end h
  | mmul => exact execScalar2_end h
  | minv => exact .of_finish h fun _ _ => .rz _

/-! ### MUL (43_orchestrator.md R211, R218) -/

/-- The phase is on the path of MUL for the operands of s, and w are the working values they give. -/
def OnTrack (s : State) (ph : Phase) (w : Work) : Prop := onPath s ph ∧ w = expectedWork s ph

theorem onPath_moveTo (s : State) (ph : Phase) (w : Work) (q : Phase) :
    onPath (s.moveTo ph w) q = onPath s q := by cases q <;> rfl

theorem expectedWork_moveTo (s : State) (ph : Phase) (w : Work) (q : Phase) :
    expectedWork (s.moveTo ph w) q = expectedWork s q := by cases q <;> rfl

theorem onTrack_moveTo {s : State} {ph : Phase} {w : Work} {q : Phase} {x : Work} :
    OnTrack (s.moveTo ph w) q x ↔ OnTrack s q x := by
  simp only [OnTrack, onPath_moveTo, expectedWork_moveTo]

/-- Where moves of MUL's sequencer lead: on to a phase, to the completion, or to E_CAP. If the state
they begin in is on the path of its operands, so is what they reach. -/
inductive MulOutcome (s : State) : State → Prop where
  | moved (ph : Phase) (w : Work) (hidle : ph ≠ .idle) (hsub : ph ≠ .sub)
      (htrack : OnTrack s s.phase s.work → OnTrack s ph w) : MulOutcome s (s.moveTo ph w)
  | finished (w : Work) (htrack : OnTrack s s.phase s.work → OnTrack s .fin w) :
      MulOutcome s (leaveFin w s)
  | capped (dA dB : Nat) : MulOutcome s (raiseErr .cap (s.setDigits dA dB))

/-- The move out of SIGN chooses the path (43_orchestrator.md R221, R222). -/
theorem leaveSign_outcome (s : State) : MulOutcome s (leaveSign (signWork s) s) := by
  unfold leaveSign
  split
  · next ht => exact .moved .triv _ (by simp) (by simp) fun _ => ⟨ht, rfl⟩
  · next ht =>
    split
    · next hk => exact .moved .enc _ (by simp) (by simp) fun _ => ⟨⟨by simpa using ht, hk⟩, rfl⟩
    · exact .capped _ _

/-- A move to the next phase of the path, with the work of the phase it leaves. -/
theorem MulOutcome.advance {s : State} {ph q : Phase} {f : Work → Work} (h : s.phase = ph)
    (hidle : q ≠ .idle) (hsub : q ≠ .sub) (hp : onPath s ph → onPath s q)
    (hw : onPath s ph → f (expectedWork s ph) = expectedWork s q) :
    MulOutcome s (s.moveTo q (f s.work)) := by
  refine .moved q _ hidle hsub ?_
  rw [h]
  rintro ⟨hon, hwork⟩
  exact ⟨hp hon, hwork ▸ hw hon⟩

/-- One move of MUL from any phase. -/
theorem mulMove_outcome (s : State) : MulOutcome s (mulMove s) := by
  unfold mulMove
  split
  case h_1 h => exact .advance h (by simp) (by simp) .inl fun ht => (if_pos ht).symm
  case h_2 h => exact .advance h (by simp) (by simp) id fun _ => rfl
  case h_3 h => exact .advance h (by simp) (by simp) id fun _ => rfl
  case h_4 h => exact .advance h (by simp) (by simp) id fun _ => rfl
  case h_5 h => exact .advance h (by simp) (by simp) id fun _ => rfl
  case h_6 h => exact .advance h (by simp) (by simp) id fun _ => rfl
  case h_7 h =>
    exact .advance h (by simp) (by simp) (fun hp => .inr hp.2)
      fun hp => (if_neg (Bool.eq_false_iff.1 hp.1)).symm
  case h_8 h => exact .finished _ (by rw [h]; exact id)
  all_goals exact leaveSign_outcome s

/-- What the last move writes on each path (43_orchestrator.md R221, R228). -/
theorem leaveFin_of_trivial {w : Work} (s : State) (h : w.trivial = true) :
    leaveFin w s = complete (commitTrivial w s) := by
  rw [leaveFin, if_pos h]

theorem leaveFin_of_not_trivial {w : Work} (s : State) (h : ¬ w.trivial = true) :
    leaveFin w s = complete (commitNtt w s) := by
  rw [leaveFin, if_neg h]

/-- What moves lead to after a first move is what they lead to from the start. -/
theorem MulOutcome.trans {s t : State} {ph : Phase} {w : Work}
    (h : OnTrack s s.phase s.work → OnTrack s ph w) (ht : MulOutcome (s.moveTo ph w) t) :
    MulOutcome s t := by
  cases ht with
  | moved q x hidle hsub htrack =>
    exact .moved q x hidle hsub fun h0 => onTrack_moveTo.1 (htrack (onTrack_moveTo.2 (h h0)))
  | finished x htrack =>
    have e : leaveFin x (s.moveTo ph w) = leaveFin x s := by
      by_cases hx : x.trivial = true
      · rw [leaveFin_of_trivial _ hx, leaveFin_of_trivial _ hx]; rfl
      · rw [leaveFin_of_not_trivial _ hx, leaveFin_of_not_trivial _ hx]; rfl
    exact e ▸ .finished x fun h0 => onTrack_moveTo.1 (htrack (onTrack_moveTo.2 (h h0)))
  | capped dA dB => exact .capped (s := s) dA dB

/-- Any positive number of moves of MUL. -/
theorem mulFinish_outcome (n : Nat) (s : State) : MulOutcome s (mulFinish (n + 1) s) := by
  induction n generalizing s with
  | zero =>
    rw [mulFinish_succ, mulFinish, ite_self]
    exact mulMove_outcome s
  | succ n ih =>
    rw [mulFinish_succ]
    split
    · exact mulMove_outcome s
    · next hbusy =>
      have hrest := ih (mulMove s)
      generalize hm : mulMove s = u at hbusy hrest ⊢
      have hfirst : MulOutcome s u := hm ▸ mulMove_outcome s
      cases hfirst with
      | moved ph w hidle hsub htrack => exact .trans htrack hrest
      | finished w htrack => exact absurd rfl hbusy
      | capped dA dB => exact absurd rfl hbusy

/-! ### A turn of the sequencer (43_orchestrator.md R212, R214) -/

/-- What a turn of the sequencer can do with the command in flight. -/
inductive SeqOutcome (s : State) : State → Prop where
  | mul {t : State} (hd : decode s.cmd = some .mul) (ht : MulOutcome s t) : SeqOutcome s t
  | other {t : State} (hd : decode s.cmd ≠ some .mul) (ht : CommandEnd s t) : SeqOutcome s t

/-- The command in flight, run to its end. -/
theorem runCommand_outcome {s t : State} (h : runCommand s = .next t) : SeqOutcome s t := by
  rcases runCommand_next h with ⟨i, hd, he⟩ | ⟨hd, rfl⟩
  · by_cases hi : i = .mul
    · subst hi
      obtain rfl : mulFinish 8 s = t := by simpa [exec, execMul] using he
      exact .mul hd (mulFinish_outcome 7 s)
    · exact .other (by simpa [hd] using hi) (exec_end hi he)
  · exact .other (by simp [hd]) (.erred .illegal)

/-- One move of the command in flight. -/
theorem moveCommand_outcome {s t : State} (h : moveCommand s = .next t) : SeqOutcome s t := by
  unfold moveCommand at h
  split at h
  · next hd =>
    obtain rfl : mulMove s = t := by simpa using h
    exact .mul hd (mulMove_outcome s)
  · exact runCommand_outcome h

theorem running_iff (s : State) : s.running = true ↔ s.rstN = true ∧ s.phase ≠ .idle := by
  simp [State.running, State.busy]

/-- A step with no input pending. -/
theorem step_without_input {s t : State} (hin : s.inputs = []) (h : step s = .next t) :
    t = s ∨ s.running = true ∧ SeqOutcome s t := by
  have h : seqFinish s = .next t := by simpa only [step, hin] using h
  unfold seqFinish at h
  split at h
  · next hr => exact .inr ⟨hr, runCommand_outcome h⟩
  · exact .inl (by simpa using h.symm)

/-! ### A host write (20_memory.md R74, R78, R79) -/

/-- The effect a host write can have on the engine, and when: the command registers and the data
windows are locked while busy (20_memory.md R79). -/
inductive WriteEffect (s : State) : State → Prop where
  | nothing : WriteEffect s s
  | reset : WriteEffect s (softReset s)
  | ctrl (v : Word) : WriteEffect s (setCtrl v s)
  | status (v : Word) : WriteEffect s (ackStatus v s)
  | cmd (v : Word) (hidle : s.phase = .idle) : WriteEffect s (accept v s)
  | kcfg (v : Word) (hidle : s.phase = .idle) : WriteEffect s (writeKcfg v s)
  | opsign (v : Word) (hidle : s.phase = .idle) : WriteEffect s (writeOpsign v s)
  | rx (j : Nat) (v : Word) (hidle : s.phase = .idle) : WriteEffect s (writeRx j v s)
  | ry (j : Nat) (v : Word) (hidle : s.phase = .idle) : WriteEffect s (writeRy j v s)
  | opa (j : Nat) (v : Word) (hidle : s.phase = .idle) : WriteEffect s (writeOpa j v s)
  | opb (j : Nat) (v : Word) (hidle : s.phase = .idle) : WriteEffect s (writeOpb j v s)
  | bank (b i j : Nat) (v : Word) (hidle : s.phase = .idle) (hb : b ≤ 5) (hi : i < s.cfg.kmax)
      (hj : j < ewwOf s.cfg) : WriteEffect s (writeBankWord b i j v s)

/-- A write of a data window or a command register that is not refused finds the engine idle. -/
theorem idle_of_writeRefused_eq_false {s : State} {tg : Target}
    (h : writeRefused s.busy tg = false)
    (hl : (tg.isData || tg == .cmd || tg == .kcfg || tg == .opsign) = true) : s.phase = .idle := by
  simpa [writeRefused, hl, State.busy] using (Bool.or_eq_false_iff.1 h).2

/-- The effect of a write that the bus takes, by its target. -/
theorem writeTarget_effect {s : State} {v : Word} {tg : Target}
    (hbank : ∀ b i j, tg = .bank b i j → b ≤ 5 ∧ i < s.cfg.kmax ∧ j < ewwOf s.cfg)
    (h : writeRefused s.busy tg = false) : WriteEffect s (writeTarget s v tg) := by
  have hidle := idle_of_writeRefused_eq_false h
  cases tg with
  | ctrl =>
    change WriteEffect s (writeCtrl v s)
    unfold writeCtrl
    split
    · exact .reset
    · exact .ctrl v
  | status => exact .status v
  | cmd => exact .cmd v (hidle rfl)
  | kcfg => exact .kcfg v (hidle rfl)
  | opsign => exact .opsign v (hidle rfl)
  | rx j => exact .rx j v (hidle rfl)
  | ry j => exact .ry j v (hidle rfl)
  | opa j => exact .opa j v (hidle rfl)
  | opb j => exact .opb j v (hidle rfl)
  | bank b i j =>
    obtain ⟨hb, hi, hj⟩ := hbank b i j rfl
    exact .bank b i j v (hidle rfl) hb hi hj
  | _ => exact .nothing

theorem hostWrite_effect {w : Width} {a v : Word} {s t : State} (h : hostWrite w a v s = .next t) :
    s.rstN = true ∧ ∃ u r, WriteEffect s u ∧ t = u.respond r := by
  obtain ⟨hr, ⟨-, rfl⟩ | ⟨hn, rfl⟩⟩ := hostWrite_next h
  · exact ⟨hr, s, _, .nothing, rfl⟩
  · exact ⟨hr, _, _, writeTarget_effect (fun _ _ _ => accessTarget_bank) hn, rfl⟩

/-! ### A step -/

/-- What a step can do to the engine: nothing, a host write, a turn of the sequencer with a command in
flight, or a level of rst_n. -/
inductive StepEffect (s : State) : State → Prop where
  | nothing : StepEffect s s
  | write {t : State} (hr : s.rstN = true) (ht : WriteEffect s t) : StepEffect s t
  | command {t : State} (hr : s.rstN = true) (hbusy : s.phase ≠ .idle) (ht : SeqOutcome s t) :
      StepEffect s t
  | pin (level : Bool) : StepEffect s (driveReset level s)

/-- Every step is such an effect, up to the inputs still pending and the bus response. -/
theorem step_effect {s t : State} (h : step s = .next t) :
    ∃ rest u r, StepEffect (s.withInputs rest) u ∧ t = u.respond r := by
  rcases step_next h with ⟨-, hr, h⟩ | ⟨-, -, rfl⟩ | ⟨w, a, rest, -, h⟩ | ⟨w, a, v, rest, -, h⟩ |
    ⟨rest, -, hr, h⟩ | ⟨rest, -, -, rfl⟩ | ⟨level, rest, -, rfl⟩
  · obtain ⟨hr, hb⟩ := (running_iff s).1 hr
    exact ⟨s.inputs, t, t.resp, .command hr hb (runCommand_outcome h), rfl⟩
  · exact ⟨t.inputs, t, t.resp, .nothing, rfl⟩
  · obtain ⟨-, r, rfl⟩ := hostRead_next h
    exact ⟨rest, _, r, .nothing, rfl⟩
  · obtain ⟨hr, u, r, hu, rfl⟩ := hostWrite_effect h
    exact ⟨rest, u, r, .write hr hu, rfl⟩
  · obtain ⟨hr, hb⟩ := (running_iff s).1 hr
    exact ⟨rest, t, t.resp, .command hr hb (moveCommand_outcome h), rfl⟩
  · exact ⟨rest, _, s.resp, .nothing, rfl⟩
  · exact ⟨rest, _, _, .pin level, rfl⟩

end Sys2Proof.Machine
end

section
/-! SUPPORT. The invariant of a run: it holds after reset, and every effect of a step keeps it. -/

namespace Sys2Proof.Machine

/-! ### Parts of the invariant that carry over to a changed state -/

/-- The sequencer part holds of an idle engine without working values. -/
theorem SeqInv.of_idle {s : State} (hp : s.phase = .idle) (hw : s.work = Work.empty)
    (hr : s.rstN = true) : SeqInv s where
  path h := absurd hp h
  onPath := by rw [hp]; trivial
  work := by rw [hp, hw]; rfl
  inReset h := by simp [hr] at h

/-- The fields the register part speaks of. -/
def regFields (s : State) : Config × Nat × Nat × Nat × Nat × Nat × Nat :=
  (s.cfg, s.opa, s.opb, s.res, s.rx, s.ry, s.rz)

theorem RegInv.congr {s t : State} (h : RegInv s) (e : regFields t = regFields s) : RegInv t := by
  simp only [regFields, Prod.mk.injEq] at e
  obtain ⟨hcfg, hopa, hopb, hres, hrx, hry, hrz⟩ := e
  constructor <;> simp only [hcfg, hopa, hopb, hres, hrx, hry, hrz]
  exacts [h.opa, h.opb, h.res, h.rx, h.ry, h.rz]

/-- The fields the flag part speaks of. -/
def flagFields (s : State) : Bool × Bool × Bool × Bool × ECode × Phase × ErrSrc × BitVec 16 :=
  (s.done, s.err, s.diagv, s.triv, s.ecode, s.phase, s.errSrc, s.errIdx)

theorem FlagInv.congr {s t : State} (h : FlagInv s) (e : flagFields t = flagFields s) :
    FlagInv t := by
  simp only [flagFields, Prod.mk.injEq] at e
  obtain ⟨hdone, herr, hdiagv, htriv, hecode, hphase, hsrc, hidx⟩ := e
  constructor <;> simp only [hdone, herr, hdiagv, htriv, hecode, hphase, hsrc, hidx]
  exacts [h.notBoth, h.errCode, h.doneCode, h.info, h.busyClear, h.trivNoDiag, h.mulNoDiag]

/-- The fields the sequencer part speaks of while reset is released. -/
def seqFields (s : State) : Config × Word × Phase × Work × Nat × Nat × Bool × Bool × Bool :=
  (s.cfg, s.cmd, s.phase, s.work, s.opa, s.opb, s.aneg, s.bneg, s.rstN)

theorem onPath_congr {s t : State} (hc : t.cfg = s.cfg) (hs : signWork t = signWork s) (ph : Phase) :
    onPath t ph = onPath s ph := by
  cases ph <;> simp only [onPath, hc, hs]

theorem expectedWork_congr {s t : State} (hs : signWork t = signWork s) (ph : Phase) :
    expectedWork t ph = expectedWork s ph := by
  cases ph <;> simp only [expectedWork, hs]

theorem SeqInv.congr {s t : State} (h : SeqInv s) (hr : s.rstN = true)
    (e : seqFields t = seqFields s) : SeqInv t := by
  simp only [seqFields, Prod.mk.injEq] at e
  obtain ⟨hcfg, hcmd, hphase, hwork, hopa, hopb, haneg, hbneg, hrst⟩ := e
  have hs := signWork_congr hopa hopb haneg hbneg
  constructor
  · rw [hphase, hcmd]; exact h.path
  · rw [hphase, onPath_congr hcfg hs]; exact h.onPath
  · rw [hwork, hphase, expectedWork_congr hs]; exact h.work
  · simp [hrst, hr]

/-- The sequencer part as one condition on phase and working values. -/
theorem State.Inv.onTrack {s : State} (h : s.Inv) : OnTrack s s.phase s.work :=
  ⟨h.seq.onPath, h.seq.work⟩

/-- An idle engine has no working values. -/
theorem State.Inv.work_of_idle {s : State} (h : s.Inv) (hp : s.phase = .idle) :
    s.work = Work.empty := by
  have hw := h.seq.work
  rwa [hp] at hw

/-- A command in flight begins with ERRINFO clear (43_orchestrator.md R213). -/
theorem State.Inv.info_of_busy {s : State} (h : s.Inv) (hp : s.phase ≠ .idle) :
    s.errSrc = .none ∧ s.errIdx = 0 := by
  obtain ⟨-, -, hcode, -⟩ := h.flags.busyClear hp
  exact h.flags.info (by simp [hcode])

/-- The reset state at any pin level, with any pending inputs and bus response. -/
theorem inv_resetOf (c : Config) (level : Bool) (ins : List Input) (r : Resp) :
    ({ State.resetOf c with rstN := level, inputs := ins, resp := r } : State).Inv where
  mem := memInv_empty c
  regs := by constructor <;> exact Nat.two_pow_pos _
  flags := by constructor <;> simp [State.resetOf]
  seq := ⟨fun h => absurd rfl h, trivial, rfl, fun _ => rfl⟩

theorem State.Inv.withInputs {s : State} (h : s.Inv) (rest : List Input) :
    (s.withInputs rest).Inv where
  mem := h.mem
  regs := h.regs.congr rfl
  flags := h.flags.congr rfl
  seq := ⟨h.seq.path, h.seq.onPath, h.seq.work,
    fun hr => congrArg (State.withInputs · rest) (h.seq.inReset hr)⟩

theorem State.Inv.respond {s : State} (h : s.Inv) (r : Resp) : (s.respond r).Inv where
  mem := h.mem
  regs := h.regs.congr rfl
  flags := h.flags.congr rfl
  seq := ⟨h.seq.path, h.seq.onPath, h.seq.work,
    fun hr => congrArg (State.respond · r) (h.seq.inReset hr)⟩

/-! ### The ends of a command -/

/-- The flags of a completion. -/
theorem flagInv_complete {s : State} (herr : s.err = false) (hcode : s.ecode = .none)
    (hinfo : s.errSrc = .none ∧ s.errIdx = 0) (hdiag : ¬ (s.triv = true ∧ s.diagv = true)) :
    FlagInv (complete s) where
  notBoth h := by simp [herr] at h
  errCode h := by simp [herr] at h
  doneCode _ := hcode
  info _ := hinfo
  busyClear h := absurd rfl h
  trivNoDiag := hdiag
  mulNoDiag h := absurd rfl h

/-- The flags of an error. -/
theorem flagInv_raiseErr {s : State} (e : Error) (hdone : s.done = false)
    (hinfo : s.errSrc = .none ∧ s.errIdx = 0) (hdiag : ¬ (s.triv = true ∧ s.diagv = true)) :
    FlagInv (raiseErr e s) where
  notBoth h := by simp [hdone] at h
  errCode _ := by cases e <;> simp [Error.ecode]
  doneCode h := by simp [hdone] at h
  info h := by
    cases e with
    | range src idx => exact absurd rfl h
    | _ => exact hinfo
  busyClear h := absurd rfl h
  trivNoDiag := hdiag
  mulNoDiag h := absurd rfl h

/-- Either end of a command in flight keeps the invariant: acceptance cleared the event state. -/
theorem State.Inv.raiseErr {s : State} (h : s.Inv) (hr : s.rstN = true) (hb : s.phase ≠ .idle)
    (e : Error) : (raiseErr e s).Inv where
  mem := h.mem
  regs := h.regs.congr rfl
  flags := flagInv_raiseErr e (h.flags.busyClear hb).1 (h.info_of_busy hb) h.flags.trivNoDiag
  seq := .of_idle rfl rfl hr

theorem State.Inv.complete {s : State} (h : s.Inv) (hr : s.rstN = true) (hb : s.phase ≠ .idle) :
    (complete s).Inv := by
  obtain ⟨-, herr, hcode, -⟩ := h.flags.busyClear hb
  exact ⟨h.mem, h.regs.congr rfl,
    flagInv_complete herr hcode (h.info_of_busy hb) h.flags.trivNoDiag, .of_idle rfl rfl hr⟩

theorem State.Inv.setDigits {s : State} (h : s.Inv) (hr : s.rstN = true) (dA dB : Nat) :
    (s.setDigits dA dB).Inv :=
  ⟨h.mem, h.regs.congr rfl, h.flags.congr rfl, h.seq.congr hr rfl⟩

theorem State.Inv.commandWrite {s u : State} (h : s.Inv) (hr : s.rstN = true)
    (hu : CommandWrite s u) : u.Inv := by
  cases hu with
  | nothing => exact h
  | rz v => exact ⟨h.mem, { h.regs with rz := fitElem_lt s.cfg v }, h.flags.congr rfl,
      h.seq.congr hr rfl⟩
  | res v => exact ⟨h.mem, { h.regs with res := fitMag_lt s.cfg v }, h.flags.congr rfl,
      h.seq.congr hr rfl⟩
  | bank b vs hb hl => exact ⟨memInv_writeBank h.mem hb hl, h.regs.congr rfl, h.flags.congr rfl,
      h.seq.congr hr rfl⟩

theorem CommandWrite.keeps_running {s u : State} (hu : CommandWrite s u) :
    u.rstN = s.rstN ∧ u.phase = s.phase := by
  cases hu <;> exact ⟨rfl, rfl⟩

/-- Either end of a command other than MUL keeps the invariant. -/
theorem State.Inv.commandEnd {s t : State} (h : s.Inv) (hr : s.rstN = true) (hb : s.phase ≠ .idle)
    (ht : CommandEnd s t) : t.Inv := by
  cases ht with
  | erred e => exact h.raiseErr hr hb e
  | completed hu =>
    obtain ⟨hrst, hphase⟩ := hu.keeps_running
    exact (h.commandWrite hr hu).complete (hrst ▸ hr) (hphase ▸ hb)

/-! ### The moves of MUL -/

/-- The six vectors of the NTT path are at most KMAX long. -/
structure BankLengths (c : Config) (w : Work) : Prop where
  vA : w.vA.length ≤ c.kmax
  vB : w.vB.length ≤ c.kmax
  fA : w.fA.length ≤ c.kmax
  fB : w.fB.length ≤ c.kmax
  fC : w.fC.length ≤ c.kmax
  vC : w.vC.length ≤ c.kmax

/-- Each vector of the NTT path has the length 2^n of the transform (43_orchestrator.md R223 to R226). -/
theorem nttWork_length (w : Work) :
    (nttWork w).vA.length = 2 ^ w.klog ∧ (nttWork w).vB.length = 2 ^ w.klog ∧
      (nttWork w).fA.length = 2 ^ w.klog ∧ (nttWork w).fB.length = 2 ^ w.klog ∧
      (nttWork w).fC.length = 2 ^ w.klog ∧ (nttWork w).vC.length = 2 ^ w.klog := by
  have hfA : (transform (modulusOf w.klog) w.klog forwardRoot
      (digitEncode w.mA (2 ^ w.klog))).length = 2 ^ w.klog :=
    transform_length _ _ _ _ (digitEncode_length _ _)
  have hfB : (transform (modulusOf w.klog) w.klog forwardRoot
      (digitEncode w.mB (2 ^ w.klog))).length = 2 ^ w.klog :=
    transform_length _ _ _ _ (digitEncode_length _ _)
  have hfC : (nttWork w).fC.length = 2 ^ w.klog := by
    simp [nttWork, fnttWork, encWork, hfA, hfB]
  exact ⟨digitEncode_length _ _, digitEncode_length _ _, hfA, hfB, hfC,
    (List.length_map _).trans (transform_length _ _ _ _ hfC)⟩

theorem nttWork_bankLengths {c : Config} {w : Work} (h : w.klog ≤ c.lkmax) :
    BankLengths c (nttWork w) := by
  have hk := two_pow_le_kmax h
  obtain ⟨hA, hB, hfA, hfB, hfC, hC⟩ := nttWork_length w
  constructor <;> omega

theorem memInv_commitBanks {c : Config} {w : Work} {m : Memory} (h : MemInv c m)
    (hl : BankLengths c w) : MemInv c (commitBanks c w m) := by
  have hA := memInv_writeBank (b := Bank.A.toNat) h (by decide) hl.vA
  have hB := memInv_writeBank (b := Bank.B.toNat) hA (by decide) hl.vB
  have hFA := memInv_writeBank (b := Bank.FA.toNat) hB (by decide) hl.fA
  have hFB := memInv_writeBank (b := Bank.FB.toNat) hFA (by decide) hl.fB
  have hFC := memInv_writeBank (b := Bank.FC.toNat) hFB (by decide) hl.fC
  exact memInv_writeBank (b := Bank.C.toNat) hFC (by decide) hl.vC

/-- The working values of the last move are those of the trivial path or of the NTT path within
capacity (43_orchestrator.md R221, R222). -/
theorem OnTrack.fin_cases {s : State} {w : Work} (h : OnTrack s .fin w) :
    ((signWork s).trivial = true ∧ w = trivWork (signWork s)) ∨
      ((signWork s).trivial = false ∧ (signWork s).klog ≤ s.cfg.lkmax ∧
        w = nttWork (signWork s)) := by
  obtain ⟨hon, hw⟩ := h
  by_cases ht : (signWork s).trivial = true
  · exact .inl ⟨ht, hw.trans (if_pos ht)⟩
  · exact .inr ⟨by simpa using ht, hon.resolve_left ht, hw.trans (if_neg ht)⟩

/-- The completion of MUL, on either path, keeps the invariant. -/
theorem State.Inv.leaveFin {s : State} (h : s.Inv) (hr : s.rstN = true) (hb : s.phase ≠ .idle)
    (hsub : s.phase ≠ .sub) {w : Work} (hw : OnTrack s .fin w) : (leaveFin w s).Inv := by
  obtain ⟨-, herr, hcode, htriv⟩ := h.flags.busyClear hb
  have hinfo := h.info_of_busy hb
  rcases hw.fin_cases with ⟨ht, rfl⟩ | ⟨ht, hk, rfl⟩
  · have hdiag : s.diagv = false := h.flags.mulNoDiag hb hsub
    rw [leaveFin_of_trivial s (by simpa using ht)]
    exact ⟨h.mem, { h.regs with res := fitMag_lt _ _ },
      flagInv_complete herr hcode hinfo (by simp [hdiag]), .of_idle rfl rfl hr⟩
  · rw [leaveFin_of_not_trivial s (by simp [ht])]
    exact ⟨memInv_commitBanks h.mem (nttWork_bankLengths hk), { h.regs with res := fitMag_lt _ _ },
      flagInv_complete herr hcode hinfo (by simp [htriv]), .of_idle rfl rfl hr⟩

/-- Moves of MUL keep the invariant. -/
theorem State.Inv.mulOutcome {s t : State} (h : s.Inv) (hr : s.rstN = true) (hb : s.phase ≠ .idle)
    (hd : decode s.cmd = some .mul) (ht : MulOutcome s t) : t.Inv := by
  have hsub : s.phase ≠ .sub := fun hs => (h.seq.path hb).1 hs hd
  cases ht with
  | capped dA dB => exact (h.setDigits hr dA dB).raiseErr hr hb .cap
  | finished w htrack => exact h.leaveFin hr hb hsub (htrack h.onTrack)
  | moved ph w hidle hsub' htrack =>
    obtain ⟨hon, hw⟩ := htrack h.onTrack
    exact
      { mem := h.mem
        regs := h.regs.congr rfl
        flags := { h.flags with
          busyClear := fun _ => h.flags.busyClear hb
          mulNoDiag := fun _ _ => h.flags.mulNoDiag hb hsub }
        seq :=
          { path := fun _ => iff_of_false hsub' (not_not_intro hd)
            onPath := (onPath_moveTo s ph w ph).symm ▸ hon
            work := (expectedWork_moveTo s ph w ph).symm ▸ hw
            inReset := fun hf => nomatch hr.symm.trans hf } }

theorem State.Inv.seqOutcome {s t : State} (h : s.Inv) (hr : s.rstN = true) (hb : s.phase ≠ .idle)
    (ht : SeqOutcome s t) : t.Inv := by
  cases ht with
  | mul hd ht => exact h.mulOutcome hr hb hd ht
  | other hd ht => exact h.commandEnd hr hb ht

/-! ### Host writes and the reset input -/

/-- A write to an idle engine that leaves flags, phase, command and working values alone. -/
theorem State.Inv.idle_update {s t : State} (h : s.Inv) (hr : t.rstN = true) (hidle : s.phase = .idle)
    (hflags : flagFields t = flagFields s) (hwork : t.work = s.work) (hmem : MemInv t.cfg t.mem)
    (hregs : RegInv t) : t.Inv := by
  have hflags' := hflags
  simp only [flagFields, Prod.mk.injEq] at hflags'
  obtain ⟨-, -, -, -, -, hphase, -⟩ := hflags'
  exact ⟨hmem, hregs, h.flags.congr hflags,
    .of_idle (hphase.trans hidle) (hwork.trans (h.work_of_idle hidle)) hr⟩

/-- The write of STATUS clears events only, so what an event implies still holds. -/
theorem FlagInv.ackStatus {s : State} (h : FlagInv s) (v : Word) : FlagInv (ackStatus v s) where
  notBoth := by
    rintro ⟨hd, he⟩
    exact h.notBoth ⟨(Bool.and_eq_true_iff.1 hd).1, (Bool.and_eq_true_iff.1 he).1⟩
  errCode he := h.errCode (Bool.and_eq_true_iff.1 he).1
  doneCode hd := h.doneCode (Bool.and_eq_true_iff.1 hd).1
  info := h.info
  busyClear hb := by
    obtain ⟨hd, he, hrest⟩ := h.busyClear hb
    exact ⟨by simp [hd], by simp [he], hrest⟩
  trivNoDiag := h.trivNoDiag
  mulNoDiag := h.mulNoDiag

/-- Acceptance clears the event state (43_orchestrator.md R213). -/
theorem flagInv_accept (c : Word) (s : State) : FlagInv (accept c s) where
  notBoth h := by simp at h
  errCode h := by simp at h
  doneCode h := by simp at h
  info _ := ⟨rfl, rfl⟩
  busyClear _ := ⟨rfl, rfl, rfl, rfl⟩
  trivNoDiag h := by simp at h
  mulNoDiag _ hsub := by
    have hd : decode c = some .mul := by
      by_contra hd
      exact hsub (if_neg hd)
    simp [hd]

/-- Acceptance enters SIGN for MUL and SUB for every other word (43_orchestrator.md R213). -/
theorem seqInv_accept {c : Word} {s : State} (hr : s.rstN = true) : SeqInv (accept c s) := by
  have hrst : (accept c s).rstN = false → resetEngine (accept c s) = accept c s :=
    fun hf => nomatch hr.symm.trans hf
  by_cases hd : decode c = some .mul
  · have hp : (accept c s).phase = .sign := if_pos hd
    exact ⟨fun _ => by simp [hd], by rw [hp]; trivial, by rw [hp]; rfl, hrst⟩
  · have hp : (accept c s).phase = .sub := if_neg hd
    exact ⟨fun _ => by simp [hd], by rw [hp]; trivial, by rw [hp]; rfl, hrst⟩

theorem State.Inv.writeEffect {s t : State} (h : s.Inv) (hr : s.rstN = true)
    (ht : WriteEffect s t) : t.Inv := by
  cases ht with
  | nothing => exact h
  | reset => exact inv_resetOf _ _ _ _
  | ctrl v => exact ⟨h.mem, h.regs.congr rfl, h.flags.congr rfl, h.seq.congr hr rfl⟩
  | status v => exact ⟨h.mem, h.regs.congr rfl, h.flags.ackStatus v, h.seq.congr hr rfl⟩
  | cmd v hidle => exact ⟨h.mem, h.regs.congr rfl, flagInv_accept v s, seqInv_accept hr⟩
  | kcfg v hidle => exact h.idle_update hr hidle rfl rfl h.mem (h.regs.congr rfl)
  | opsign v hidle => exact h.idle_update hr hidle rfl rfl h.mem (h.regs.congr rfl)
  | rx j v hidle => exact h.idle_update hr hidle rfl rfl h.mem { h.regs with rx := fitElem_lt _ _ }
  | ry j v hidle => exact h.idle_update hr hidle rfl rfl h.mem { h.regs with ry := fitElem_lt _ _ }
  | opa j v hidle => exact h.idle_update hr hidle rfl rfl h.mem { h.regs with opa := fitMag_lt _ _ }
  | opb j v hidle => exact h.idle_update hr hidle rfl rfl h.mem { h.regs with opb := fitMag_lt _ _ }
  | bank b i j v hidle hb hi hj =>
    exact ⟨memInv_writeWord v h.mem hb hi hj, h.regs.congr rfl,
      { h.flags with trivNoDiag := by simp, mulNoDiag := fun _ _ => rfl,
                     busyClear := fun hb => absurd hidle hb },
      .of_idle hidle (h.work_of_idle hidle) hr⟩

theorem State.Inv.driveReset {s : State} (h : s.Inv) (level : Bool) : (driveReset level s).Inv := by
  unfold Machine.driveReset
  split
  · exact h
  · exact inv_resetOf _ _ _ _

/-- Every effect of a step keeps the invariant. -/
theorem State.Inv.stepEffect {s t : State} (h : s.Inv) (ht : StepEffect s t) : t.Inv := by
  cases ht with
  | nothing => exact h
  | write hr ht => exact h.writeEffect hr ht
  | command hr hb ht => exact h.seqOutcome hr hb ht
  | pin level => exact h.driveReset level

/-- Settles O56: both are reset states at some pin level, inputs and response. -/
theorem resetMeetsInvariant : Obligations.ResetMeetsInvariant :=
  ⟨inv_resetOf _ _ _ _, fun c => inv_resetOf c _ _ _⟩

/-- Settles O57, by the cases of `step_effect`. -/
theorem stepKeepsInvariant : Obligations.StepKeepsInvariant := by
  intro s t h hstep
  obtain ⟨rest, u, r, hu, rfl⟩ := step_effect hstep
  exact ((h.withInputs rest).stepEffect hu).respond r

end Sys2Proof.Machine
end

section
/-! SUPPORT. Host accesses by the register they name, and the settled statements of 10_state.md that they
give. -/

namespace Sys2Proof.Machine

/-! ### Accesses by target -/

theorem answers_read_of_target {s : State} {a v : Word} {tg : Target} (hr : s.rstN = true)
    (ht : accessTarget s.cfg .w32 a = tg) (hn : readRefused s.busy tg = false)
    (hv : targetWord s tg = some v) : Answers s (.read .w32 a) (s.respond (.data v)) :=
  answers_read hr (ht ▸ hn) (ht ▸ hv)

theorem answers_write_of_target {s : State} {a v : Word} {tg : Target} (hr : s.rstN = true)
    (ht : accessTarget s.cfg .w32 a = tg) (hn : writeRefused s.busy tg = false) :
    Answers s (.write .w32 a v) ((writeTarget s v tg).respond .ok) :=
  ht ▸ answers_write hr (ht.symm ▸ hn)

/-- A read of a control or status register is never refused (20_memory.md R79). -/
theorem readRefused_control {tg : Target} (busy : Bool) (h : tg ≠ .reserved)
    (hd : tg.isData = false) : readRefused busy tg = false := by
  simp [readRefused, h, hd]

/-- An idle engine refuses a write of a reserved address only (20_memory.md R77). -/
theorem writeRefused_idle {s : State} {tg : Target} (hp : s.phase = .idle) (h : tg ≠ .reserved) :
    writeRefused s.busy tg = false := by
  simp [writeRefused, State.busy, hp, h]

/-- An idle engine refuses a read of a reserved address only (20_memory.md R77). -/
theorem readRefused_idle {s : State} {tg : Target} (hp : s.phase = .idle) (h : tg ≠ .reserved) :
    readRefused s.busy tg = false := by
  simp [readRefused, State.busy, hp, h]

/-- A read of a control or status register answers its word, idle or busy. -/
theorem answers_read_control {s : State} {a v : Word} {tg : Target} (hr : s.rstN = true)
    (ht : accessTarget s.cfg .w32 a = tg) (h : tg ≠ .reserved) (hd : tg.isData = false)
    (hv : targetWord s tg = some v) : Answers s (.read .w32 a) (s.respond (.data v)) :=
  answers_read_of_target hr ht (readRefused_control _ h hd) hv

/-! ### The register words (10_state.md R21 to R40) -/

theorem bit_eq_toNat (b : Bool) : bit b = b.toNat := by cases b <;> rfl

theorem param0Word_eq (c : Config) : param0Word c = BitVec.ofNat 32 (c.lkmax + 0x04030600) := by
  simp only [param0Word, Nat.add_assoc, Nat.reducePow, Nat.reduceMul, Nat.reduceAdd]

theorem ctrlWord_eq (s : State) :
    s.ctrlWord = BitVec.ofNat 32 (s.ie.toNat + 2 * s.diagEn.toNat) := by
  simp only [State.ctrlWord, bit_eq_toNat, Nat.mul_comm]

theorem bit_busy (s : State) : bit s.busy = if s.phase = .idle then 0 else 1 := by
  by_cases h : s.phase = .idle <;> simp [State.busy, bit, h]

theorem statusWord_eq (s : State) :
    s.statusWord = BitVec.ofNat 32 ((if s.phase = .idle then 0 else 1) + 2 * s.done.toNat +
      4 * s.err.toNat + 8 * s.diagv.toNat + 16 * s.triv.toNat + 2 ^ 8 * s.ecode.code +
      2 ^ 12 * s.phase.code) := by
  rw [State.statusWord, bit_busy]
  simp only [bit_eq_toNat, Nat.mul_comm, Nat.reducePow]

theorem kcfgWord_eq (s : State) : s.kcfgWord = BitVec.ofNat 32 s.klog2.toNat :=
  (BitVec.ofNat_toNat 32 s.klog2).symm

theorem opsignWord_eq (s : State) :
    s.opsignWord = BitVec.ofNat 32 (s.aneg.toNat + 2 * s.bneg.toNat) := by
  simp only [State.opsignWord, bit_eq_toNat, Nat.mul_comm]

theorem resinfoWord_eq (s : State) : s.resinfoWord = BitVec.ofNat 32 s.resNeg.toNat := by
  rw [State.resinfoWord, bit_eq_toNat]

theorem digitsWord_eq (s : State) :
    s.digitsWord = BitVec.ofNat 32 (s.da.toNat + 2 ^ 16 * s.db.toNat) := by
  apply BitVec.eq_of_toNat_eq
  have hda := s.da.isLt
  have hdb := s.db.isLt
  rw [State.digitsWord, BitVec.toNat_append, BitVec.toNat_ofNat, Nat.shiftLeft_eq,
    Nat.mul_comm, ← Nat.two_pow_add_eq_or_of_lt hda]
  omega

theorem errinfoWord_eq (s : State) :
    s.errinfoWord = BitVec.ofNat 32 (s.errIdx.toNat + 2 ^ 16 * s.errSrc.code) := by
  rw [State.errinfoWord, Nat.mul_comm]

/-- Settles O46: each register's word in the spec's layout, read without regard to BUSY. -/
theorem controlRegisterReads : Obligations.ControlRegisterReads := by
  refine ⟨rfl, rfl, rfl, fun s hr => ⟨?_, ?_, ?_, ?_, ?_, ?_, ?_, ?_, ?_, ?_, ?_⟩⟩
  · exact answers_read_control (tg := .id) hr rfl (by simp) rfl rfl
  · exact answers_read_control (tg := .param0) hr rfl (by simp) rfl
      (congrArg some (param0Word_eq s.cfg))
  · exact answers_read_control (tg := .param1) hr rfl (by simp) rfl rfl
  · exact answers_read_control (tg := .ctrl) hr rfl (by simp) rfl (congrArg some (ctrlWord_eq s))
  · exact answers_read_control (tg := .status) hr rfl (by simp) rfl
      (congrArg some (statusWord_eq s))
  · exact answers_read_control (tg := .cmd) hr rfl (by simp) rfl rfl
  · exact answers_read_control (tg := .kcfg) hr rfl (by simp) rfl (congrArg some (kcfgWord_eq s))
  · exact answers_read_control (tg := .opsign) hr rfl (by simp) rfl
      (congrArg some (opsignWord_eq s))
  · exact answers_read_control (tg := .resinfo) hr rfl (by simp) rfl
      (congrArg some (resinfoWord_eq s))
  · exact answers_read_control (tg := .digits) hr rfl (by simp) rfl
      (congrArg some (digitsWord_eq s))
  · exact answers_read_control (tg := .errinfo) hr rfl (by simp) rfl
      (congrArg some (errinfoWord_eq s))

/-! ### Writes of the control and status registers -/

/-- A write of STATUS keeps an event bit or clears it (10_state.md R33). -/
theorem ackStatus_eq (v : Word) (s : State) :
    ackStatus v s = { s with
      done := if v.getLsbD 1 = true then false else s.done
      err := if v.getLsbD 2 = true then false else s.err } := by
  unfold ackStatus
  cases v.getLsbD 1 <;> cases v.getLsbD 2 <;> simp

/-- STATUS and CTRL can be written while busy (20_memory.md R79). -/
theorem writeRefused_status (busy : Bool) : writeRefused busy .status = false := by
  simp [writeRefused, Target.isData]

theorem writeRefused_ctrl (busy : Bool) : writeRefused busy .ctrl = false := by
  simp [writeRefused, Target.isData]

/-- The effect of a write of CTRL, idle or busy. -/
theorem answers_write_ctrl {s : State} (v : Word) (hr : s.rstN = true) :
    Answers s (.write .w32 0x00C v) ((writeCtrl v s).respond .ok) :=
  answers_write_of_target (tg := .ctrl) hr rfl (writeRefused_ctrl s.busy)

/-- Settles O47: STATUS is written while idle and while busy. -/
theorem statusWriteClearsEvents : Obligations.StatusWriteClearsEvents := by
  intro s v hr
  have h : Answers s (.write .w32 0x010 v) ((ackStatus v s).respond .ok) :=
    answers_write_of_target (tg := .status) hr rfl (writeRefused_status s.busy)
  rwa [ackStatus_eq] at h

/-- Settles O48. -/
theorem controlWrite : Obligations.ControlWrite := by
  intro s v hr hv
  have h := answers_write_ctrl v hr
  rwa [writeCtrl, if_neg (Bool.eq_false_iff.1 hv)] at h

theorem writeKcfg_eq (v : Word) (s : State) :
    writeKcfg v s = { s with klog2 := BitVec.ofNat 5 (v.toNat % 32) } := by
  have hk : v.setWidth 5 = BitVec.ofNat 5 (v.toNat % 32) := BitVec.eq_of_toNat_eq (by simp)
  rw [writeKcfg, hk]

/-- Settles O53. -/
theorem lengthAndSignWrites : Obligations.LengthAndSignWrites := by
  intro s v hr hp
  have hk : Answers s (.write .w32 0x018 v) ((writeKcfg v s).respond .ok) :=
    answers_write_of_target (tg := .kcfg) hr rfl (writeRefused_idle hp (by simp))
  rw [writeKcfg_eq] at hk
  exact ⟨hk, answers_write_of_target (tg := .opsign) hr rfl (writeRefused_idle hp (by simp))⟩

/-! ### Reset -/

/-- A soft reset while reset is released leaves the reset state (70_reset_and_hazards.md R282). -/
theorem softReset_eq {s : State} (hr : s.rstN = true) :
    softReset s = { State.resetOf s.cfg with inputs := s.inputs, resp := s.resp } := by
  rw [softReset, resetEngine, hr]
  rfl

/-- The release of the reset input leaves the reset state (70_reset_and_hazards.md R281). -/
theorem driveReset_release {s : State} (hr : s.rstN = false) :
    driveReset true s = { State.resetOf s.cfg with inputs := s.inputs, resp := s.resp } := by
  rw [driveReset, hr]
  rfl

/-- Settles O49. -/
theorem resetValues : Obligations.ResetValues := by
  refine ⟨fun c => ⟨State.resetOf c, rfl, ?_⟩, fun s v hr hv => ?_, fun s => ⟨fun rest => rfl, ?_⟩⟩
  · simp [targetWord, State.resetOf, State.busy, State.irq, readByte, idWord]
  · have h := answers_write_ctrl v hr
    rw [writeCtrl, if_pos hv, softReset_eq hr] at h
    exact h
  · intro hr rest
    exact congrArg Host.Outcome.next (driveReset_release (s := s.withInputs rest) hr)

/-! ### The CMD register -/

/-- No turn of the sequencer writes CMD (10_state.md R34). -/
theorem CommandEnd.keeps_cmd {s t : State} (h : CommandEnd s t) : t.cmd = s.cmd := by
  cases h with
  | completed hu => cases hu <;> rfl
  | erred e => rfl

theorem MulOutcome.keeps_cmd {s t : State} (h : MulOutcome s t) : t.cmd = s.cmd := by
  cases h with
  | moved ph w hidle hsub htrack => rfl
  | finished w htrack => unfold leaveFin; split <;> rfl
  | capped dA dB => rfl

theorem SeqOutcome.keeps_cmd {s t : State} (h : SeqOutcome s t) : t.cmd = s.cmd := by
  cases h with
  | mul hd ht => exact ht.keeps_cmd
  | other hd ht => exact ht.keeps_cmd

/-- An accepted command leaves IDLE (43_orchestrator.md R213). -/
theorem accept_phase_ne_idle (c : Word) (s : State) : (accept c s).phase ≠ .idle := by
  rw [accept_phase]
  split <;> simp

/-- A write of CMD is refused while a command runs (20_memory.md R79). -/
theorem writeRefused_cmd_busy {s : State} (hp : s.phase ≠ .idle) :
    writeRefused s.busy .cmd = true := by
  simp [writeRefused, State.busy, hp]

/-- Settles O8. -/
theorem commandRegister : Obligations.CommandRegister := by
  refine ⟨fun s c hr hp => ?_, fun s c hr hp => ?_, fun s hr => ?_, fun s t hin h => ?_,
    fun c => rfl⟩
  · exact ⟨_, answers_write_of_target (tg := .cmd) hr rfl (writeRefused_idle hp (by simp)), rfl,
      accept_phase_ne_idle c s⟩
  · exact answers_write_refused hr (writeRefused_cmd_busy hp)
  · exact answers_read_control (tg := .cmd) hr rfl (by simp) rfl rfl
  · rcases step_without_input hin h with rfl | ⟨-, hout⟩
    · rfl
    · exact hout.keeps_cmd

end Sys2Proof.Machine
end

section
/-! SUPPORT. The windows of the multi-word registers, and what a write of one word leaves in a register
(20_memory.md R72; 10_state.md R41, R45, R47). -/

namespace Sys2Proof.Machine

/-! ### The windows (20_memory.md R71, R72) -/

theorem nwm_le (c : Config) : nwmOf c ≤ 1024 :=
  config_cases (fun c => nwmOf c ≤ 1024) (by decide +kernel) c

theorem eww_le (c : Config) : ewwOf c ≤ 1024 :=
  config_cases (fun c => ewwOf c ≤ 1024) (by decide +kernel) c

theorem windowTarget_word (mk : Nat → Target) (base : Nat) {n j : Nat} (h : j < n) :
    windowTarget mk base n (base + 4 * j) = mk j := by
  simp [windowTarget, h]

/-- The target of word j of a window, from that of its byte address. -/
theorem accessTarget_word {c : Config} {base j : Nat} {tg : Target} (hb : base ≤ 0xC000)
    (h4 : base % 4 = 0) (hj : j < 1024) (h : target c (base + 4 * j) = tg) :
    accessTarget c .w32 (BitVec.ofNat 32 (base + 4 * j)) = tg :=
  (accessTarget_ofNat c (by omega) (by omega)).trans h

section
variable {c : Config} {j : Nat}

theorem accessTarget_rx (h : j < ewwOf c) :
    accessTarget c .w32 (BitVec.ofNat 32 (0x1000 + 4 * j)) = .rx j := by
  have hj : j < 1024 := h.trans_le (eww_le c)
  refine accessTarget_word (by omega) (by omega) hj ?_
  rw [target, if_neg (by omega), if_pos (by omega), windowTarget_word _ _ h]

theorem accessTarget_ry (h : j < ewwOf c) :
    accessTarget c .w32 (BitVec.ofNat 32 (0x2000 + 4 * j)) = .ry j := by
  have hj : j < 1024 := h.trans_le (eww_le c)
  refine accessTarget_word (by omega) (by omega) hj ?_
  rw [target, if_neg (by omega), if_neg (by omega), if_pos (by omega), windowTarget_word _ _ h]

theorem accessTarget_rz (h : j < ewwOf c) :
    accessTarget c .w32 (BitVec.ofNat 32 (0x3000 + 4 * j)) = .rz j := by
  have hj : j < 1024 := h.trans_le (eww_le c)
  refine accessTarget_word (by omega) (by omega) hj ?_
  rw [target, if_neg (by omega), if_neg (by omega), if_neg (by omega), if_pos (by omega),
    windowTarget_word _ _ h]

theorem accessTarget_opa (h : j < nwmOf c) :
    accessTarget c .w32 (BitVec.ofNat 32 (0x4000 + 4 * j)) = .opa j := by
  have hj : j < 1024 := h.trans_le (nwm_le c)
  refine accessTarget_word (by omega) (by omega) hj ?_
  rw [target, if_neg (by omega), if_neg (by omega), if_neg (by omega), if_neg (by omega),
    if_pos (by omega), windowTarget_word _ _ h]

theorem accessTarget_opb (h : j < nwmOf c) :
    accessTarget c .w32 (BitVec.ofNat 32 (0x8000 + 4 * j)) = .opb j := by
  have hj : j < 1024 := h.trans_le (nwm_le c)
  refine accessTarget_word (by omega) (by omega) hj ?_
  rw [target, if_neg (by omega), if_neg (by omega), if_neg (by omega), if_neg (by omega),
    if_neg (by omega), if_pos (by omega), windowTarget_word _ _ h]

theorem accessTarget_res (h : j < nwmOf c) :
    accessTarget c .w32 (BitVec.ofNat 32 (0xC000 + 4 * j)) = .res j := by
  have hj : j < 1024 := h.trans_le (nwm_le c)
  refine accessTarget_word (by omega) (by omega) hj ?_
  rw [target, if_neg (by omega), if_neg (by omega), if_neg (by omega), if_neg (by omega),
    if_neg (by omega), if_neg (by omega), if_pos (by omega), windowTarget_word _ _ h]

end

/-! ### Accesses of an idle engine -/

theorem answers_read_idle {s : State} {a v : Word} {tg : Target} (hr : s.rstN = true)
    (hp : s.phase = .idle) (h : tg ≠ .reserved) (ht : accessTarget s.cfg .w32 a = tg)
    (hv : targetWord s tg = some v) : Answers s (.read .w32 a) (s.respond (.data v)) :=
  answers_read_of_target hr ht (readRefused_idle hp h) hv

theorem answers_write_idle {s : State} {a v : Word} {tg : Target} (hr : s.rstN = true)
    (hp : s.phase = .idle) (h : tg ≠ .reserved) (ht : accessTarget s.cfg .w32 a = tg) :
    Answers s (.write .w32 a v) ((writeTarget s v tg).respond .ok) :=
  answers_write_of_target hr ht (writeRefused_idle hp h)

/-! ### A register after a write of one of its words -/

/-- Every word of a magnitude register exists whole, so a write replaces it (10_state.md R41). -/
theorem fitMag_putWord (c : Config) (r : Nat) (v : Word) {j : Nat} (hj : j < nwmOf c) :
    fitMag c (putWord r j v) < 2 ^ magwOf c ∧ wordOf (fitMag c (putWord r j v)) j = v ∧
      ∀ k < nwmOf c, k ≠ j → wordOf (fitMag c (putWord r j v)) k = wordOf r k := by
  have hword : ∀ k < nwmOf c,
      wordOf (fitMag c (putWord r j v)) k = wordOf (putWord r j v) k := fun k hk => by
    unfold fitMag
    exact wordOf_mod_low (by unfold magwOf; omega)
  refine ⟨fitMag_lt _ _, ?_, fun k hk hne => ?_⟩
  · rw [hword j hj, wordOf_putWord_same]
  · rw [hword k hk, wordOf_putWord_other v hne]

/-- A write of a word of an element register keeps the bits below EW (10_state.md R45, R47). -/
theorem fitElem_putWord {c : Config} {r : Nat} (hr : r < 2 ^ ewOf c) (v : Word) (j : Nat) :
    fitElem c (putWord r j v) < 2 ^ ewOf c ∧
      wordOf (fitElem c (putWord r j v)) j = BitVec.ofNat 32 (v.toNat % 2 ^ (ewOf c - 32 * j)) ∧
      ∀ k < ewwOf c, k ≠ j → wordOf (fitElem c (putWord r j v)) k = wordOf r k := by
  have hword : ∀ x k, wordOf (fitElem c x) k =
      BitVec.ofNat 32 ((wordOf x k).toNat % 2 ^ (ewOf c - 32 * k)) := fun x k => by
    unfold fitElem
    exact wordOf_mod x k _
  have hfit : fitElem c r = r := by
    unfold fitElem
    exact Nat.mod_eq_of_lt hr
  refine ⟨fitElem_lt _ _, ?_, fun k _ hne => ?_⟩
  · rw [hword, wordOf_putWord_same]
  · rw [hword, wordOf_putWord_other v hne, ← hword, hfit]

/-- Settles O50. -/
theorem operandRegisterWords : Obligations.OperandRegisterWords := by
  intro s v j hr hp hreg
  refine ⟨fun hj => ⟨?_, ?_, ?_, ?_, ?_⟩, fun hj => ⟨?_, ?_, ?_, ?_, ?_⟩⟩
  · exact ⟨_, answers_write_idle hr hp (by simp) (accessTarget_opa hj),
      fitMag_putWord s.cfg s.opa v hj⟩
  · exact ⟨_, answers_write_idle hr hp (by simp) (accessTarget_opb hj),
      fitMag_putWord s.cfg s.opb v hj⟩
  · exact answers_read_idle hr hp (by simp) (accessTarget_opa hj) rfl
  · exact answers_read_idle hr hp (by simp) (accessTarget_opb hj) rfl
  · exact answers_read_idle hr hp (by simp) (accessTarget_res hj) rfl
  · exact ⟨_, answers_write_idle hr hp (by simp) (accessTarget_rx hj),
      fitElem_putWord hreg.rx v j⟩
  · exact ⟨_, answers_write_idle hr hp (by simp) (accessTarget_ry hj),
      fitElem_putWord hreg.ry v j⟩
  · exact answers_read_idle hr hp (by simp) (accessTarget_rx hj) rfl
  · exact answers_read_idle hr hp (by simp) (accessTarget_ry hj) rfl
  · exact answers_read_idle hr hp (by simp) (accessTarget_rz hj) rfl

end Sys2Proof.Machine
end

section
/-! SUPPORT. Unwritten bank elements, and which step sets DIAGV and TRIV (10_state.md R29, R30, R55). -/

namespace Sys2Proof.Machine

/-! ### An unwritten source element stops the model (10_state.md R55) -/

theorem checkBank_stop {s : State} {b : Bank} {src : ErrSrc} {n i : Nat}
    (h : FirstUnwritten s b n i) :
    checkBank s b src n = .stop (.commandReadUnwritten b i) := by
  obtain ⟨hi, hok, hnone⟩ := h
  have hstop := checkElems_stop (s := s) (b := b) (src := src) (p := modulusOf n) (i := 0) hi
    (by simp only [Nat.zero_add]; exact hok) (by rwa [Nat.zero_add])
  rwa [Nat.zero_add] at hstop

theorem prologueVec1_stop {s : State} {bs : List Bank} {rs1 : Bank} {i : Nat}
    (hb : bs.all Bank.valid = true) (h : s.klog2.toNat ≤ s.cfg.lkmax)
    (h1 : FirstUnwritten s rs1 s.klog2.toNat i) :
    prologueVec1 s bs rs1 = .stop (.commandReadUnwritten rs1 i) := by
  rw [prologueVec1, prologueK_ok hb h, Check.bind_pass, checkBank_stop h1, Check.bind_stop]

/-- The first source is checked first, whatever the second holds (60_exceptions.md R260). -/
theorem prologueVec2_stop_first {s : State} {bs : List Bank} {rs1 rs2 : Bank} {i : Nat}
    (hb : bs.all Bank.valid = true) (h : s.klog2.toNat ≤ s.cfg.lkmax)
    (h1 : FirstUnwritten s rs1 s.klog2.toNat i) :
    prologueVec2 s bs rs1 rs2 = .stop (.commandReadUnwritten rs1 i) := by
  rw [prologueVec2, prologueVec1_stop hb h h1, Check.bind_stop]

theorem prologueVec2_stop_second {s : State} {bs : List Bank} {rs1 rs2 : Bank} {xs : List Nat}
    {i : Nat} (hb : bs.all Bank.valid = true) (h : s.klog2.toNat ≤ s.cfg.lkmax)
    (h1 : RingSource s rs1 s.klog2.toNat xs) (h2 : FirstUnwritten s rs2 s.klog2.toNat i) :
    prologueVec2 s bs rs1 rs2 = .stop (.commandReadUnwritten rs2 i) := by
  rw [prologueVec2, prologueVec1_ok hb h h1, Check.bind_pass, checkBank_stop h2, Check.bind_stop]

/-- A pointwise command stops where its prologue does. -/
theorem pointwise_stop {s : State} {rd rs1 rs2 : Bank} {f : Fault}
    (h : prologueVec2 s [rd, rs1, rs2] rs1 rs2 = .stop f) :
    ∀ i ∈ [Instr.padd rd rs1 rs2, .psub rd rs1 rs2, .pmul rd rs1 rs2], exec i s = .fault f := by
  have hall : ∀ op, execPointwise op rd rs1 rs2 s = .fault f := fun op => by
    rw [execPointwise, h, Check.finish_stop]
  intro i hi
  simp only [List.mem_cons, List.not_mem_nil, or_false] at hi
  rcases hi with rfl | rfl | rfl
  · exact hall radd
  · exact hall rsub
  · exact hall rmul

/-- A transform command or SCAL stops where its prologue does. -/
theorem transform_stop {s : State} {rd rs1 : Bank} {f : Fault}
    (h : prologueVec1 s [rd, rs1] rs1 = .stop f) :
    ∀ i ∈ [Instr.nttf rd rs1, .ntti rd rs1, .nttw rd rs1, .scal rd rs1], exec i s = .fault f := by
  intro i hi
  simp only [List.mem_cons, List.not_mem_nil, or_false] at hi
  rcases hi with rfl | rfl | rfl | rfl
  · rw [exec, execNttf, h, Check.finish_stop]
  · rw [exec, execNtti, h, Check.finish_stop]
  · rw [exec, execNttw, prologueNttw, h, Check.bind_stop, Check.finish_stop]
  · rw [exec, execScal, h, Check.finish_stop]

/-- Settles O40. -/
theorem unwrittenElementFaults : Obligations.UnwrittenElementFaults := by
  rintro s rd rs1 rs2 n rfl hn hrd hrs1 hrs2
  have hvalid : ∀ b : Bank, b.toNat ≤ 5 → b.valid = true := fun b hb => decide_eq_true hb
  have h1 : [rs1].all Bank.valid = true := by simp [hvalid, hrs1]
  have h2 : [rd, rs1].all Bank.valid = true := by simp [hvalid, hrd, hrs1]
  have h3 : [rd, rs1, rs2].all Bank.valid = true := by simp [hvalid, hrd, hrs1, hrs2]
  refine ⟨fun j hj i hi => ?_, fun xs j hx hj =>
    pointwise_stop (prologueVec2_stop_second h3 hn hx hj)⟩
  have hsplit : i = .dec rs1 ∨
      i ∈ [Instr.nttf rd rs1, .ntti rd rs1, .nttw rd rs1, .scal rd rs1] ∨
      i ∈ [Instr.padd rd rs1 rs2, .psub rd rs1 rs2, .pmul rd rs1 rs2] := by
    simpa only [List.mem_cons, List.not_mem_nil, or_false, or_assoc] using hi
  rcases hsplit with rfl | hi | hi
  · rw [exec, execDec, prologueVec1_stop h1 hn hj, Check.finish_stop]
  · exact transform_stop (prologueVec1_stop h2 hn hj) i hi
  · exact pointwise_stop (prologueVec2_stop_first h3 hn hj) i hi

/-! ### DIAGV and TRIV (10_state.md R29, R30) -/

/-- The result flags of t are no further up than those of s. -/
def FlagsNotRaised (s t : State) : Prop :=
  (s.diagv = false → t.diagv = false) ∧ (s.triv = false → t.triv = false)

theorem FlagsNotRaised.of_writeEffect {s t : State} (h : WriteEffect s t) : FlagsNotRaised s t := by
  cases h with
  | reset => exact ⟨fun _ => rfl, fun _ => rfl⟩
  | cmd v hidle => exact ⟨fun h => by simp [h], fun _ => rfl⟩
  | bank b i j v hidle hb hi hj => exact ⟨fun _ => rfl, id⟩
  | _ => exact ⟨id, id⟩

theorem FlagsNotRaised.of_commandEnd {s t : State} (h : CommandEnd s t) : FlagsNotRaised s t := by
  cases h with
  | completed hu => cases hu <;> exact ⟨id, id⟩
  | erred e => exact ⟨id, id⟩

theorem FlagsNotRaised.of_driveReset (level : Bool) (s : State) :
    FlagsNotRaised s (driveReset level s) := by
  unfold driveReset
  split
  · exact ⟨id, id⟩
  · exact ⟨fun _ => rfl, fun _ => rfl⟩

/-- A step raises neither flag, or it is the completion of a MUL in flight. -/
theorem StepEffect.flags_or_completion {s t : State} (h : StepEffect s t) :
    FlagsNotRaised s t ∨
      s.rstN = true ∧ s.phase ≠ .idle ∧ decode s.cmd = some .mul ∧
        ∃ w, t = leaveFin w s ∧ (OnTrack s s.phase s.work → OnTrack s .fin w) := by
  cases h with
  | nothing => exact .inl ⟨id, id⟩
  | write hr ht => exact .inl (.of_writeEffect ht)
  | pin level => exact .inl (.of_driveReset level s)
  | command hr hb ht =>
    cases ht with
    | other hd ht => exact .inl (.of_commandEnd ht)
    | mul hd ht =>
      cases ht with
      | moved ph w hidle hsub htrack => exact .inl ⟨id, id⟩
      | capped dA dB => exact .inl ⟨id, id⟩
      | finished w htrack => exact .inr ⟨hr, hb, hd, w, rfl, htrack⟩

/-- The working values of the last move name the path that the digit counts choose
(43_orchestrator.md R221). -/
theorem OnTrack.fin_trivial {s : State} {w : Work} (h : OnTrack s .fin w) :
    w.trivial = true ↔ digitCount s.opa ≤ 3 ∧ digitCount s.opb ≤ 3 := by
  have hw : w.trivial = (signWork s).trivial := by
    rcases h.fin_cases with ⟨-, rfl⟩ | ⟨-, -, rfl⟩ <;> simp
  rw [hw]
  exact decide_eq_true_iff

/-- Settles O22: only a completing MUL raises either flag, and its path says which. -/
theorem onlyMulSetsDiagvAndTriv : Obligations.OnlyMulSetsDiagvAndTriv := by
  intro s t hstep
  obtain ⟨rest, u, r, hu, rfl⟩ := step_effect hstep
  rcases hu.flags_or_completion with ⟨hdiagv, htriv⟩ | ⟨hr, hb, hd, w, rfl, htrack⟩
  · exact ⟨fun h0 h1 => absurd (hdiagv h0) (by simpa using h1),
      fun h0 h1 => absurd (htriv h0) (by simpa using h1)⟩
  · have hpath : s.Inv → (w.trivial = true ↔ digitCount s.opa ≤ 3 ∧ digitCount s.opb ≤ 3) :=
      fun hinv => (htrack (hinv.withInputs rest).onTrack).fin_trivial
    by_cases ht : w.trivial = true
    · rw [leaveFin_of_trivial _ ht]
      exact ⟨fun h0 h1 => absurd h0 (by simpa using h1),
        fun _ _ => ⟨hd, hr, hb, rfl, rfl, fun hinv => (hpath hinv).1 ht⟩⟩
    · rw [leaveFin_of_not_trivial _ ht]
      exact ⟨fun _ h1 => ⟨hd, hr, hb, h1, rfl, rfl, fun hinv hc => ht ((hpath hinv).2 hc)⟩,
        fun h0 h1 => absurd h0 (by simpa using h1)⟩

end Sys2Proof.Machine
end

section
/-! SUPPORT. A product of two nonzero operands is never returned as 0 (10_state.md R44). The product of
the operands' digit sums, which p does not divide, is element 0 of the pointwise product of their
transforms; only the zero vector has the zero transform, so the digit vector of the result is not all
0. -/

namespace Sys2Proof.Machine

/-! ### Units modulo p -/

theorem coprime_mod_left {a p : Nat} (h : Nat.Coprime a p) : Nat.Coprime (a % p) p :=
  (Nat.mod_modEq a p).gcd_eq.trans h

theorem eq_zero_of_rmul_eq_zero {p u x : Nat} (hu : Nat.Coprime u p) (hx : x < p)
    (h : rmul p u x = 0) : x = 0 :=
  Nat.eq_zero_of_dvd_of_lt (hu.symm.dvd_of_dvd_mul_left (Nat.dvd_of_mod_eq_zero h)) hx

theorem two_coprime_modulusOf (n : Nat) : Nat.Coprime 2 (modulusOf n) :=
  Nat.coprime_two_left.2 (Nat.odd_iff.2 (modulusOf_odd n))

theorem inverseRoot_coprime (n : Nat) : Nat.Coprime (inverseRoot n) (modulusOf n) :=
  coprime_mod_left ((two_coprime_modulusOf n).pow_left _)

theorem scaleFactor_coprime (n : Nat) : Nat.Coprime (scaleFactor n) (modulusOf n) := by
  refine Nat.coprime_of_mul_modEq_one (2 ^ n) ?_
  have hp := two_lt_modulusOf n
  rw [Nat.ModEq, Nat.mul_comm, (scaleFactor_spec n).2, Nat.mod_eq_of_lt (by omega)]

/-- Where the sum and the difference of two ring elements are 0, both are: p is odd. -/
theorem eq_zero_of_radd_rsub {p a b : Nat} (hp : p % 2 = 1) (ha : a < p) (hb : b < p)
    (hadd : radd p a b = 0) (hsub : rsub p a b = 0) : a = 0 ∧ b = 0 := by
  have hdvd : (p : Int) ∣ (a : Int) - b :=
    Int.dvd_of_emod_eq_zero (by rw [← rsub_cast (by omega), hsub]; rfl)
  have heq : (a : Int) - b = 0 := Int.eq_zero_of_abs_lt_dvd hdvd (by rw [abs_lt]; omega)
  obtain ⟨q, hq⟩ := Nat.dvd_of_mod_eq_zero hadd
  have hq2 : q < 2 := by
    by_contra hge
    have := Nat.mul_le_mul_left p (show 2 ≤ q by omega)
    omega
  interval_cases q <;> omega

/-! ### A transform that is 0 everywhere (42_ntt.md R182) -/

theorem mem_evens_or_odds {v : List Nat} {x : Nat} (h : x ∈ v) : x ∈ evens v ∨ x ∈ odds v := by
  induction v using evens.induct with
  | case1 => exact .inl h
  | case2 a => exact .inl h
  | case3 a b xs ih =>
    simp only [evens, odds, List.mem_cons] at h ⊢
    tauto

/-- Halves whose sums and differences are all 0 are 0. -/
theorem eq_zero_of_zipWith {p : Nat} {es ts : List Nat} (hp : p % 2 = 1)
    (hl : es.length = ts.length) (he : ∀ x ∈ es, x < p) (ht : ∀ x ∈ ts, x < p)
    (hadd : ∀ x ∈ List.zipWith (radd p) es ts, x = 0)
    (hsub : ∀ x ∈ List.zipWith (rsub p) es ts, x = 0) :
    (∀ x ∈ es, x = 0) ∧ ∀ x ∈ ts, x = 0 := by
  induction es generalizing ts with
  | nil =>
    obtain rfl : ts = [] := List.eq_nil_of_length_eq_zero hl.symm
    simp
  | cons e es ih =>
    cases ts with
    | nil => simp at hl
    | cons t ts =>
      simp only [List.zipWith_cons_cons, List.forall_mem_cons] at he ht hadd hsub ⊢
      obtain ⟨he0, ht0⟩ := eq_zero_of_radd_rsub hp he.1 ht.1 hadd.1 hsub.1
      obtain ⟨hes, hts⟩ := ih (by simpa using hl) he.2 ht.2 hadd.2 hsub.2
      exact ⟨⟨he0, hes⟩, ht0, hts⟩

theorem twiddle_lt {p w i : Nat} {os : List Nat} (hp : 0 < p) : ∀ x ∈ twiddle p w i os, x < p := by
  induction os generalizing i with
  | nil => simp [twiddle]
  | cons o os ih => exact List.forall_mem_cons.2 ⟨rmul_lt hp _ _, ih⟩

theorem twiddle_eq_zero {p w i : Nat} {os : List Nat} (hw : Nat.Coprime w p)
    (ho : ∀ o ∈ os, o < p) (h : ∀ x ∈ twiddle p w i os, x = 0) : ∀ o ∈ os, o = 0 := by
  induction os generalizing i with
  | nil => simp
  | cons o os ih =>
    simp only [twiddle, List.forall_mem_cons] at ho h ⊢
    exact ⟨eq_zero_of_rmul_eq_zero (coprime_mod_left (hw.pow_left i)) ho.1 h.1, ih ho.2 h.2⟩

/-- Only the zero vector has the zero transform, for a root that is a unit. -/
theorem eq_zero_of_transform_eq_zero {p n w : Nat} {v : List Nat} (hp : p % 2 = 1)
    (hw : Nat.Coprime w p) (hl : v.length = 2 ^ n) (hv : ∀ x ∈ v, x < p)
    (h : ∀ x ∈ transform p n w v, x = 0) : ∀ x ∈ v, x = 0 := by
  induction n generalizing w v with
  | zero => exact h
  | succ n ih =>
    obtain ⟨hle, hlo⟩ := evens_odds_length v
    rw [hl, Nat.pow_succ] at hle hlo
    have hw2 : Nat.Coprime (rmul p w w) p := coprime_mod_left (hw.mul_left hw)
    have hve : ∀ x ∈ evens v, x < p := fun x hx => hv x ((mem_evens_odds v x).1 hx)
    have hvo : ∀ x ∈ odds v, x < p := fun x hx => hv x ((mem_evens_odds v x).2 hx)
    have hp0 : 0 < p := by omega
    obtain ⟨hadd, hsub⟩ := List.forall_mem_append.1 h
    obtain ⟨he, ht⟩ := eq_zero_of_zipWith hp
      (by rw [twiddle_length, transform_length _ _ _ _ (by omega),
        transform_length _ _ _ _ (by omega)])
      (transform_lt hp0 n _ _ hve) (twiddle_lt hp0) hadd hsub
    have ho := twiddle_eq_zero hw (transform_lt hp0 n _ _ hvo) ht
    intro x hx
    rcases mem_evens_or_odds hx with hx | hx
    · exact ih hw2 (by omega) hve he x hx
    · exact ih hw2 (by omega) hvo ho x hx

/-! ### Element 0 of a transform (42_ntt.md R182) -/

theorem evens_odds_sum (v : List Nat) : (evens v).sum + (odds v).sum = v.sum := by
  induction v using evens.induct with
  | case1 => rfl
  | case2 a => rfl
  | case3 a b xs ih => simp only [evens, odds, List.sum_cons]; omega

/-- Element 0 is the sum of the vector modulo p, whatever the root. -/
theorem transform_head (p : Nat) {n w : Nat} {v : List Nat} (hl : v.length = 2 ^ n) :
    ∃ x, (transform p n w v)[0]? = some x ∧ x ≡ v.sum [MOD p] := by
  induction n generalizing w v with
  | zero =>
    obtain ⟨a, rfl⟩ := List.length_eq_one_iff.1 hl
    exact ⟨a, rfl, rfl⟩
  | succ n ih =>
    obtain ⟨hle, hlo⟩ := evens_odds_length v
    rw [hl, Nat.pow_succ] at hle hlo
    obtain ⟨e, he, hesum⟩ := ih (w := rmul p w w) (v := evens v) (by omega)
    obtain ⟨o, ho, hosum⟩ := ih (w := rmul p w w) (v := odds v) (by omega)
    refine ⟨radd p e (rmul p (rpow p w 0) o), ?_, ?_⟩
    · have ht : (twiddle p w 0 (transform p n (rmul p w w) (odds v)))[0]? =
          some (rmul p (rpow p w 0) o) := by
        rw [twiddle_getElem?, ho]; rfl
      have hpos : 0 < (List.zipWith (radd p) (transform p n (rmul p w w) (evens v))
          (twiddle p w 0 (transform p n (rmul p w w) (odds v)))).length := by
        rw [List.length_zipWith, twiddle_length, transform_length _ _ _ _ (by omega),
          transform_length _ _ _ _ (by omega), Nat.min_self]
        exact Nat.two_pow_pos n
      rw [transform, butterfly, List.getElem?_append_left hpos, List.getElem?_zipWith, he, ht]
    · rw [← evens_odds_sum v]
      refine (Nat.mod_modEq _ _).trans (hesum.add (Nat.ModEq.trans ?_ hosum))
      simpa [rmul, rpow] using Nat.mod_modEq o p

/-! ### Digit sums -/

theorem digitEncode_sum_le (n k : Nat) : (digitEncode n k).sum ≤ 9 * k := by
  induction k generalizing n with
  | zero => simp [digitEncode]
  | succ k ih =>
    have := ih (n / 10)
    simp only [digitEncode, List.sum_cons]
    omega

theorem digitEncode_sum_pos {n k : Nat} (h0 : 0 < n) (h : n < 10 ^ k) :
    0 < (digitEncode n k).sum := by
  induction k generalizing n with
  | zero => omega
  | succ k ih =>
    simp only [digitEncode, List.sum_cons]
    rcases Nat.eq_zero_or_pos (n / 10) with hd | hd
    · omega
    · have := ih hd (by rw [Nat.pow_succ] at h; omega)
      omega

theorem mul_four_pow_le {n : Nat} (h : 4 ≤ n) : 81 * 4 ^ n ≤ 2 ^ 2 ^ n := by
  induction n, h using Nat.le_induction with
  | base => norm_num
  | succ n hn ih =>
    have h4 : 4 ≤ 2 ^ 2 ^ n := le_trans (by have := Nat.one_le_pow n 4 (by decide); omega) ih
    calc 81 * 4 ^ (n + 1) = 4 * (81 * 4 ^ n) := by ring
      _ ≤ 2 ^ 2 ^ n * 2 ^ 2 ^ n := Nat.mul_le_mul h4 ih
      _ = 2 ^ 2 ^ (n + 1) := by rw [← Nat.pow_add, Nat.pow_succ, Nat.mul_two]

/-- p does not divide the product of two digit sums of K digits, for K at least 8: for K = 8, p = 257 is
a prime above both; above, the product is smaller than p. -/
theorem digitSums_mul_mod_ne_zero {n a b : Nat} (hn : 3 ≤ n) (ha : 0 < a) (hb : 0 < b)
    (ha9 : a ≤ 9 * 2 ^ n) (hb9 : b ≤ 9 * 2 ^ n) : a * b % modulusOf n ≠ 0 := by
  intro hmod
  have hdvd := Nat.dvd_of_mod_eq_zero hmod
  rcases Nat.eq_or_lt_of_le hn with rfl | h4
  · have hprime : Nat.Prime (modulusOf 3) := by norm_num [modulusOf]
    have hval : modulusOf 3 = 257 := rfl
    rcases hprime.dvd_mul.1 hdvd with h | h
    · have := Nat.le_of_dvd ha h; omega
    · have := Nat.le_of_dvd hb h; omega
  · have hlt : a * b < modulusOf n := by
      calc a * b ≤ 9 * 2 ^ n * (9 * 2 ^ n) := Nat.mul_le_mul ha9 hb9
        _ = 81 * 4 ^ n := by rw [show 4 = 2 * 2 from rfl, Nat.mul_pow]; ring
        _ ≤ 2 ^ 2 ^ n := mul_four_pow_le h4
        _ < modulusOf n := Nat.lt_succ_self _
    exact absurd (Nat.le_of_dvd (Nat.mul_pos ha hb) hdvd) (by omega)

theorem eq_zero_of_digitDecode_eq_zero {v : List Nat} (h : digitDecode v = 0) : ∀ x ∈ v, x = 0 := by
  induction v with
  | nil => simp
  | cons x xs ih =>
    simp only [digitDecode] at h
    exact List.forall_mem_cons.2 ⟨by omega, ih (by omega)⟩

/-! ### The result of the NTT path -/

/-- The pointwise product of two nonzero operands' transforms is not 0 everywhere: its element 0 is
the product of the digit sums. -/
theorem not_forall_fC_eq_zero {w : Work} (hk : 3 ≤ w.klog) (hA : 0 < w.mA) (hB : 0 < w.mB)
    (hA10 : w.mA < 10 ^ 2 ^ w.klog) (hB10 : w.mB < 10 ^ 2 ^ w.klog) :
    ¬ ∀ x ∈ (nttWork w).fC, x = 0 := by
  intro hzero
  obtain ⟨a, ha, hasum⟩ := transform_head (modulusOf w.klog) (n := w.klog) (w := forwardRoot)
    (digitEncode_length w.mA (2 ^ w.klog))
  obtain ⟨b, hb, hbsum⟩ := transform_head (modulusOf w.klog) (n := w.klog) (w := forwardRoot)
    (digitEncode_length w.mB (2 ^ w.klog))
  have hfC : (nttWork w).fC[0]? = some (rmul (modulusOf w.klog) a b) :=
    List.getElem?_zipWith_eq_some.2 ⟨a, b, ha, hb, rfl⟩
  have h0 : a * b % modulusOf w.klog = 0 := hzero _ (List.mem_of_getElem? hfC)
  rw [hasum.mul hbsum] at h0
  exact digitSums_mul_mod_ne_zero hk (digitEncode_sum_pos hA hA10) (digitEncode_sum_pos hB hB10)
    (digitEncode_sum_le _ _) (digitEncode_sum_le _ _) h0

/-- The NTT path never returns 0 for two nonzero operands. -/
theorem nttWork_c_ne_zero {w : Work} (hk : 3 ≤ w.klog) (hA : 0 < w.mA) (hB : 0 < w.mB)
    (hA10 : w.mA < 10 ^ 2 ^ w.klog) (hB10 : w.mB < 10 ^ 2 ^ w.klog) : (nttWork w).c ≠ 0 := by
  intro hc
  have hp0 := modulusOf_pos w.klog
  obtain ⟨-, -, -, -, hlen, -⟩ := nttWork_length w
  have hfC : ∀ x ∈ (nttWork w).fC, x < modulusOf w.klog := fun x hx => by
    obtain ⟨i, hi⟩ := List.mem_iff_getElem?.1 hx
    obtain ⟨a, b, -, -, rfl⟩ := List.getElem?_zipWith_eq_some.1 hi
    exact rmul_lt hp0 _ _
  have hraw : ∀ x ∈ (nttWork w).raw, x = 0 := fun x hx => by
    have hscaled : rmul (modulusOf w.klog) x (scaleFactor w.klog) = 0 :=
      eq_zero_of_digitDecode_eq_zero hc _ (List.mem_map_of_mem hx)
    refine eq_zero_of_rmul_eq_zero (scaleFactor_coprime w.klog)
      (transform_lt hp0 _ _ _ hfC x hx) ?_
    rwa [rmul, Nat.mul_comm] at hscaled
  exact not_forall_fC_eq_zero hk hA hB hA10 hB10
    (eq_zero_of_transform_eq_zero (modulusOf_odd _) (inverseRoot_coprime _) hlen hfC hraw)

/-! ### The results of MUL -/

/-- A negative zero in RES (10_state.md R44). -/
def NegativeZero (s : State) : Prop := s.resNeg = true ∧ s.res = 0

theorem signOf_zero (neg : Bool) : signOf neg 0 = 0 := rfl

theorem signOf_natAbs_le (neg : Bool) (mag : Nat) : (signOf neg mag).natAbs ≤ 1 := by
  by_cases h : mag = 0 <;> cases neg <;> simp [signOf, h]

/-- A nonzero sign of the product has nonzero operands (43_orchestrator.md R219). -/
theorem operands_pos_of_signC {s : State} (h : (signWork s).signC ≠ 0) : 0 < s.opa ∧ 0 < s.opb := by
  constructor <;> refine Nat.pos_of_ne_zero fun h0 => h ?_
  · simp [signWork, h0, signOf_zero]
  · simp [signWork, h0, signOf_zero]

theorem magw_ge (c : Config) : 32 ≤ magwOf c :=
  config_cases (fun c => 32 ≤ magwOf c) (by decide +kernel) c

/-- The product of the trivial path has at most six digits and fits RES (43_orchestrator.md R221). -/
theorem trivWork_prod_lt {s : State} (c : Config) (h : (signWork s).trivial = true) :
    (trivWork (signWork s)).prod.natAbs < 2 ^ magwOf c := by
  obtain ⟨ha, hb⟩ : digitCount s.opa ≤ 3 ∧ digitCount s.opb ≤ 3 := of_decide_eq_true h
  rw [digitCount_le_iff] at ha hb
  have hsign : (signWork s).signC.natAbs ≤ 1 := by
    change (signOf s.aneg s.opa * signOf s.bneg s.opb).natAbs ≤ 1
    rw [Int.natAbs_mul]
    exact Nat.mul_le_mul (signOf_natAbs_le _ _) (signOf_natAbs_le _ _)
  calc (trivWork (signWork s)).prod.natAbs
      = (signWork s).signC.natAbs * (s.opa * s.opb) := Int.natAbs_mul _ _
    _ ≤ 1 * (10 ^ 3 * 10 ^ 3) := Nat.mul_le_mul hsign (Nat.mul_le_mul ha.le hb.le)
    _ < 2 ^ 32 := by norm_num
    _ ≤ 2 ^ magwOf c := Nat.pow_le_pow_right (by decide) (magw_ge c)

/-- The result of the NTT path fits RES (10_state.md R43; 41_codec.md R168). -/
theorem nttWork_c_lt {c : Config} {w : Work} (h : w.klog ≤ c.lkmax) :
    (nttWork w).c < 2 ^ magwOf c := by
  obtain ⟨-, -, -, -, -, hlen⟩ := nttWork_length w
  refine digitDecode_fits h hlen fun x hx => ?_
  obtain ⟨v, -, rfl⟩ := List.mem_map.1 hx
  exact rmul_lt (modulusOf_pos _) _ _

/-- The length of the NTT path covers both operands, and is at least 8 for nonzero operands
(43_orchestrator.md R222). -/
theorem signWork_klog {s : State} (h : (signWork s).trivial = false) (ha : 0 < s.opa)
    (hb : 0 < s.opb) :
    3 ≤ (signWork s).klog ∧ s.opa < 10 ^ 2 ^ (signWork s).klog ∧
      s.opb < 10 ^ 2 ^ (signWork s).klog := by
  have hlen : digitCount s.opa + digitCount s.opb ≤ 2 ^ (signWork s).klog := le_two_pow_ceilLog2 _
  have hlong : ¬ (digitCount s.opa ≤ 3 ∧ digitCount s.opb ≤ 3) := of_decide_eq_false h
  obtain ⟨hda, -⟩ := digitCount_spec ha
  obtain ⟨hdb, -⟩ := digitCount_spec hb
  refine ⟨?_, (digitCount_le_iff _ _).1 (by omega), (digitCount_le_iff _ _).1 (by omega)⟩
  by_contra hlt
  have h4 : 2 ^ (signWork s).klog ≤ 2 ^ 2 := Nat.pow_le_pow_right (by decide) (by omega)
  omega

/-- A completing MUL whose working values are on track writes no negative zero. -/
theorem not_negativeZero_leaveFin {s : State} {w : Work} (h : OnTrack s .fin w) :
    ¬ NegativeZero (leaveFin w s) := by
  rcases h.fin_cases with ⟨ht, rfl⟩ | ⟨ht, hk, rfl⟩
  · rw [leaveFin_of_trivial s (by simpa using ht)]
    rintro ⟨hneg, hres⟩
    have hneg : (trivWork (signWork s)).prod < 0 := of_decide_eq_true hneg
    have hres : fitMag s.cfg (trivWork (signWork s)).prod.natAbs = 0 := hres
    rw [fitMag_eq (trivWork_prod_lt s.cfg ht)] at hres
    omega
  · rw [leaveFin_of_not_trivial s (by simp [ht])]
    rintro ⟨hneg, hres⟩
    have hneg : (signWork s).signC = -1 := of_decide_eq_true hneg
    have hres : fitMag s.cfg (nttWork (signWork s)).c = 0 := hres
    rw [fitMag_eq (nttWork_c_lt hk)] at hres
    obtain ⟨ha, hb⟩ := operands_pos_of_signC (s := s) (by omega)
    obtain ⟨hk3, hA, hB⟩ := signWork_klog ht ha hb
    exact nttWork_c_ne_zero hk3 ha hb hA hB hres

/-! ### Every effect of a step -/

theorem NegativeZero.of_writeEffect {s t : State} (h : WriteEffect s t) (ht : NegativeZero t) :
    NegativeZero s := by
  cases h with
  | reset => exact absurd ht.1 (by simp [softReset, resetEngine, State.resetOf])
  | _ => exact ht

theorem NegativeZero.of_commandEnd {s t : State} (h : CommandEnd s t) (ht : NegativeZero t) :
    NegativeZero s := by
  cases h with
  | erred e => exact ht
  | completed hu =>
    cases hu with
    | res v => exact absurd ht.1 (by simp)
    | _ => exact ht

theorem NegativeZero.of_driveReset {s : State} {level : Bool} (h : NegativeZero (driveReset level s)) :
    NegativeZero s := by
  unfold driveReset at h
  split at h
  · exact h
  · exact absurd h.1 (by simp [resetEngine, State.resetOf])

/-- A negative zero after an effect of a step was there before it. -/
theorem NegativeZero.of_stepEffect {s t : State} (ht : NegativeZero t) (hinv : s.Inv)
    (h : StepEffect s t) : NegativeZero s := by
  cases h with
  | nothing => exact ht
  | write hr hw => exact .of_writeEffect hw ht
  | pin level => exact ht.of_driveReset
  | command hr hb hc =>
    cases hc with
    | other hd he => exact .of_commandEnd he ht
    | mul hd hm =>
      cases hm with
      | moved ph w hidle hsub htrack => exact ht
      | capped dA dB => exact ht
      | finished w htrack => exact absurd ht (not_negativeZero_leaveFin (htrack hinv.onTrack))

/-- Settles O21: no effect of a step makes a negative zero in a state that meets the invariant. -/
theorem noStepMakesNegativeZero : Obligations.NoStepMakesNegativeZero := by
  intro s t hinv hs hstep ht
  obtain ⟨rest, u, r, hu, rfl⟩ := step_effect hstep
  have hu0 : NegativeZero u := ht
  have hbefore : NegativeZero (s.withInputs rest) :=
    hu0.of_stepEffect (hinv.withInputs rest) hu
  exact hs hbefore

end Sys2Proof.Machine
end

section
/-! SUPPORT. The address map in both directions, the accesses a running command locks out, and the
words of the bank window, with the settled statements of 20_memory.md that they give. -/

namespace Sys2Proof.Machine

/-! ### The address map (20_memory.md R71 to R73) -/

section
variable {c : Config}

/-- The target of a window's word, from the access that names it. -/
theorem target_of_accessTarget {n : Nat} {tg : Target} (hn : n < 2 ^ 32) (h4 : n % 4 = 0)
    (h : accessTarget c .w32 (BitVec.ofNat 32 n) = tg) : target c n = tg :=
  (accessTarget_ofNat c hn h4).symm.trans h

theorem target_element_words {j : Nat} (hj : j < ewwOf c) :
    target c (0x1000 + 4 * j) = .rx j ∧ target c (0x2000 + 4 * j) = .ry j ∧
      target c (0x3000 + 4 * j) = .rz j := by
  have hle : j < 1024 := hj.trans_le (eww_le c)
  exact ⟨target_of_accessTarget (by omega) (by omega) (accessTarget_rx hj),
    target_of_accessTarget (by omega) (by omega) (accessTarget_ry hj),
    target_of_accessTarget (by omega) (by omega) (accessTarget_rz hj)⟩

theorem target_magnitude_words {j : Nat} (hj : j < nwmOf c) :
    target c (0x4000 + 4 * j) = .opa j ∧ target c (0x8000 + 4 * j) = .opb j ∧
      target c (0xC000 + 4 * j) = .res j := by
  have hle : j < 1024 := hj.trans_le (nwm_le c)
  exact ⟨target_of_accessTarget (by omega) (by omega) (accessTarget_opa hj),
    target_of_accessTarget (by omega) (by omega) (accessTarget_opb hj),
    target_of_accessTarget (by omega) (by omega) (accessTarget_res hj)⟩

/-- A word of an element lies within the element's stride and its bank's part of the window. -/
theorem bank_offset_lt {i j : Nat} (hi : i < c.kmax) (hj : j < ewwOf c) :
    4 * j < 4 * estrOf c ∧ i * (4 * estrOf c) + 4 * j < 0x01000000 := by
  have hword : 4 * j < 4 * estrOf c := by
    have := eww_le_estr c
    omega
  have helems : (i + 1) * (4 * estrOf c) ≤ 0x01000000 :=
    (Nat.mul_le_mul_right _ hi).trans (bank_fits c)
  rw [Nat.succ_mul] at helems
  omega

theorem bankAddr_lt {b i j : Nat} (hb : b ≤ 5) (hi : i < c.kmax) (hj : j < ewwOf c) :
    bankAddr c b i j < 2 ^ 32 := by
  obtain ⟨-, hoff⟩ := bank_offset_lt hi hj
  unfold bankAddr
  omega

theorem target_of_bank_window {a : Nat} (h : 0x10000000 ≤ a) : target c a = bankTarget c a := by
  rw [target, if_neg (by omega), if_neg (by omega), if_neg (by omega), if_neg (by omega),
    if_neg (by omega), if_neg (by omega), if_neg (by omega), if_neg (by omega)]

theorem target_bankAddr {b i j : Nat} (hb : b ≤ 5) (hi : i < c.kmax) (hj : j < ewwOf c) :
    target c (bankAddr c b i j) = .bank b i j := by
  obtain ⟨hword, hoff⟩ := bank_offset_lt hi hj
  have hbase : 0x10000000 ≤ bankAddr c b i j := by
    unfold bankAddr
    omega
  have hbank : (bankAddr c b i j - 0x10000000) / 0x01000000 = b := by
    unfold bankAddr
    omega
  have hin : (bankAddr c b i j - 0x10000000) % 0x01000000 = 4 * j + 4 * estrOf c * i := by
    rw [Nat.mul_comm _ i]
    unfold bankAddr
    omega
  have helem : (4 * j + 4 * estrOf c * i) / (4 * estrOf c) = i := by
    rw [Nat.add_mul_div_left _ _ (by omega), Nat.div_eq_of_lt hword, Nat.zero_add]
  have hrest : (4 * j + 4 * estrOf c * i) % (4 * estrOf c) / 4 = j := by
    rw [Nat.add_mul_mod_self_left, Nat.mod_eq_of_lt hword, Nat.mul_div_cancel_left j (by decide)]
  rw [target_of_bank_window hbase, bankTarget, hbank, hin, helem, hrest, if_pos ⟨hb, hi, hj⟩]

theorem controlTarget_eq_reserved {a : Nat} (h : 0x28 < a) : controlTarget a = .reserved := by
  unfold controlTarget
  split
  case h_12 => rfl
  all_goals omega

/-- A word of a window that is not reserved is one of its register's words. -/
theorem windowTarget_place {mk : Nat → Target} {base n a : Nat} (hbase : base ≤ a)
    (hb4 : base % 4 = 0) (h4 : a % 4 = 0) (h : windowTarget mk base n a ≠ .reserved) :
    ∃ j < n, a = base + 4 * j :=
  ⟨(a - base) / 4, by_contra fun hn => h (if_neg hn), by omega⟩

/-- A word of the bank window that is not reserved is a word of an element. -/
theorem bankTarget_place {a : Nat} (hbase : 0x10000000 ≤ a) (h4 : a % 4 = 0)
    (h : bankTarget c a ≠ .reserved) :
    ∃ b i j, b ≤ 5 ∧ i < c.kmax ∧ j < ewwOf c ∧ a = bankAddr c b i j := by
  obtain ⟨hb, hi, hj⟩ := by_contra fun hn => h (if_neg hn)
  refine ⟨_, _, _, hb, hi, hj, ?_⟩
  have hsplit := Nat.div_add_mod ((a - 0x10000000) % 0x01000000) (4 * estrOf c)
  have haligned : (a - 0x10000000) % 0x01000000 % (4 * estrOf c) % 4 = 0 := by
    rw [Nat.mod_mul_right_mod]
    omega
  rw [Nat.mul_comm] at hsplit
  unfold bankAddr
  omega

/-- Where an aligned address that is not reserved lies (20_memory.md R71). -/
theorem target_place {a : Nat} (h4 : a % 4 = 0) (h : target c a ≠ .reserved) :
    a ≤ 0x28 ∨
      (∃ j < ewwOf c, a = 0x1000 + 4 * j ∨ a = 0x2000 + 4 * j ∨ a = 0x3000 + 4 * j) ∨
      (∃ j < nwmOf c, a = 0x4000 + 4 * j ∨ a = 0x8000 + 4 * j ∨ a = 0xC000 + 4 * j) ∨
      ∃ b i j, b ≤ 5 ∧ i < c.kmax ∧ j < ewwOf c ∧ a = bankAddr c b i j := by
  unfold target at h
  split_ifs at h
  · left
    by_contra hgt
    exact h (controlTarget_eq_reserved (by omega))
  · obtain ⟨j, hj, ha⟩ := windowTarget_place (by omega) rfl h4 h
    exact .inr (.inl ⟨j, hj, .inl ha⟩)
  · obtain ⟨j, hj, ha⟩ := windowTarget_place (by omega) rfl h4 h
    exact .inr (.inl ⟨j, hj, .inr (.inl ha)⟩)
  · obtain ⟨j, hj, ha⟩ := windowTarget_place (by omega) rfl h4 h
    exact .inr (.inl ⟨j, hj, .inr (.inr ha)⟩)
  · obtain ⟨j, hj, ha⟩ := windowTarget_place (by omega) rfl h4 h
    exact .inr (.inr (.inl ⟨j, hj, .inl ha⟩))
  · obtain ⟨j, hj, ha⟩ := windowTarget_place (by omega) rfl h4 h
    exact .inr (.inr (.inl ⟨j, hj, .inr (.inl ha)⟩))
  · obtain ⟨j, hj, ha⟩ := windowTarget_place (by omega) rfl h4 h
    exact .inr (.inr (.inl ⟨j, hj, .inr (.inr ha)⟩))
  · exact absurd rfl h
  · exact .inr (.inr (.inr (bankTarget_place (by omega) h4 h)))

end

/-- Settles O43: each place has its target, and every other aligned address is reserved. -/
theorem addressMap : Obligations.AddressMap := fun _ =>
  ⟨rfl, fun _ hj => target_element_words hj, fun _ hj => target_magnitude_words hj,
    fun _ _ _ hb hi hj => target_bankAddr hb hi hj, fun _ h4 h => target_place h4 h⟩

/-! ### Refused accesses (20_memory.md R76, R77) -/

theorem accessTarget_aligned {c : Config} {a : Word} (h : a.toNat % 4 = 0) :
    accessTarget c .w32 a = target c a.toNat :=
  if_pos ⟨rfl, h⟩

/-- An access of another width, a misaligned one and one of a reserved address name nothing. -/
theorem accessTarget_eq_reserved {c : Config} {w : Width} {a : Word}
    (h : w ≠ .w32 ∨ a.toNat % 4 ≠ 0 ∨ target c a.toNat = .reserved) :
    accessTarget c w a = .reserved := by
  by_cases hacc : w = .w32 ∧ a.toNat % 4 = 0
  · obtain ⟨rfl, h4⟩ := hacc
    rw [accessTarget_aligned h4]
    simpa [h4] using h
  · exact if_neg hacc

/-- Settles O42: such an access names nothing, and what names nothing is refused, idle or busy. -/
theorem refusedAccesses : Obligations.RefusedAccesses := by
  intro s w a v hr h
  have ht := accessTarget_eq_reserved h
  exact ⟨answers_read_refused hr (by rw [ht]; rfl), answers_write_refused hr (by rw [ht]; rfl)⟩

/-! ### The busy lock (20_memory.md R79) -/

/-- The targets whose writes a running command locks out (20_memory.md R79). -/
def Target.writeLocked (tg : Target) : Bool :=
  tg.isData || tg == .cmd || tg == .kcfg || tg == .opsign

theorem writeRefused_eq (busy : Bool) (tg : Target) :
    writeRefused busy tg = (tg == .reserved || (busy && tg.writeLocked)) := rfl

theorem readRefused_of_busy {s : State} {tg : Target} (hp : s.phase ≠ .idle)
    (hd : tg.isData = true) : readRefused s.busy tg = true := by
  simp [readRefused, State.busy, hp, hd]

theorem writeRefused_of_busy {s : State} {tg : Target} (hp : s.phase ≠ .idle)
    (hl : tg.writeLocked = true) : writeRefused s.busy tg = true := by
  simp [writeRefused_eq, State.busy, hp, hl]

/-- What is not locked can be written at any time. -/
theorem writeRefused_of_not_locked {tg : Target} (busy : Bool) (h : tg ≠ .reserved)
    (hl : tg.writeLocked = false) : writeRefused busy tg = false := by
  simp [writeRefused_eq, h, hl]

theorem writeLocked_of_isData {tg : Target} (h : tg.isData = true) : tg.writeLocked = true := by
  simp [Target.writeLocked, h]

/-- Every control and status register has a word. -/
theorem exists_targetWord (s : State) {tg : Target} (h : tg ≠ .reserved) (hd : tg.isData = false) :
    ∃ w, targetWord s tg = some w := by
  cases tg with
  | reserved => exact absurd rfl h
  | rx _ | ry _ | rz _ | opa _ | opb _ | res _ | bank _ _ _ => cases hd
  | _ => exact ⟨_, rfl⟩

/-- A move of MUL that does not end it changes the sequencer only (43_orchestrator.md R218). -/
theorem mulMove_of_not_idle {s : State} (h : (mulMove s).phase ≠ .idle) :
    mulMove s = s.moveTo (mulMove s).phase (mulMove s).work := by
  have hout := mulMove_outcome s
  generalize mulMove s = t at h hout
  cases hout with
  | moved ph w hidle hsub htrack => rfl
  | finished w htrack => exact absurd (leaveFin_phase w s) h
  | capped dA dB => exact absurd rfl h

/-- Settles O44: the locks by the kind of target, the moves by where they lead. -/
theorem busyLock : Obligations.BusyLock := by
  refine ⟨fun s a v hr hp h4 => ?_, fun s h => mulMove_of_not_idle h⟩
  rw [← accessTarget_aligned h4]
  refine ⟨fun hd => ⟨?_, ?_⟩, fun hmem => ?_, fun hmem => ?_, fun hmem => ?_⟩
  · exact answers_read_refused hr (readRefused_of_busy hp hd)
  · exact answers_write_refused hr (writeRefused_of_busy hp (writeLocked_of_isData hd))
  · have hlocked : ∀ tg ∈ [Target.cmd, .kcfg, .opsign], tg.writeLocked = true := by decide
    exact answers_write_refused hr (writeRefused_of_busy hp (hlocked _ hmem))
  · have hcontrol : ∀ tg ∈ [Target.id, .param0, .param1, .ctrl, .status, .cmd, .kcfg, .opsign,
        .resinfo, .digits, .errinfo], tg ≠ .reserved ∧ tg.isData = false := by decide
    obtain ⟨hres, hd⟩ := hcontrol _ hmem
    obtain ⟨w, hw⟩ := exists_targetWord s hres hd
    exact ⟨w, hw, answers_read_control hr rfl hres hd hw⟩
  · have hopen : ∀ tg ∈ [Target.ctrl, .status], tg ≠ .reserved ∧ tg.writeLocked = false := by decide
    obtain ⟨hres, hl⟩ := hopen _ hmem
    exact ⟨_, answers_write hr (writeRefused_of_not_locked _ hres hl), rfl⟩

/-! ### Bank words (20_memory.md R80; 10_state.md R47, R55) -/

/-- A read of a target without a word stops the model (10_state.md R55). -/
theorem step_read_of_unwritten {s : State} {w : Width} {a : Word} (hr : s.rstN = true)
    (hn : readRefused s.busy (accessTarget s.cfg w a) = false)
    (hv : targetWord s (accessTarget s.cfg w a) = none) (rest : List Input) :
    step (s.withInputs (.read w a :: rest)) = .fault (.hostReadUnwritten a) := by
  change hostRead w a (s.withInputs rest) = _
  unfold hostRead
  rw [if_neg (by simp [hr]), if_neg (by simp [hn]), withInputs_cfg, targetWord_withInputs, hv]

theorem accessTarget_bankAddr {c : Config} {b i j : Nat} (hb : b ≤ 5) (hi : i < c.kmax)
    (hj : j < ewwOf c) : accessTarget c .w32 (BitVec.ofNat 32 (bankAddr c b i j)) = .bank b i j :=
  (accessTarget_ofNat c (bankAddr_lt hb hi hj) (bankAddr_mod c b i j)).trans
    (target_bankAddr hb hi hj)

/-- Settles O51: the word's address names it, so its access is that of a word of the memory. -/
theorem bankWordAccess : Obligations.BankWordAccess := by
  intro s v b i j a hr hp hb hi hj ha
  obtain rfl : a = bankAddr s.cfg b i j := ha
  have ht := accessTarget_bankAddr hb hi hj
  have hbank : Target.bank b i j ≠ .reserved := by simp
  refine ⟨⟨_, answers_write_idle hr hp hbank ht, ?_, fun x hx => ?_⟩, fun w hw => ?_,
    fun hw rest => ?_⟩
  · exact readWord_writeWord_same _ _ _
  · exact readByte_writeWord_other _ fun k hk => by omega
  · exact answers_read_idle hr hp hbank ht hw
  · exact step_read_of_unwritten hr (readRefused_idle hp (by simp [ht])) (by rw [ht]; exact hw) rest

/-! ### Side effects (20_memory.md R78, R81) -/

/-- Settles O45: the step is the read, which sets the response only. -/
theorem readsHaveNoSideEffect : Obligations.ReadsHaveNoSideEffect := by
  intro s t w a rest hin h
  have hread : hostRead w a (s.withInputs rest) = .next t := by simpa only [step, hin] using h
  obtain ⟨-, r, rfl⟩ := hostRead_next hread
  rfl

/-- A write of a read-only control or status register is ignored, idle or busy (log entry 9). -/
theorem answers_write_readOnly {s : State} {a v : Word} {tg : Target} (hr : s.rstN = true)
    (ht : accessTarget s.cfg .w32 a = tg)
    (htg : tg ∈ [Target.id, .param0, .param1, .resinfo, .digits, .errinfo]) :
    Answers s (.write .w32 a v) (s.respond .ok) := by
  have hopen : ∀ tg ∈ [Target.id, .param0, .param1, .resinfo, .digits, .errinfo],
      tg ≠ .reserved ∧ tg.writeLocked = false := by decide
  have hkeep : writeTarget s v tg = s := by
    simp only [List.mem_cons, List.not_mem_nil, or_false] at htg
    rcases htg with rfl | rfl | rfl | rfl | rfl | rfl <;> rfl
  obtain ⟨hres, hl⟩ := hopen tg htg
  have h := answers_write_of_target (v := v) hr ht (writeRefused_of_not_locked s.busy hres hl)
  rwa [hkeep] at h

/-- Settles O52: the six registers by name, RZ and RES by their windows. -/
theorem readOnlyWritesIgnored : Obligations.ReadOnlyWritesIgnored := by
  refine fun s v hr => ⟨fun a ha => ?_, fun hp j hj => ?_, fun hp j hj => ?_⟩
  · simp only [List.mem_cons, List.not_mem_nil, or_false] at ha
    rcases ha with rfl | rfl | rfl | rfl | rfl | rfl
    · exact answers_write_readOnly (tg := .id) hr rfl (by decide)
    · exact answers_write_readOnly (tg := .param0) hr rfl (by decide)
    · exact answers_write_readOnly (tg := .param1) hr rfl (by decide)
    · exact answers_write_readOnly (tg := .resinfo) hr rfl (by decide)
    · exact answers_write_readOnly (tg := .digits) hr rfl (by decide)
    · exact answers_write_readOnly (tg := .errinfo) hr rfl (by decide)
  · exact answers_write_idle hr hp (by simp) (accessTarget_rz hj)
  · exact answers_write_idle hr hp (by simp) (accessTarget_res hj)

end Sys2Proof.Machine
end

section
/-! SUPPORT. The command words: a word is the packing of its fields, the decoder by the rows of the
opcode table, and each command by its encoding and by its match and mask (30_encoding.md R101 to
R111). -/

namespace Sys2Proof

/-! ### The fields of a word as numbers (30_encoding.md R101, R106, R111) -/

theorem fieldOpc_toNat (w : Word) : (fieldOpc w).toNat = w.toNat % 256 := by
  simp [fieldOpc]

theorem fieldRd_toNat (w : Word) : (fieldRd w).toNat = w.toNat / 2 ^ 8 % 8 := by
  simp [fieldRd, Nat.shiftRight_eq_div_pow]

theorem fieldRs1_toNat (w : Word) : (fieldRs1 w).toNat = w.toNat / 2 ^ 12 % 8 := by
  simp [fieldRs1, Nat.shiftRight_eq_div_pow]

theorem fieldRs2_toNat (w : Word) : (fieldRs2 w).toNat = w.toNat / 2 ^ 16 % 8 := by
  simp [fieldRs2, Nat.shiftRight_eq_div_pow]

theorem reservedZero_iff (w : Word) :
    reservedZero w = true ↔
      w.toNat / 2 ^ 19 = 0 ∧ w.toNat / 2 ^ 15 % 2 = 0 ∧ w.toNat / 2 ^ 11 % 2 = 0 := by
  have hw := w.isLt
  simp only [reservedZero, Bool.and_eq_true, beq_iff_eq, BitVec.toNat_eq, BitVec.extractLsb'_toNat,
    Nat.shiftRight_eq_div_pow, BitVec.ofNat_eq_ofNat, BitVec.toNat_ofNat]
  omega

/-- Bits that start above a number are added to it by an OR. -/
theorem or_mul_two_pow {x k : Nat} (y : Nat) (h : x < 2 ^ k) : x ||| y * 2 ^ k = x + y * 2 ^ k := by
  rw [Nat.or_comm, ← Nat.shiftLeft_eq, ← Nat.shiftLeft_add_eq_or_of_lt h, Nat.add_comm]

theorem shifted_bank_toNat (b : Bank) {k : Nat} (h : k ≤ 29) :
    (b.setWidth 32 <<< k : Word).toNat = b.toNat * 2 ^ k := by
  have hb : b.toNat * 2 ^ k < 2 ^ 3 * 2 ^ k := Nat.mul_lt_mul_of_pos_right b.isLt (by positivity)
  have hk : 2 ^ 3 * 2 ^ k ≤ 2 ^ 32 := by
    rw [← Nat.pow_add]
    exact Nat.pow_le_pow_right (by decide) (by omega)
  rw [BitVec.toNat_shiftLeft, BitVec.toNat_setWidth_of_le (by decide), Nat.shiftLeft_eq,
    Nat.mod_eq_of_lt (by omega)]

/-- The word of an OPC and bank fields is their sum at their places (30_encoding.md R111). -/
theorem packWord_toNat (opc : BitVec 8) (rd rs1 rs2 : Bank) :
    (packWord opc rd rs1 rs2).toNat =
      opc.toNat + rd.toNat * 2 ^ 8 + rs1.toNat * 2 ^ 12 + rs2.toNat * 2 ^ 16 := by
  have hopc := opc.isLt
  have hrd := rd.isLt
  have hrs1 := rs1.isLt
  rw [packWord, BitVec.toNat_or, BitVec.toNat_or, BitVec.toNat_or,
    BitVec.toNat_setWidth_of_le (by decide), shifted_bank_toNat rd (by decide),
    shifted_bank_toNat rs1 (by decide), shifted_bank_toNat rs2 (by decide),
    or_mul_two_pow (k := 8) _ (by omega), or_mul_two_pow (k := 12) _ (by omega),
    or_mul_two_pow (k := 16) _ (by omega)]

/-! ### A word as the packing of its fields -/

@[simp] theorem fieldOpc_packWord (opc : BitVec 8) (rd rs1 rs2 : Bank) :
    fieldOpc (packWord opc rd rs1 rs2) = opc := by
  have hopc := opc.isLt
  apply BitVec.eq_of_toNat_eq
  rw [fieldOpc_toNat, packWord_toNat]
  omega

@[simp] theorem fieldRd_packWord (opc : BitVec 8) (rd rs1 rs2 : Bank) :
    fieldRd (packWord opc rd rs1 rs2) = rd := by
  have hopc := opc.isLt
  have hrd := rd.isLt
  apply BitVec.eq_of_toNat_eq
  rw [fieldRd_toNat, packWord_toNat]
  omega

@[simp] theorem fieldRs1_packWord (opc : BitVec 8) (rd rs1 rs2 : Bank) :
    fieldRs1 (packWord opc rd rs1 rs2) = rs1 := by
  have hopc := opc.isLt
  have hrd := rd.isLt
  have hrs1 := rs1.isLt
  apply BitVec.eq_of_toNat_eq
  rw [fieldRs1_toNat, packWord_toNat]
  omega

@[simp] theorem fieldRs2_packWord (opc : BitVec 8) (rd rs1 rs2 : Bank) :
    fieldRs2 (packWord opc rd rs1 rs2) = rs2 := by
  have hopc := opc.isLt
  have hrd := rd.isLt
  have hrs1 := rs1.isLt
  have hrs2 := rs2.isLt
  apply BitVec.eq_of_toNat_eq
  rw [fieldRs2_toNat, packWord_toNat]
  omega

@[simp] theorem reservedZero_packWord (opc : BitVec 8) (rd rs1 rs2 : Bank) :
    reservedZero (packWord opc rd rs1 rs2) = true := by
  have hopc := opc.isLt
  have hrd := rd.isLt
  have hrs1 := rs1.isLt
  have hrs2 := rs2.isLt
  rw [reservedZero_iff, packWord_toNat]
  omega

/-- A word with zeros in the reserved bits has no bits but those of its fields. -/
theorem packWord_fields {w : Word} (h : reservedZero w = true) :
    packWord (fieldOpc w) (fieldRd w) (fieldRs1 w) (fieldRs2 w) = w := by
  rw [reservedZero_iff] at h
  apply BitVec.eq_of_toNat_eq
  rw [packWord_toNat, fieldOpc_toNat, fieldRd_toNat, fieldRs1_toNat, fieldRs2_toNat]
  omega

/-! ### The rows of the opcode table (30_encoding.md R105 to R107) -/

/-- The sixteen OPC values with the class and the command that each selects. -/
def opcodeRows : List (Nat × Form) :=
  [(0x00, .none .nop), (0x01, .none .mul), (0x10, .d .enca), (0x11, .d .encb), (0x12, .s .dec),
    (0x20, .ds .nttf), (0x21, .ds .ntti), (0x22, .ds .nttw), (0x23, .ds .scal),
    (0x30, .dss .padd), (0x31, .dss .psub), (0x32, .dss .pmul),
    (0x40, .none .madd), (0x41, .none .msub), (0x42, .none .mmul), (0x43, .none .minv)]

theorem opcodeRows_opcodes : opcodeRows.map Prod.fst = Machine.opcodes := rfl

/-- An OPC value selects what its row says. -/
theorem formOf_of_row : ∀ r ∈ opcodeRows, formOf r.1 = some r.2 := by
  simp [opcodeRows, formOf]

/-- Only the rows select a command (30_encoding.md R109). -/
theorem row_of_formOf {n : Nat} {f : Form} (h : formOf n = some f) : (n, f) ∈ opcodeRows := by
  unfold formOf at h
  split at h
  case h_17 => exact absurd h (by simp)
  all_goals
    obtain rfl := Option.some.inj h
    simp [opcodeRows]

/-- The command of a class with these bank fields. -/
def Form.build (f : Form) (rd rs1 rs2 : Bank) : Instr :=
  match f with
  | .none i => i
  | .d mk => mk rd
  | .s mk => mk rs1
  | .ds mk => mk rd rs1
  | .dss mk => mk rd rs1 rs2

/-- The bank fields are as the class asks: a used one names a bank, an unused one is 0
(30_encoding.md R106 (3) and (4)). -/
def Form.Legal (f : Form) (rd rs1 rs2 : Bank) : Prop :=
  match f with
  | .none _ => rd = 0 ∧ rs1 = 0 ∧ rs2 = 0
  | .d _ => rd.valid ∧ rs1 = 0 ∧ rs2 = 0
  | .s _ => rd = 0 ∧ rs1.valid ∧ rs2 = 0
  | .ds _ => rd.valid ∧ rs1.valid ∧ rs2 = 0
  | .dss _ => rd.valid ∧ rs1.valid ∧ rs2.valid

theorem fillForm_eq_some_iff {f : Form} {rd rs1 rs2 : Bank} {i : Instr} :
    fillForm f rd rs1 rs2 = some i ↔ f.Legal rd rs1 rs2 ∧ f.build rd rs1 rs2 = i := by
  cases f <;> simp only [fillForm, Form.Legal, Form.build, Option.ite_none_right_eq_some,
    Option.some.injEq]

/-- The decoder by rows (30_encoding.md R108). -/
theorem decode_eq_some_iff_row {w : Word} {i : Instr} :
    decode w = some i ↔ reservedZero w = true ∧ ∃ f, ((fieldOpc w).toNat, f) ∈ opcodeRows ∧
      f.Legal (fieldRd w) (fieldRs1 w) (fieldRs2 w) ∧
      f.build (fieldRd w) (fieldRs1 w) (fieldRs2 w) = i := by
  unfold decode
  split
  · next hz =>
    split
    · next f hf =>
      rw [fillForm_eq_some_iff]
      constructor
      · exact fun h => ⟨hz, f, row_of_formOf hf, h⟩
      · rintro ⟨-, g, hg, h⟩
        obtain rfl : f = g := Option.some.inj (hf.symm.trans (formOf_of_row _ hg))
        exact h
    · next hf =>
      refine iff_of_false (by simp) ?_
      rintro ⟨-, g, hg, -⟩
      simp [formOf_of_row _ hg] at hf
  · next hz => exact iff_of_false (by simp) fun h => hz h.1

/-! ### The encoder by rows -/

/-- A row with legal bank fields builds a well-formed command, whose word is their packing. -/
theorem build_of_row {rd rs1 rs2 : Bank} : ∀ r ∈ opcodeRows, r.2.Legal rd rs1 rs2 →
    (r.2.build rd rs1 rs2).wf = true ∧
      encode (r.2.build rd rs1 rs2) = packWord (BitVec.ofNat 8 r.1) rd rs1 rs2 := by
  simp +contextual [opcodeRows, Form.Legal, Form.build, Instr.wf, Instr.banks, encode]

/-- A row with legal bank fields is read back from their packing. -/
theorem decode_packWord {opc : BitVec 8} {f : Form} {rd rs1 rs2 : Bank}
    (hf : formOf opc.toNat = some f) (hl : f.Legal rd rs1 rs2) :
    decode (packWord opc rd rs1 rs2) = some (f.build rd rs1 rs2) :=
  decode_eq_some_iff_row.2
    ⟨by simp, f, by simpa using row_of_formOf hf, by simpa using hl, by simp⟩

/-- A command's word is the packing of an OPC that selects its class and of its own bank fields. -/
theorem decode_encode {i : Instr} (h : i.wf = true) : decode (encode i) = some i := by
  have hd : ∀ {mk a}, [a].all Bank.valid = true → (Form.d mk).Legal a 0 0 := by simp [Form.Legal]
  have hs : ∀ {mk a}, [a].all Bank.valid = true → (Form.s mk).Legal 0 a 0 := by simp [Form.Legal]
  have hds : ∀ {mk a b}, [a, b].all Bank.valid = true → (Form.ds mk).Legal a b 0 := by
    simp [Form.Legal]
  have hdss : ∀ {mk a b c}, [a, b, c].all Bank.valid = true → (Form.dss mk).Legal a b c := by
    simp [Form.Legal]
  cases i with
  | nop => exact decode_packWord (f := .none .nop) rfl ⟨rfl, rfl, rfl⟩
  | mul => exact decode_packWord (f := .none .mul) rfl ⟨rfl, rfl, rfl⟩
  | enca rd => exact decode_packWord (f := .d .enca) rfl (hd h)
  | encb rd => exact decode_packWord (f := .d .encb) rfl (hd h)
  | dec rs1 => exact decode_packWord (f := .s .dec) rfl (hs h)
  | nttf rd rs1 => exact decode_packWord (f := .ds .nttf) rfl (hds h)
  | ntti rd rs1 => exact decode_packWord (f := .ds .ntti) rfl (hds h)
  | nttw rd rs1 => exact decode_packWord (f := .ds .nttw) rfl (hds h)
  | scal rd rs1 => exact decode_packWord (f := .ds .scal) rfl (hds h)
  | padd rd rs1 rs2 => exact decode_packWord (f := .dss .padd) rfl (hdss h)
  | psub rd rs1 rs2 => exact decode_packWord (f := .dss .psub) rfl (hdss h)
  | pmul rd rs1 rs2 => exact decode_packWord (f := .dss .pmul) rfl (hdss h)
  | madd => exact decode_packWord (f := .none .madd) rfl ⟨rfl, rfl, rfl⟩
  | msub => exact decode_packWord (f := .none .msub) rfl ⟨rfl, rfl, rfl⟩
  | mmul => exact decode_packWord (f := .none .mmul) rfl ⟨rfl, rfl, rfl⟩
  | minv => exact decode_packWord (f := .none .minv) rfl ⟨rfl, rfl, rfl⟩

/-- The decoder by the encoder: each well-formed command has one word (30_encoding.md R108). -/
theorem decode_eq_some_iff {w : Word} {i : Instr} :
    decode w = some i ↔ i.wf = true ∧ encode i = w := by
  constructor
  · intro h
    obtain ⟨hz, f, hr, hl, rfl⟩ := decode_eq_some_iff_row.1 h
    obtain ⟨hwf, he⟩ := build_of_row _ hr hl
    rw [BitVec.ofNat_toNat, BitVec.setWidth_eq, packWord_fields hz] at he
    exact ⟨hwf, he⟩
  · rintro ⟨hwf, rfl⟩
    exact decode_encode hwf

/-- The legal words by rows. -/
theorem decode_isSome_iff {w : Word} :
    (decode w).isSome = true ↔ reservedZero w = true ∧
      ∃ f, ((fieldOpc w).toNat, f) ∈ opcodeRows ∧
        f.Legal (fieldRd w) (fieldRs1 w) (fieldRs2 w) := by
  rw [Option.isSome_iff_exists]
  constructor
  · rintro ⟨i, h⟩
    obtain ⟨hz, f, hr, hl, -⟩ := decode_eq_some_iff_row.1 h
    exact ⟨hz, f, hr, hl⟩
  · rintro ⟨hz, f, hr, hl⟩
    exact ⟨_, decode_eq_some_iff_row.2 ⟨hz, f, hr, hl, rfl⟩⟩

/-! ### Match and mask (30_encoding.md R107) -/

/-- The places of the bank fields a command uses, in the order of `Instr.banks`
(30_encoding.md R101, R105). -/
def Instr.offsets : Instr → List Nat
  | .nop => []
  | .mul => []
  | .enca _ => [8]
  | .encb _ => [8]
  | .dec _ => [12]
  | .nttf _ _ => [8, 12]
  | .ntti _ _ => [8, 12]
  | .nttw _ _ => [8, 12]
  | .scal _ _ => [8, 12]
  | .padd _ _ _ => [8, 12, 16]
  | .psub _ _ _ => [8, 12, 16]
  | .pmul _ _ _ => [8, 12, 16]
  | .madd => []
  | .msub => []
  | .mmul => []
  | .minv => []

/-- The bank fields of a word at a command's places (30_encoding.md R101). -/
def Instr.fieldsOf (i : Instr) (w : Word) : List Bank := i.offsets.map fun p => w.extractLsb' p 3

theorem fieldsOf_encode (i : Instr) : i.fieldsOf (encode i) = i.banks := by
  have hrd := fieldRd_packWord
  have hrs1 := fieldRs1_packWord
  have hrs2 := fieldRs2_packWord
  simp only [fieldRd, fieldRs1, fieldRs2] at hrd hrs1 hrs2
  cases i <;> simp [Instr.fieldsOf, Instr.offsets, Instr.banks, encode, hrd, hrs1, hrs2]

theorem encode_and_mask (i : Instr) : encode i &&& i.matchMask.2 = i.matchMask.1 := by
  have h : Laws.FixedBits.Statement i := by
    cases i with
    | nop => exact Laws.FixedBits.nop
    | mul => exact Laws.FixedBits.mul
    | enca rd => exact Laws.FixedBits.enca rd
    | encb rd => exact Laws.FixedBits.encb rd
    | dec rs1 => exact Laws.FixedBits.dec rs1
    | nttf rd rs1 => exact Laws.FixedBits.nttf rd rs1
    | ntti rd rs1 => exact Laws.FixedBits.ntti rd rs1
    | nttw rd rs1 => exact Laws.FixedBits.nttw rd rs1
    | scal rd rs1 => exact Laws.FixedBits.scal rd rs1
    | padd rd rs1 rs2 => exact Laws.FixedBits.padd rd rs1 rs2
    | psub rd rs1 rs2 => exact Laws.FixedBits.psub rd rs1 rs2
    | pmul rd rs1 rs2 => exact Laws.FixedBits.pmul rd rs1 rs2
    | madd => exact Laws.FixedBits.madd
    | msub => exact Laws.FixedBits.msub
    | mmul => exact Laws.FixedBits.mmul
    | minv => exact Laws.FixedBits.minv
  exact h.1

/-- Every bit of a word is under a command's mask or in one of its bank fields. -/
theorem masked_or_in_field (i : Instr) :
    ∀ k < 32, i.matchMask.2.getLsbD k = true ∨ ∃ p ∈ i.offsets, p ≤ k ∧ k < p + 3 := by
  cases i <;> simp only [Instr.matchMask, Instr.offsets] <;> decide

/-- Two words that agree under a command's mask and in its bank fields are one word. -/
theorem eq_of_mask_of_fields {i : Instr} {v w : Word}
    (hm : w &&& i.matchMask.2 = v &&& i.matchMask.2)
    (hf : i.fieldsOf w = i.fieldsOf v) : w = v := by
  refine BitVec.eq_of_getLsbD_eq fun k hk => ?_
  rcases masked_or_in_field i k hk with hmask | ⟨p, hp, hle, hlt⟩
  · simpa [hmask] using congrArg (fun x : Word => x.getLsbD k) hm
  · have hfield : w.extractLsb' p 3 = v.extractLsb' p 3 := List.map_inj_left.1 hf p hp
    have hbit := congrArg (fun x : Bank => x.getLsbD (k - p)) hfield
    simpa [BitVec.getLsbD_extractLsb', show k - p < 3 by omega, Nat.add_sub_cancel' hle] using hbit

/-- The word of a command by its row (30_encoding.md R107). -/
theorem encode_eq_iff_mask {i : Instr} {w : Word} :
    encode i = w ↔ w &&& i.matchMask.2 = i.matchMask.1 ∧ i.fieldsOf w = i.banks := by
  constructor
  · rintro rfl
    exact ⟨encode_and_mask i, fieldsOf_encode i⟩
  · rintro ⟨hm, hf⟩
    exact (eq_of_mask_of_fields (hm.trans (encode_and_mask i).symm)
      (hf.trans (fieldsOf_encode i).symm)).symm

/-- A word selects a command's row when (word AND mask) = match, with the bank numbers checked on
top (30_encoding.md R107). -/
theorem decode_eq_some_iff_mask (w : Word) (i : Instr) :
    decode w = some i ↔ w &&& i.matchMask.2 = i.matchMask.1 ∧
      i.fieldsOf w = i.banks ∧ ∀ b ∈ i.banks, b.toNat ≤ 5 := by
  have hwf : i.wf = true ↔ ∀ b ∈ i.banks, b.toNat ≤ 5 := by simp [Instr.wf, Bank.valid]
  rw [decode_eq_some_iff, encode_eq_iff_mask, hwf, and_comm, and_assoc]

/-- Settles O1. -/
theorem decodeOfEncode : Obligations.DecodeOfEncode := fun _ => decode_encode

/-- Settles O2. -/
theorem decodedWordIsTheEncoding : Obligations.DecodedWordIsTheEncoding :=
  fun _ _ => decode_eq_some_iff.1

/-- Settles O3: `decode_eq_some_iff_mask` for each of the sixteen. -/
theorem opcodeRowsSelectCommands : Obligations.OpcodeRowsSelectCommands := by
  intro w rd rs1 rs2
  refine ⟨?_, ?_, ?_, ?_, ?_, ?_, ?_, ?_, ?_, ?_, ?_, ?_, ?_, ?_, ?_, ?_⟩
  all_goals
    simp only [decode_eq_some_iff_mask, Instr.matchMask, Instr.fieldsOf, Instr.offsets, Instr.banks,
      List.map_cons, List.map_nil, List.cons.injEq, List.forall_mem_cons, List.not_mem_nil]
    tauto

/-- Settles O4: the legal words by their encodings, the others by an OPC and a reserved bit. -/
theorem sampleWords : Obligations.SampleWords := by
  have legal : ∀ {w : Word} {i : Instr}, i.wf = true ∧ encode i = w → decode w = some i :=
    decode_eq_some_iff.2
  exact ⟨legal (by decide), legal (by decide), legal (by decide), legal (by decide),
    legal (by decide), legal (by decide), legal (by decide), legal (by decide), legal (by decide),
    by decide, if_neg (by decide)⟩

end Sys2Proof
end

section
/-! SUPPORT. A command issued to the engine: its acceptance, its run to the end, and the host's `go`
and `wait` (30_encoding.md R106, R112, R113). -/

namespace Sys2Proof.Machine

/-! ### The run of the command in flight -/

/-- With no input pending a running engine runs the command in flight (70_reset_and_hazards.md
R297). -/
theorem step_running {s : State} (hin : s.inputs = []) (hr : s.rstN = true) (hp : s.phase ≠ .idle) :
    step s = runCommand s := by
  simp only [step, hin, seqFinish, if_pos ((running_iff s).2 ⟨hr, hp⟩)]

theorem runCommand_of_decode {s : State} {i : Instr} (h : decode s.cmd = some i) :
    runCommand s = exec i s := by
  simp only [runCommand, h]

theorem runCommand_illegal {s : State} (h : decode s.cmd = none) :
    runCommand s = .next (Erred s .illegal) := by
  simp only [runCommand, h]
  rfl

/-- The idle engine after it has taken a write of CMD (43_orchestrator.md R213). -/
def taken (w : Word) (s : State) : State := (accept w s).respond .ok

theorem answers_write_cmd {s : State} (w : Word) (hr : s.rstN = true) (hp : s.phase = .idle) :
    Answers s (.write .w32 0x014 w) (taken w s) :=
  answers_write_of_target (tg := .cmd) hr rfl (writeRefused_idle hp (by simp))

theorem step_taken {s : State} (w : Word) (hr : s.rstN = true) :
    step ((taken w s).withInputs []) = runCommand ((taken w s).withInputs []) :=
  step_running rfl hr (accept_phase_ne_idle w s)

/-! ### Which words are legal, and the end of an illegal one (30_encoding.md R106) -/

/-- The classes of the rows are those of the OPC lists (30_encoding.md R105). -/
theorem legal_iff_fieldLegal (rd rs1 rs2 : Bank) : ∀ r ∈ opcodeRows,
    (r.2.Legal rd rs1 rs2 ↔ fieldLegal (rdOpcodes.contains r.1) rd.toNat ∧
      fieldLegal (rs1Opcodes.contains r.1) rs1.toNat ∧
      fieldLegal (rs2Opcodes.contains r.1) rs2.toNat) := by
  simp [opcodeRows, Form.Legal, fieldLegal, rdOpcodes, rs1Opcodes, rs2Opcodes, Bank.valid,
    BitVec.toNat_eq]

/-- Settles O5: the rows for the legal words, the acceptance and its run for an illegal one. -/
theorem legalityOfCommandWords : Obligations.LegalityOfCommandWords := by
  refine ⟨fun w => ?_, fun s w hr hp hd => ⟨_, answers_write_cmd w hr hp, rfl, rfl, ?_⟩⟩
  · rw [decode_isSome_iff, reservedZero_iff, ← fieldOpc_toNat, ← fieldRd_toNat, ← fieldRs1_toNat,
      ← fieldRs2_toNat, ← opcodeRows_opcodes]
    constructor
    · rintro ⟨⟨h1, h2, h3⟩, f, hr, hl⟩
      exact ⟨List.mem_map.2 ⟨_, hr, rfl⟩, h1, h2, h3, (legal_iff_fieldLegal _ _ _ _ hr).1 hl⟩
    · rintro ⟨ho, h1, h2, h3, hl⟩
      obtain ⟨r, hr, he⟩ := List.mem_map.1 ho
      rw [← he] at hl ⊢
      exact ⟨⟨h1, h2, h3⟩, _, hr, (legal_iff_fieldLegal _ _ _ r hr).2 hl⟩
  · rw [step_taken w hr]
    exact runCommand_illegal hd

/-! ### The end of a run (43_orchestrator.md R211, R216) -/

/-- The most moves MUL makes from a phase to its end (43_orchestrator.md R211, log entry 17). -/
def movesLeft : Phase → Nat
  | .fin => 1
  | .triv => 2
  | .dec => 2
  | .scale => 3
  | .intt => 4
  | .pmul => 5
  | .fntt => 6
  | .enc => 7
  | .sign => 8
  | .idle => 8
  | .sub => 8

theorem movesLeft_pos (ph : Phase) : 0 < movesLeft ph := by cases ph <;> decide

theorem movesLeft_le (ph : Phase) : movesLeft ph ≤ 8 := by cases ph <;> decide

theorem leaveSign_idle_or_nearer (w : Work) (s : State) :
    (leaveSign w s).phase = .idle ∨ movesLeft (leaveSign w s).phase < 8 := by
  unfold leaveSign
  split
  · exact .inr (by decide : movesLeft .triv < 8)
  · split
    · exact .inr (by decide : movesLeft .enc < 8)
    · exact .inl rfl

/-- Each move of MUL ends the command or comes nearer to its end. -/
theorem mulMove_idle_or_nearer (s : State) :
    (mulMove s).phase = .idle ∨ movesLeft (mulMove s).phase < movesLeft s.phase := by
  have hsign := leaveSign_idle_or_nearer (signWork s) s
  unfold mulMove
  cases hp : s.phase with
  | fin => exact .inl rfl
  | idle => exact hsign
  | sign => exact hsign
  | sub => exact hsign
  | _ => right; simp [movesLeft]

/-- Enough moves of MUL end it, from any phase and with any working values. -/
theorem mulFinish_phase {n : Nat} {s : State} (h : movesLeft s.phase ≤ n + 1) :
    (mulFinish (n + 1) s).phase = .idle := by
  induction n generalizing s with
  | zero =>
    rw [mulFinish_succ, mulFinish, ite_self]
    rcases mulMove_idle_or_nearer s with hi | hlt
    · exact hi
    · have hpos := movesLeft_pos (mulMove s).phase
      omega
  | succ n ih =>
    rw [mulFinish_succ]
    split
    · next hi => exact hi
    · next hbusy =>
      rcases mulMove_idle_or_nearer s with hi | hlt
      · exact absurd hi hbusy
      · exact ih (by omega)

theorem CommandEnd.phase_idle {s t : State} (h : CommandEnd s t) : t.phase = .idle := by
  cases h <;> rfl

/-- Every command that answers a next state leaves the engine idle. -/
theorem exec_phase {i : Instr} {s t : State} (h : exec i s = .next t) : t.phase = .idle := by
  by_cases hi : i = .mul
  · subst hi
    obtain rfl : mulFinish 8 s = t := by simpa [exec, execMul] using h
    exact mulFinish_phase (movesLeft_le _)
  · exact (exec_end hi h).phase_idle

theorem runCommand_phase {s t : State} (h : runCommand s = .next t) : t.phase = .idle := by
  rcases runCommand_next h with ⟨i, -, he⟩ | ⟨-, rfl⟩
  · exact exec_phase he
  · rfl

theorem busy_eq_false_iff (s : State) : s.busy = false ↔ s.phase = .idle := by
  simp [State.busy]

/-! ### `go` and `wait` (30_encoding.md R112) -/

/-- `go` and `wait` of a legal command on an idle engine: its acceptance and exec of it. -/
theorem goWait_exec {s : State} {i : Instr} (hi : i.wf = true) (hr : s.rstN = true)
    (hp : s.phase = .idle) : goWait i s = exec i ((taken (encode i) s).withInputs []) :=
  (goWait_idle hr hp).trans (runCommand_of_decode (decode_encode hi))

theorem goWait_inReset {s : State} (i : Instr) (hr : s.rstN = false) :
    goWait i s = .fault .hostAccessDuringReset := by
  have hstep : step (s.withInputs [goInput i]) = .fault .hostAccessDuringReset := if_pos hr
  rw [goWait, hstep]

/-- Settles O58. -/
theorem goWaitIsTheCommandWriteAndTheRun : Obligations.GoWaitIsTheCommandWriteAndTheRun := by
  refine ⟨fun s i hi hr hp => ?_, fun s i hr hp => ?_, fun s i => goWait_inReset i,
    fun s t i h => (busy_eq_false_iff t).2 ?_⟩
  · exact ⟨taken (encode i) s, answers_write_cmd _ hr hp, rfl, rfl, accept_phase_ne_idle _ s,
      (goWait_idle hr hp).trans (step_taken _ hr).symm, goWait_exec hi hr hp⟩
  · exact ⟨answers_write_refused hr (writeRefused_cmd_busy hp), goWait_busy hr hp⟩
  · cases hr : s.rstN with
    | false => simp [goWait_inReset i hr] at h
    | true =>
      by_cases hp : s.phase = .idle
      · exact runCommand_phase ((goWait_idle hr hp).symm.trans h)
      · have hrun := step_running (s := (s.respond .error).withInputs []) rfl hr hp
        exact runCommand_phase (hrun.symm.trans ((goWait_busy hr hp).symm.trans h))

/-! ### VZERO (30_encoding.md R113) -/

theorem rsub_self (p a : Nat) : rsub p a a = 0 := by simp [rsub]

theorem zipWith_rsub_self (p : Nat) (xs : List Nat) :
    List.zipWith (rsub p) xs xs = List.replicate xs.length 0 := by
  simp [List.zipWith_self, rsub_self]

/-- A pointwise command whose length and sources are as they must be (40_ring_arithmetic.md R142 to
R145). -/
theorem execPointwise_ok {op : Nat → Nat → Nat → Nat} {s : State} {rd rs1 rs2 : Bank}
    {xs ys : List Nat} (hb : [rd, rs1, rs2].all Bank.valid = true)
    (hk : s.klog2.toNat ≤ s.cfg.lkmax) (hx : RingSource s rs1 s.klog2.toNat xs)
    (hy : RingSource s rs2 s.klog2.toNat ys) :
    execPointwise op rd rs1 rs2 s =
      .next (complete (s.setBank rd (List.zipWith (op (modulusOf s.klog2.toNat)) xs ys))) := by
  rw [execPointwise, prologueVec2_ok hb hk hx hy, Check.finish_pass]

/-- PSUB of a source from itself. -/
theorem exec_psub_self {s : State} {rd rs : Bank} {xs : List Nat}
    (hwf : (Instr.psub rd rs rs).wf = true) (hk : s.klog2.toNat ≤ s.cfg.lkmax)
    (hx : RingSource s rs s.klog2.toNat xs) :
    exec (.psub rd rs rs) s =
      .next (complete (s.setBank rd (List.replicate (2 ^ s.klog2.toNat) 0))) := by
  rw [exec, execPsub, execPointwise_ok hwf hk hx hx, zipWith_rsub_self, hx.1]

/-- `go` and `wait` of one command that ends without error. -/
theorem goAll_singleton {i : Instr} {s t : State} (h : goWait i s = .next t) :
    goAll [i] s = .next t := by
  simp [goAll, h]

/-- Settles O33: VZERO is PSUB of a source from itself. -/
theorem vzeroPseudoCommand : Obligations.VzeroPseudoCommand := by
  intro s rd rs xs hr hp hk hrd hrs hx
  have hwf : (Instr.psub rd rs rs).wf = true := by
    simp [Instr.wf, Instr.banks, Bank.valid, hrd, hrs]
  have hgo := (goWait_exec hwf hr hp).trans (exec_psub_self hwf hk hx)
  obtain ⟨-, hholds, hkeeps⟩ := complete_setBank_result
    (s := (taken (encode (.psub rd rs rs)) s).withInputs []) (rd := rd)
    (ys := List.replicate (2 ^ s.klog2.toNat) 0) (by simp [List.mem_replicate])
  rw [List.length_replicate] at hkeeps
  exact ⟨_, goAll_singleton hgo, rfl, rfl, hholds, hkeeps⟩

end Sys2Proof.Machine
end

section
/-! SUPPORT. The ring commands: the word of a command as a number, the ends of their checks, and the
settled statements of 40_ring_arithmetic.md that these give. -/

namespace Sys2Proof.Machine

/-! ### The words of commands (30_encoding.md R106, R111) -/

theorem packWord_eq_commandWord (opc : BitVec 8) (rd rs1 rs2 : Bank) :
    packWord opc rd rs1 rs2 = commandWord opc.toNat rd.toNat rs1.toNat rs2.toNat := by
  have hlt := (packWord opc rd rs1 rs2).isLt
  rw [packWord_toNat] at hlt
  apply BitVec.eq_of_toNat_eq
  rw [packWord_toNat, commandWord, BitVec.toNat_ofNat, Nat.mod_eq_of_lt hlt]

/-- A command without bank fields has its encoding as its only word. -/
theorem decode_eq_some_iff_of_no_banks {i : Instr} (h : i.banks = []) (w : Word) :
    decode w = some i ↔ w = encode i := by
  have hwf : i.wf = true := by simp [Instr.wf, h]
  rw [decode_eq_some_iff, eq_comm (a := w)]
  exact and_iff_right hwf

/-- The words of a command of three bank fields. -/
theorem decode_eq_some_iff_of_three_banks (opc : BitVec 8) {i : Instr} {rd rs1 rs2 : Bank}
    (hb : i.banks = [rd, rs1, rs2]) (he : encode i = packWord opc rd rs1 rs2) (w : Word) :
    decode w = some i ↔ rd.toNat ≤ 5 ∧ rs1.toNat ≤ 5 ∧ rs2.toNat ≤ 5 ∧
      w = commandWord opc.toNat rd.toNat rs1.toNat rs2.toNat := by
  have hwf : i.wf = true ↔ rd.toNat ≤ 5 ∧ rs1.toNat ≤ 5 ∧ rs2.toNat ≤ 5 := by
    simp [Instr.wf, hb, Bank.valid]
  rw [decode_eq_some_iff, hwf, he, packWord_eq_commandWord, eq_comm (a := w), and_assoc, and_assoc]

/-! ### Scalar operands (40_ring_arithmetic.md R136, R137) -/

theorem checkScalar_ok {v n : Nat} {src : ErrSrc} (h : v < modulusOf n) :
    checkScalar v src n = .pass v := if_pos h

theorem checkScalar_range {v n : Nat} {src : ErrSrc} (h : modulusOf n ≤ v) :
    checkScalar v src n = .raise (.range src 0) := if_neg (by omega)

theorem prologueScalar1_arg {s : State} (h : s.cfg.lkmax < s.klog2.toNat) :
    prologueScalar1 s = .raise .arg := by
  rw [prologueScalar1, checkLength_bad h, Check.bind_raise]

theorem prologueScalar1_range {s : State} (h : s.klog2.toNat ≤ s.cfg.lkmax)
    (hx : modulusOf s.klog2.toNat ≤ s.rx) : prologueScalar1 s = .raise (.range .rx 0) := by
  rw [prologueScalar1, checkLength_ok h, Check.bind_pass, checkScalar_range hx, Check.bind_raise]

theorem prologueScalar1_ok {s : State} (h : s.klog2.toNat ≤ s.cfg.lkmax)
    (hx : s.rx < modulusOf s.klog2.toNat) :
    prologueScalar1 s = .pass (s.klog2.toNat, s.rx) := by
  rw [prologueScalar1, checkLength_ok h, Check.bind_pass, checkScalar_ok hx, Check.bind_pass]

/-- What ends a command at its length or at RX ends it before RY is looked at. -/
theorem prologueScalar2_raise_first {s : State} {e : Error} (h : prologueScalar1 s = .raise e) :
    prologueScalar2 s = .raise e := by
  rw [prologueScalar2, h, Check.bind_raise]

theorem prologueScalar2_range_second {s : State} (h : s.klog2.toNat ≤ s.cfg.lkmax)
    (hx : s.rx < modulusOf s.klog2.toNat) (hy : modulusOf s.klog2.toNat ≤ s.ry) :
    prologueScalar2 s = .raise (.range .ry 0) := by
  rw [prologueScalar2, prologueScalar1_ok h hx, Check.bind_pass, checkScalar_range hy,
    Check.bind_raise]

theorem prologueScalar2_ok {s : State} (h : s.klog2.toNat ≤ s.cfg.lkmax)
    (hx : s.rx < modulusOf s.klog2.toNat) (hy : s.ry < modulusOf s.klog2.toNat) :
    prologueScalar2 s = .pass (s.klog2.toNat, s.rx, s.ry) := by
  rw [prologueScalar2, prologueScalar1_ok h hx, Check.bind_pass, checkScalar_ok hy,
    Check.bind_pass]

/-! ### The scalar commands (40_ring_arithmetic.md R138 to R141) -/

/-- A completed scalar command: RZ holds its ring element whole (10_state.md R46). -/
theorem complete_setRz {s : State} {v : Nat} (h : s.klog2.toNat ≤ s.cfg.lkmax)
    (hv : v < modulusOf s.klog2.toNat) : complete (s.setRz v) = { Ended s with rz := v } := by
  rw [State.setRz, fitElem_eq h hv]
  rfl

/-- A scalar command of two operands raises what its prologue raises. -/
theorem scalar_raise {s : State} {e : Error} (h : prologueScalar2 s = .raise e) :
    ∀ i ∈ [Instr.madd, .msub, .mmul], exec i s = .next (raiseErr e s) := by
  have hall : ∀ op, execScalar2 op s = .next (raiseErr e s) := fun op => by
    rw [execScalar2, h, Check.finish_raise]
  intro i hi
  simp only [List.mem_cons, List.not_mem_nil, or_false] at hi
  rcases hi with rfl | rfl | rfl
  · exact hall radd
  · exact hall rsub
  · exact hall rmul

/-- A scalar operation with values in the ring, on two ring elements. -/
theorem execScalar2_ok {op : Nat → Nat → Nat → Nat} {s : State}
    (hop : op (modulusOf s.klog2.toNat) s.rx s.ry < modulusOf s.klog2.toNat)
    (h : s.klog2.toNat ≤ s.cfg.lkmax)
    (hx : s.rx < modulusOf s.klog2.toNat) (hy : s.ry < modulusOf s.klog2.toNat) :
    execScalar2 op s =
      .next { Ended s with rz := op (modulusOf s.klog2.toNat) s.rx s.ry } := by
  rw [execScalar2, prologueScalar2_ok h hx hy, Check.finish_pass, complete_setRz h hop]

/-- Settles O24. -/
theorem scalarCommands : Obligations.ScalarCommands := by
  refine ⟨fun w => ⟨decode_eq_some_iff_of_no_banks rfl w, decode_eq_some_iff_of_no_banks rfl w,
    decode_eq_some_iff_of_no_banks rfl w⟩, ?_⟩
  rintro s p rfl
  have hp := modulusOf_pos s.klog2.toNat
  refine ⟨fun hk => scalar_raise (prologueScalar2_raise_first (prologueScalar1_arg hk)),
    fun hk => ⟨fun hx => ?_, fun hx hy => ?_, fun hx hy => ⟨?_, ?_, ?_⟩⟩⟩
  · exact scalar_raise (prologueScalar2_raise_first (prologueScalar1_range hk hx))
  · exact scalar_raise (prologueScalar2_range_second hk hx hy)
  · exact execScalar2_ok (op := radd) (radd_lt hp _ _) hk hx hy
  · exact execScalar2_ok (op := rsub) (rsub_lt hp _ _) hk hx hy
  · exact execScalar2_ok (op := rmul) (rmul_lt hp _ _) hk hx hy

theorem invertible_iff (p x : Nat) : invertible p x = true ↔ Nat.gcd x p = 1 := beq_iff_eq

/-- MINV raises what its prologue of one operand raises; RY has no part in it. -/
theorem minv_raise {s : State} {e : Error} (h : prologueScalar1 s = .raise e) :
    exec .minv s = .next (raiseErr e s) := by
  rw [exec, execMinv, h, Check.bind_raise, Check.finish_raise]

/-- MINV of a ring element by whether it has an inverse (60_exceptions.md R256). -/
theorem minv_of_ring {s : State} (h : s.klog2.toNat ≤ s.cfg.lkmax)
    (hx : s.rx < modulusOf s.klog2.toNat) :
    exec .minv s =
      if invertible (modulusOf s.klog2.toNat) s.rx then
        .next (complete (s.setRz (rinv (modulusOf s.klog2.toNat) s.rx)))
      else .next (raiseErr .noinv s) := by
  rw [exec, execMinv, prologueScalar1_ok h hx, Check.bind_pass, checkInvertible]
  split
  · rw [Check.finish_pass]
  · rw [Check.finish_raise]

/-- Settles O25: the inverse is Euclid's, `rinv`. -/
theorem inverseCommand : Obligations.InverseCommand := by
  refine ⟨decode_eq_some_iff_of_no_banks rfl, ?_⟩
  rintro s p rfl
  have hp : 1 < modulusOf s.klog2.toNat := Nat.lt_of_succ_lt (two_lt_modulusOf _)
  refine ⟨fun hk => minv_raise (prologueScalar1_arg hk),
    fun hk => ⟨fun hx => minv_raise (prologueScalar1_range hk hx), fun hx hg => ?_,
      fun hx hg => ?_⟩⟩
  · exact (minv_of_ring hk hx).trans (if_neg fun hi => hg ((invertible_iff _ _).1 hi))
  · have hi := (invertible_iff (modulusOf s.klog2.toNat) s.rx).2 hg
    obtain ⟨hlt, hone⟩ := rinv_spec hp hi
    refine ⟨_, hlt, hone, fun z hz hxz => (rinv_unique hp hi hz hxz).symm, ?_⟩
    rw [minv_of_ring hk hx, if_pos hi, complete_setRz hk hlt]

/-! ### The pointwise commands (40_ring_arithmetic.md R142 to R145) -/

/-- The first bad element of a source raises E_RANGE with its index (40_ring_arithmetic.md R136). -/
theorem checkBank_range {s : State} {b : Bank} {src : ErrSrc} {n i : Nat}
    (h : FirstOutOfRange s b n i) : checkBank s b src n = .raise (.range src i) := by
  obtain ⟨hi, hok, v, hv, hp⟩ := h
  have hraise := checkElems_raise (s := s) (b := b) (src := src) (p := modulusOf n) (i := 0) hi
    (by simp only [Nat.zero_add]; exact hok) (by rwa [Nat.zero_add]) hp
  rwa [Nat.zero_add] at hraise

theorem prologueVec1_arg {s : State} {bs : List Bank} {rs1 : Bank}
    (hb : bs.all Bank.valid = true) (h : s.cfg.lkmax < s.klog2.toNat) :
    prologueVec1 s bs rs1 = .raise .arg := by
  rw [prologueVec1, prologueK_arg hb h, Check.bind_raise]

theorem prologueVec1_range {s : State} {bs : List Bank} {rs1 : Bank} {i : Nat}
    (hb : bs.all Bank.valid = true) (h : s.klog2.toNat ≤ s.cfg.lkmax)
    (h1 : FirstOutOfRange s rs1 s.klog2.toNat i) :
    prologueVec1 s bs rs1 = .raise (.range .rs1 i) := by
  rw [prologueVec1, prologueK_ok hb h, Check.bind_pass, checkBank_range h1, Check.bind_raise]

/-- What ends a command at its length or its first source ends it before the second is looked at. -/
theorem prologueVec2_raise_first {s : State} {bs : List Bank} {rs1 rs2 : Bank} {e : Error}
    (h : prologueVec1 s bs rs1 = .raise e) : prologueVec2 s bs rs1 rs2 = .raise e := by
  rw [prologueVec2, h, Check.bind_raise]

theorem prologueVec2_range_second {s : State} {bs : List Bank} {rs1 rs2 : Bank} {xs : List Nat}
    {i : Nat} (hb : bs.all Bank.valid = true) (h : s.klog2.toNat ≤ s.cfg.lkmax)
    (h1 : RingSource s rs1 s.klog2.toNat xs) (h2 : FirstOutOfRange s rs2 s.klog2.toNat i) :
    prologueVec2 s bs rs1 rs2 = .raise (.range .rs2 i) := by
  rw [prologueVec2, prologueVec1_ok hb h h1, Check.bind_pass, checkBank_range h2, Check.bind_raise]

/-- A pointwise command raises what its prologue raises. -/
theorem pointwise_raise {s : State} {rd rs1 rs2 : Bank} {e : Error}
    (h : prologueVec2 s [rd, rs1, rs2] rs1 rs2 = .raise e) :
    ∀ i ∈ [Instr.padd rd rs1 rs2, .psub rd rs1 rs2, .pmul rd rs1 rs2],
      exec i s = .next (raiseErr e s) := by
  have hall : ∀ op, execPointwise op rd rs1 rs2 s = .next (raiseErr e s) := fun op => by
    rw [execPointwise, h, Check.finish_raise]
  intro i hi
  simp only [List.mem_cons, List.not_mem_nil, or_false] at hi
  rcases hi with rfl | rfl | rfl
  · exact hall radd
  · exact hall rsub
  · exact hall rmul

/-- A pointwise operation with values in the ring: RD holds them whole, computed from the sources as
they were. -/
theorem execPointwise_result {op : Nat → Nat → Nat → Nat} {s : State} {rd rs1 rs2 : Bank}
    {xs ys : List Nat}
    (hop : ∀ a b, op (modulusOf s.klog2.toNat) a b < modulusOf s.klog2.toNat)
    (hb : [rd, rs1, rs2].all Bank.valid = true) (hk : s.klog2.toNat ≤ s.cfg.lkmax)
    (hx : RingSource s rs1 s.klog2.toNat xs) (hy : RingSource s rs2 s.klog2.toNat ys) :
    ∃ t, execPointwise op rd rs1 rs2 s = .next t ∧
      BankResult s t rd (List.zipWith (op (modulusOf s.klog2.toNat)) xs ys) := by
  refine ⟨_, execPointwise_ok hb hk hx hy, complete_setBank_result fun v hv => ?_⟩
  obtain ⟨i, hi, rfl⟩ := List.getElem_of_mem hv
  rw [List.getElem_zipWith]
  exact ring_fits hk (hop _ _)

/-- PSUB's result as `PointwiseCommands` writes it: elementwise on the sources as lists of integers,
each built element by element. -/
theorem zipWith_int_sub_eq_rsub (p : Nat) (xs ys : List Nat) :
    List.zipWith (fun a b : Int => ((a - b) % (p : Int)).toNat)
      (do let a ← xs; pure (a : Int)) (do let a ← ys; pure (a : Int)) =
    List.zipWith (rsub p) xs ys := by
  have hcast : ∀ zs : List Nat,
      (do let a ← zs; pure (a : Int)) = List.map (Nat.cast : Nat → Int) zs :=
    fun zs => bind_pure_comp _ zs
  rw [hcast, hcast, List.zipWith_map]
  rfl

/-- Settles O26. -/
theorem pointwiseCommands : Obligations.PointwiseCommands := by
  refine ⟨fun w rd rs1 rs2 => ⟨decode_eq_some_iff_of_three_banks 0x30 rfl rfl w,
    decode_eq_some_iff_of_three_banks 0x31 rfl rfl w,
    decode_eq_some_iff_of_three_banks 0x32 rfl rfl w⟩, ?_⟩
  rintro s rd rs1 rs2 n p rfl rfl hrd hrs1 hrs2
  have hp := modulusOf_pos s.klog2.toNat
  have hb : [rd, rs1, rs2].all Bank.valid = true := by simp [Bank.valid, hrd, hrs1, hrs2]
  refine ⟨fun hk => pointwise_raise (prologueVec2_raise_first (prologueVec1_arg hb hk)),
    fun hk => ⟨fun j hj => ?_, fun xs hx => ⟨fun j hj => ?_, fun ys hy => ⟨?_, ?_, ?_⟩⟩⟩⟩
  · exact pointwise_raise (prologueVec2_raise_first (prologueVec1_range hb hk hj))
  · exact pointwise_raise (prologueVec2_range_second hb hk hx hj)
  · exact execPointwise_result (op := radd) (radd_lt hp) hb hk hx hy
  · rw [zipWith_int_sub_eq_rsub]
    exact execPointwise_result (op := rsub) (rsub_lt hp) hb hk hx hy
  · exact execPointwise_result (op := rmul) (rmul_lt hp) hb hk hx hy

end Sys2Proof.Machine
end

section
/-! SUPPORT. The codec: the digit count as a number, what ENCA, ENCB and DEC do at each end of their
checks, and the settled statements of 41_codec.md that these give. -/

namespace Sys2Proof.Machine

/-! ### The digit count (41_codec.md R160; 10_state.md R38) -/

/-- 41_codec.md R160: the bounds on n determine the count. -/
theorem digitCount_eq_iff {n d : Nat} (hn : 0 < n) :
    digitCount n = d ↔ 1 ≤ d ∧ 10 ^ (d - 1) ≤ n ∧ n < 10 ^ d := by
  have hpos := (digitCount_spec hn).1
  have hlow : 10 ^ (d - 1) ≤ n ↔ ¬ digitCount n ≤ d - 1 := by rw [digitCount_le_iff, not_lt]
  rw [hlow, ← digitCount_le_iff]
  omega

/-- The widest magnitude register is that of KMAX = 4096 (00_scope.md R12). -/
theorem magwOf_le (c : Config) : magwOf c ≤ 17728 :=
  config_cases (fun c => magwOf c ≤ 17728) (by decide +kernel) c

/-- If q decimal digits hold p bits, d of them hold e bits wherever e / d is at most p / q. -/
theorem two_pow_le_ten_pow {p q e d : Nat} (hq : q ≠ 0) (hpq : 2 ^ p ≤ 10 ^ q)
    (h : e * q ≤ p * d) : 2 ^ e ≤ 10 ^ d := by
  refine (Nat.pow_le_pow_iff_left hq).1 ?_
  calc (2 ^ e) ^ q = 2 ^ (e * q) := (Nat.pow_mul ..).symm
    _ ≤ 2 ^ (p * d) := Nat.pow_le_pow_right (by decide) h
    _ = (2 ^ p) ^ d := Nat.pow_mul ..
    _ ≤ (10 ^ q) ^ d := Nat.pow_le_pow_left hpq d
    _ = (10 ^ d) ^ q := Nat.pow_right_comm ..

/-- 10_state.md R38: a magnitude has at most 5337 decimal digits, at every KMAX. -/
theorem digitCount_magnitude_le {c : Config} {v : Nat} (h : v < 2 ^ magwOf c) :
    digitCount v ≤ 5337 := by
  have hw := magwOf_le c
  rw [digitCount_le_iff]
  exact h.trans_le (two_pow_le_ten_pow (p := 289) (q := 87) (by decide) (by decide +kernel)
    (by omega))

/-- A count of a magnitude fits its field of DIGITS (10_state.md R38). -/
theorem digits_field_exact {d : Nat} (h : d ≤ 5337) : (BitVec.ofNat 16 d).toNat = d := by
  rw [BitVec.toNat_ofNat]
  exact Nat.mod_eq_of_lt (by omega)

/-- Settles O17: the count by its bounds, and the widest register for the fields. -/
theorem digitCountsFitDigits : Obligations.DigitCountsFitDigits := by
  refine ⟨digitCount_zero, fun n d hn => digitCount_eq_iff hn, fun s hs => ?_⟩
  have ha := digitCount_magnitude_le hs.opa
  have hb := digitCount_magnitude_le hs.opb
  exact ⟨ha, hb, digits_field_exact ha, digits_field_exact hb⟩

/-! ### The words of the codec commands (41_codec.md R163, R164, R167) -/

/-- The words of a command that uses one bank field, in whichever place its class puts it. -/
theorem decode_eq_some_iff_of_one_bank (opc : BitVec 8) (rd rs1 rs2 : Bank) {i : Instr} {b : Bank}
    (hb : i.banks = [b]) (he : encode i = packWord opc rd rs1 rs2) (w : Word) :
    decode w = some i ↔
      b.toNat ≤ 5 ∧ w = commandWord opc.toNat rd.toNat rs1.toNat rs2.toNat := by
  have hwf : i.wf = true ↔ b.toNat ≤ 5 := by simp [Instr.wf, hb, Bank.valid]
  rw [decode_eq_some_iff, hwf, he, packWord_eq_commandWord, eq_comm (a := w)]

theorem singleton_all_valid {b : Bank} (h : b.toNat ≤ 5) : [b].all Bank.valid = true := by
  simp [Bank.valid, h]

/-! ### ENCA and ENCB (41_codec.md R163 to R165) -/

theorem execEncode_arg {mag : Nat} {rd : Bank} {s : State} (hb : rd.toNat ≤ 5)
    (hk : s.cfg.lkmax < s.klog2.toNat) : execEncode mag rd s = .next (Erred s .arg) := by
  rw [execEncode, prologueK_arg (singleton_all_valid hb) hk]
  rfl

theorem execEncode_ok {mag : Nat} {rd : Bank} {s : State} (hb : rd.toNat ≤ 5)
    (hk : s.klog2.toNat ≤ s.cfg.lkmax) :
    execEncode mag rd s =
      .next (complete (s.setBank rd (digitEncode mag (2 ^ s.klog2.toNat)))) := by
  rw [execEncode, prologueK_ok (singleton_all_valid hb) hk, Check.finish_pass]

/-- A decimal digit is a ring element of every length from 4 on (41_codec.md R166). -/
theorem digit_lt_modulusOf {d n : Nat} (hd : d < 10) (hn : 2 ≤ n) : d < modulusOf n :=
  calc d < 2 ^ 2 ^ 2 + 1 := by omega
    _ ≤ 2 ^ 2 ^ n + 1 := Nat.succ_le_succ (Nat.pow_le_pow_right (by decide)
      (Nat.pow_le_pow_right (by decide) hn))

/-- A bank element holds a decimal digit whole (10_state.md R47). -/
theorem digit_fits (c : Config) {d : Nat} (hd : d < 10) : d < 2 ^ ewOf c :=
  ring_fits (Nat.le_of_add_right_le (k := 4) (six_le_lkmax c)) (digit_lt_modulusOf hd (le_refl 2))

/-- The bank after a completed encoding, with its frame (41_codec.md R163). -/
theorem encode_bankResult (mag n : Nat) (rd : Bank) (s : State) :
    BankResult s (complete (s.setBank rd (digitEncode mag n))) rd (digitEncode mag n) :=
  complete_setBank_result fun _ hy => digit_fits s.cfg (digitEncode_lt hy)

theorem execEncode_result {mag : Nat} {rd : Bank} {s : State} (hb : rd.toNat ≤ 5)
    (hk : s.klog2.toNat ≤ s.cfg.lkmax) :
    ∃ t, execEncode mag rd s = .next t ∧
      BankResult s t rd ((List.range (2 ^ s.klog2.toNat)).map fun i => mag / 10 ^ i % 10) := by
  rw [← digitEncode_eq_map]
  exact ⟨_, execEncode_ok hb hk, encode_bankResult mag _ rd s⟩

/-- Settles O34: both commands are `execEncode`, of OPA and of OPB. -/
theorem encodeCommands : Obligations.EncodeCommands := by
  refine ⟨fun w rd => ⟨decode_eq_some_iff_of_one_bank 0x10 rd 0 0 rfl rfl w,
    decode_eq_some_iff_of_one_bank 0x11 rd 0 0 rfl rfl w⟩, ?_⟩
  rintro s rd n rfl hb
  exact ⟨fun hk => ⟨execEncode_arg hb hk, execEncode_arg hb hk⟩,
    fun hk => ⟨execEncode_result hb hk, execEncode_result hb hk⟩⟩

/-! ### DEC (41_codec.md R167, R168) -/

/-- A completed DEC: RES holds a value of its width whole (41_codec.md R168). -/
theorem complete_setRes {s : State} {v : Nat} (neg : Bool) (h : v < 2 ^ magwOf s.cfg) :
    complete (s.setRes v neg) = { Ended s with res := v, resNeg := neg } := by
  rw [State.setRes, fitMag_eq h]
  rfl

/-- DEC raises what its prologue raises. -/
theorem dec_raise {s : State} {rs1 : Bank} {e : Error}
    (h : prologueVec1 s [rs1] rs1 = .raise e) : exec (.dec rs1) s = .next (raiseErr e s) := by
  rw [exec, execDec, h, Check.finish_raise]

theorem dec_ok {s : State} {rs1 : Bank} {xs : List Nat} (hb : rs1.toNat ≤ 5)
    (hk : s.klog2.toNat ≤ s.cfg.lkmax) (hx : RingSource s rs1 s.klog2.toNat xs) :
    exec (.dec rs1) s = .next { Ended s with res := digitDecode xs, resNeg := false } := by
  rw [exec, execDec, prologueVec1_ok (singleton_all_valid hb) hk hx, Check.finish_pass,
    complete_setRes false (digitDecode_fits hk hx.1 hx.2.2)]

/-- Settles O35. -/
theorem decodeCommand : Obligations.DecodeCommand := by
  refine ⟨fun w rs1 => decode_eq_some_iff_of_one_bank 0x12 0 rs1 0 rfl rfl w, ?_⟩
  rintro s rs1 n rfl hb
  have hv := singleton_all_valid hb
  refine ⟨fun hk => dec_raise (prologueVec1_arg hv hk),
    fun hk => ⟨fun j hj => dec_raise (prologueVec1_range hv hk hj), fun xs hx => ?_⟩⟩
  rw [dec_ok hb hk hx, digitDecode_eq_sum, hx.1]

/-! ### Encoding, then decoding (41_codec.md R165, R166) -/

/-- K digits of n carry n modulo 10^K (41_codec.md R165). -/
theorem digitDecode_digitEncode (n k : Nat) : digitDecode (digitEncode n k) = n % 10 ^ k := by
  induction k generalizing n with
  | zero => rw [Nat.pow_zero, Nat.mod_one]; rfl
  | succ k ih => rw [digitEncode, digitDecode, ih, Nat.pow_succ', Nat.mod_mul]

/-- What an encoding leaves in its bank is a source of every command from K = 4 on
(41_codec.md R166). -/
theorem encode_ringSource {n : Nat} (mag : Nat) (rd : Bank) (s : State) (hn : 2 ≤ n) :
    RingSource (complete (s.setBank rd (digitEncode mag (2 ^ n)))) rd n
      (digitEncode mag (2 ^ n)) :=
  ⟨digitEncode_length mag _, (encode_bankResult mag _ rd s).2.1,
    fun _ hx => digit_lt_modulusOf (digitEncode_lt hx) hn⟩

/-- A command that ends without error is followed by the next (30_encoding.md R113). -/
theorem goAll_cons_of_ok {i : Instr} {is : List Instr} {s t : State} (h : goWait i s = .next t)
    (he : t.err = false) : goAll (i :: is) s = goAll is t := by
  simp [goAll, h, he]

/-- A source is read from the memory alone, by the stride of the configuration. -/
theorem RingSource.congr {s t : State} {b : Bank} {n : Nat} {xs : List Nat} (hc : t.cfg = s.cfg)
    (hm : t.mem = s.mem) (h : RingSource s b n xs) : RingSource t b n xs := by
  obtain ⟨hlen, hholds, hring⟩ := h
  refine ⟨hlen, fun i v hv => ?_, hring⟩
  rw [hc, hm]
  exact hholds i v hv

/-- A command that encodes a magnitude, issued to an idle engine, leaves it idle with the digits as
a source for DEC. -/
theorem goWait_encode {i : Instr} {s : State} {b : Bank} {mag : Nat} (hi : i.wf = true)
    (hexec : exec i ((taken (encode i) s).withInputs []) =
      execEncode mag b ((taken (encode i) s).withInputs []))
    (hr : s.rstN = true) (hp : s.phase = .idle) (hb : b.toNat ≤ 5) (hn : 2 ≤ s.klog2.toNat)
    (hk : s.klog2.toNat ≤ s.cfg.lkmax) :
    ∃ t, goWait i s = .next t ∧ t.rstN = true ∧ t.phase = .idle ∧ t.err = false ∧
      t.cfg = s.cfg ∧ t.klog2 = s.klog2 ∧
      RingSource t b s.klog2.toNat (digitEncode mag (2 ^ s.klog2.toNat)) :=
  ⟨_, (goWait_exec hi hr hp).trans (hexec.trans (execEncode_ok hb hk)), hr, rfl, rfl, rfl, rfl,
    encode_ringSource mag b _ hn⟩

/-- DEC of a source, issued to an idle engine. -/
theorem goWait_dec {s : State} {b : Bank} {xs : List Nat} (hr : s.rstN = true)
    (hp : s.phase = .idle) (hb : b.toNat ≤ 5) (hk : s.klog2.toNat ≤ s.cfg.lkmax)
    (hx : RingSource s b s.klog2.toNat xs) :
    ∃ t, goWait (.dec b) s = .next t ∧ t.err = false ∧ t.resNeg = false ∧
      t.res = digitDecode xs := by
  have hsrc := hx.congr (t := (taken (encode (.dec b)) s).withInputs []) rfl rfl
  have hgo := goWait_exec (i := .dec b) (singleton_all_valid hb) hr hp
  exact ⟨_, hgo.trans (dec_ok hb hk hsrc), rfl, rfl, rfl⟩

/-- A command that encodes a magnitude, then DEC of its bank, both issued to an idle engine. -/
theorem goAll_encode_dec {i : Instr} {s : State} {b : Bank} {mag : Nat} (hi : i.wf = true)
    (hexec : exec i ((taken (encode i) s).withInputs []) =
      execEncode mag b ((taken (encode i) s).withInputs []))
    (hr : s.rstN = true) (hp : s.phase = .idle) (hb : b.toNat ≤ 5) (hn : 2 ≤ s.klog2.toNat)
    (hk : s.klog2.toNat ≤ s.cfg.lkmax) :
    ∃ t, goAll [i, .dec b] s = .next t ∧ t.err = false ∧ t.resNeg = false ∧
      t.res = mag % 10 ^ 2 ^ s.klog2.toNat := by
  obtain ⟨t, hgo, htr, htp, herr, hcfg, hklog, hsrc⟩ := goWait_encode hi hexec hr hp hb hn hk
  rw [← hklog, ← hcfg] at hk
  rw [← hklog] at hsrc ⊢
  obtain ⟨u, hdec, huerr, hneg, hres⟩ := goWait_dec htr htp hb hk hsrc
  refine ⟨u, (goAll_cons_of_ok hgo herr).trans (goAll_singleton hdec), huerr, hneg, ?_⟩
  rw [hres, digitDecode_digitEncode]

/-- Settles O36. -/
theorem encodeThenDecode : Obligations.EncodeThenDecode := by
  intro s b hr hp hb hn hk
  have hwf := singleton_all_valid hb
  exact ⟨goAll_encode_dec (i := .enca b) hwf rfl hr hp hb hn hk,
    goAll_encode_dec (i := .encb b) hwf rfl hr hp hb hn hk⟩

end Sys2Proof.Machine
end

section
/-! SUPPORT. The transform as a Fourier sum: its two halves element by element, roots whose K/2-th power
is -1, and the settled statements of 42_ntt.md about the transform of a vector (R180 to R188). -/

namespace Sys2Proof.Machine

open Finset (range sum_congr mul_sum)

/-! ### The transform element by element (42_ntt.md R180 to R183) -/

theorem evens_odds_getElem? (v : List Nat) (i : Nat) :
    (evens v)[i]? = v[2 * i]? ∧ (odds v)[i]? = v[2 * i + 1]? := by
  induction v using evens.induct generalizing i with
  | case1 => simp [evens, odds]
  | case2 x => cases i <;> simp [evens, odds, Nat.mul_add]
  | case3 x y xs ih =>
    cases i with
    | zero => simp [evens, odds]
    | succ i => simpa [evens, odds, Nat.mul_add] using ih i

theorem evens_odds_length_of_two_pow {v : List Nat} {m : Nat} (h : v.length = 2 ^ (m + 1)) :
    (evens v).length = 2 ^ m ∧ (odds v).length = 2 ^ m := by
  obtain ⟨he, ho⟩ := evens_odds_length v
  rw [Nat.pow_succ] at h
  omega

/-- 42_ntt.md R182: elements i and i + L of a transform of length 2L. -/
theorem transform_succ_getElem? {p w m i : Nat} {v : List Nat} (hv : v.length = 2 ^ (m + 1))
    (hi : i < 2 ^ m) : ∃ e o,
      (transform p m (rmul p w w) (evens v))[i]? = some e ∧
      (transform p m (rmul p w w) (odds v))[i]? = some o ∧
      (transform p (m + 1) w v)[i]? = some (radd p e (rmul p (rpow p w i) o)) ∧
      (transform p (m + 1) w v)[i + 2 ^ m]? = some (rsub p e (rmul p (rpow p w i) o)) := by
  obtain ⟨hle, hlo⟩ := evens_odds_length_of_two_pow hv
  have hlE := transform_length p m (rmul p w w) _ hle
  have hlO := transform_length p m (rmul p w w) _ hlo
  have he := List.getElem?_eq_getElem (i := i) (l := transform p m (rmul p w w) (evens v))
    (by omega)
  have ho := List.getElem?_eq_getElem (i := i) (l := transform p m (rmul p w w) (odds v))
    (by omega)
  have ht : (twiddle p w 0 (transform p m (rmul p w w) (odds v)))[i]? =
      some (rmul p (rpow p w i) (transform p m (rmul p w w) (odds v))[i]) := by
    rw [twiddle_getElem?, ho, Nat.zero_add, Option.map_some]
  have hlow : (List.zipWith (radd p) (transform p m (rmul p w w) (evens v))
      (twiddle p w 0 (transform p m (rmul p w w) (odds v)))).length = 2 ^ m := by
    rw [List.length_zipWith, twiddle_length, hlE, hlO, Nat.min_self]
  refine ⟨_, _, he, ho, ?_, ?_⟩
  · rw [transform, butterfly, List.getElem?_append_left (by omega), List.getElem?_zipWith, he, ht]
  · rw [transform, butterfly, List.getElem?_append_right (by omega), hlow, Nat.add_sub_cancel,
      List.getElem?_zipWith, he, ht]

/-- Settles O29: the halves are `evens` and `odds`. -/
theorem transformRecursion : Obligations.TransformRecursion := by
  intro p w m v
  refine ⟨rfl, fun hv => ?_⟩
  obtain ⟨hle, hlo⟩ := evens_odds_length_of_two_pow hv
  exact ⟨evens v, odds v, hle, hlo, fun i _ => evens_odds_getElem? v i,
    fun i hi => transform_succ_getElem? hv hi⟩

/-! ### Roots whose K/2-th power is -1 (42_ntt.md R188) -/

/-- For K = 2^n: w^(K/2) = -1 where K/2 is a length, and w = 1 where K = 1. -/
def PrincipalRoot {R : Type} [CommRing R] : Nat → R → Prop
  | 0, w => w = 1
  | n + 1, w => w ^ 2 ^ n = -1

section
variable {R : Type} [CommRing R] {n : Nat} {w w' : R}

theorem PrincipalRoot.pow_length (h : PrincipalRoot n w) : w ^ 2 ^ n = 1 := by
  cases n with
  | zero => rw [Nat.pow_zero, pow_one]; exact h
  | succ n => rw [Nat.pow_succ, pow_mul, show w ^ 2 ^ n = -1 from h, neg_one_sq]

/-- The root of the halves (42_ntt.md R183). -/
theorem PrincipalRoot.sq (h : PrincipalRoot (n + 1) w) : PrincipalRoot n (w * w) := by
  rw [← pow_two]
  cases n with
  | zero =>
    have hw : w ^ 2 ^ 1 = 1 := h.pow_length
    exact hw
  | succ n =>
    show (w ^ 2) ^ 2 ^ n = -1
    rw [← pow_mul, ← Nat.pow_succ']
    exact h

theorem sum_range_two_mul (f : Nat → R) (m : Nat) :
    ∑ i ∈ range (2 * m), f i = ∑ i ∈ range m, f (2 * i) + ∑ i ∈ range m, f (2 * i + 1) := by
  induction m with
  | zero => simp
  | succ m ih =>
    rw [Nat.mul_succ, Finset.sum_range_succ, Finset.sum_range_succ, ih, Finset.sum_range_succ,
      Finset.sum_range_succ]
    ring

/-- The powers of w^d over a whole period: for odd d the halves of the sum cancel, for even d they are
equal and are the sum for w^2. -/
theorem PrincipalRoot.sum_pow (h : PrincipalRoot n w) (d : Nat) :
    ∑ j ∈ range (2 ^ n), w ^ (d * j) = if 2 ^ n ∣ d then 2 ^ n else 0 := by
  induction n generalizing w d with
  | zero => simp
  | succ n ih =>
    rw [Nat.pow_succ, Nat.mul_two, Finset.sum_range_add]
    rcases Nat.even_or_odd' d with ⟨e, rfl | rfl⟩
    · have hdvd : 2 ^ n + 2 ^ n ∣ 2 * e ↔ 2 ^ n ∣ e := by
        rw [← Nat.two_mul]
        exact Nat.mul_dvd_mul_iff_left (by decide)
      have hlow : ∀ j, w ^ (2 * e * j) = (w * w) ^ (e * j) := fun j => by
        rw [← pow_two, ← pow_mul, Nat.mul_assoc]
      have hhigh : ∀ j, w ^ (2 * e * (2 ^ n + j)) = w ^ (2 * e * j) := fun j => by
        rw [hlow, hlow, Nat.mul_add, pow_add, Nat.mul_comm e (2 ^ n), pow_mul _ (2 ^ n),
          h.sq.pow_length, one_pow, one_mul]
      simp only [hhigh]
      simp only [hlow, ih h.sq, hdvd]
      split <;> ring
    · have hdvd : ¬ 2 ^ n + 2 ^ n ∣ 2 * e + 1 := fun hd => by
        have := (Dvd.intro (2 ^ n) (Nat.two_mul (2 ^ n))).trans hd
        omega
      have hneg : w ^ ((2 * e + 1) * 2 ^ n) = -1 := by
        rw [Nat.mul_comm, pow_mul, show w ^ 2 ^ n = -1 from h]
        exact Odd.neg_one_pow ⟨e, rfl⟩
      have hhigh : ∀ j, w ^ ((2 * e + 1) * (2 ^ n + j)) = -w ^ ((2 * e + 1) * j) := fun j => by
        rw [Nat.mul_add, pow_add, hneg, neg_one_mul]
      simp only [hhigh, hdvd, if_false, Finset.sum_neg_distrib, add_neg_cancel]

end

/-! ### The Fourier sum (42_ntt.md R188) -/

/-- Element i of a vector as a residue modulo p. -/
def coeff (p : Nat) (v : List Nat) (i : Nat) : ZMod p := ((v.getD i 0 : Nat) : ZMod p)

theorem coeff_of_getElem? {p : Nat} {v : List Nat} {i x : Nat} (h : v[i]? = some x) :
    coeff p v i = (x : ZMod p) := by
  rw [coeff, List.getD_eq_getElem?_getD, h, Option.getD_some]

theorem coeff_congr {p : Nat} {u v : List Nat} {i j : Nat} (h : u[i]? = v[j]?) :
    coeff p u i = coeff p v j := by
  rw [coeff, coeff, List.getD_eq_getElem?_getD, List.getD_eq_getElem?_getD, h]

theorem coeff_evens (p : Nat) (v : List Nat) (i : Nat) :
    coeff p (evens v) i = coeff p v (2 * i) := coeff_congr (evens_odds_getElem? v i).1

theorem coeff_odds (p : Nat) (v : List Nat) (i : Nat) :
    coeff p (odds v) i = coeff p v (2 * i + 1) := coeff_congr (evens_odds_getElem? v i).2

/-- A ring element is the reduction of any number of its residue class. -/
theorem getElem?_eq_mod_of_coeff {p s i : Nat} {v : List Nat} (hi : i < v.length)
    (hv : ∀ x ∈ v, x < p) (h : coeff p v i = (s : ZMod p)) : v[i]? = some (s % p) := by
  have hget := List.getElem?_eq_getElem hi
  rw [coeff_of_getElem? hget, ZMod.natCast_eq_natCast_iff',
    Nat.mod_eq_of_lt (hv _ (List.getElem_mem hi))] at h
  rw [hget, h]

theorem cast_radd (p a b : Nat) : ((radd p a b : Nat) : ZMod p) = a + b := by
  rw [radd, ZMod.natCast_mod, Nat.cast_add]

theorem cast_rmul (p a b : Nat) : ((rmul p a b : Nat) : ZMod p) = a * b := by
  rw [rmul, ZMod.natCast_mod, Nat.cast_mul]

theorem cast_rpow (p w i : Nat) : ((rpow p w i : Nat) : ZMod p) = (w : ZMod p) ^ i := by
  rw [rpow, ZMod.natCast_mod, Nat.cast_pow]

theorem cast_rsub {p : Nat} (hp : 0 < p) (a b : Nat) :
    ((rsub p a b : Nat) : ZMod p) = a - b := by
  rw [← Int.cast_natCast, rsub_cast hp, ZMod.intCast_mod, Int.cast_sub, Int.cast_natCast,
    Int.cast_natCast]

/-- The two halves of a transform as residues. -/
theorem coeff_transform_succ {p w m i : Nat} {v : List Nat} (hp : 0 < p)
    (hv : v.length = 2 ^ (m + 1)) (hi : i < 2 ^ m) :
    coeff p (transform p (m + 1) w v) i =
        coeff p (transform p m (rmul p w w) (evens v)) i +
          (w : ZMod p) ^ i * coeff p (transform p m (rmul p w w) (odds v)) i ∧
      coeff p (transform p (m + 1) w v) (i + 2 ^ m) =
        coeff p (transform p m (rmul p w w) (evens v)) i -
          (w : ZMod p) ^ i * coeff p (transform p m (rmul p w w) (odds v)) i := by
  obtain ⟨e, o, he, ho, hlow, hhigh⟩ := transform_succ_getElem? (p := p) (w := w) hv hi
  rw [coeff_of_getElem? he, coeff_of_getElem? ho, coeff_of_getElem? hlow,
    coeff_of_getElem? hhigh, cast_radd, cast_rsub hp, cast_rmul, cast_rpow]
  exact ⟨rfl, rfl⟩

/-- The Fourier sum of a vector of length 2^n. -/
def fourier (p n : Nat) (w : ZMod p) (v : List Nat) (j : Nat) : ZMod p :=
  ∑ i ∈ range (2 ^ n), coeff p v i * w ^ (i * j)

theorem fourier_natCast (p n w : Nat) (v : List Nat) (j : Nat) :
    fourier p n w v j = ((∑ i ∈ range (2 ^ n), v.getD i 0 * w ^ (i * j) : Nat) : ZMod p) := by
  simp only [fourier, coeff, Nat.cast_sum, Nat.cast_mul, Nat.cast_pow]

/-- The sum over even and odd indices. -/
theorem fourier_succ (p n : Nat) (w : ZMod p) (v : List Nat) (j : Nat) :
    fourier p (n + 1) w v j =
      fourier p n (w * w) (evens v) j + w ^ j * fourier p n (w * w) (odds v) j := by
  simp only [fourier, Nat.pow_succ', sum_range_two_mul, mul_sum, coeff_evens, coeff_odds,
    ← pow_two, ← pow_mul]
  congr 1
  · exact sum_congr rfl fun i _ => by rw [Nat.mul_assoc]
  · exact sum_congr rfl fun i _ => by ring

/-- The Fourier sum has period K. -/
theorem fourier_add_length {p n : Nat} {w : ZMod p} (h : PrincipalRoot n w) (v : List Nat)
    (j : Nat) : fourier p n w v (j + 2 ^ n) = fourier p n w v j := by
  refine sum_congr rfl fun i _ => ?_
  rw [Nat.mul_add, pow_add, Nat.mul_comm i (2 ^ n), pow_mul w (2 ^ n), h.pow_length, one_pow,
    mul_one]

/-- 42_ntt.md R188: the transform is the Fourier sum. -/
theorem coeff_transform {p n w j : Nat} {v : List Nat} (hp : 0 < p) (hv : v.length = 2 ^ n)
    (hw : PrincipalRoot n (w : ZMod p)) (hj : j < 2 ^ n) :
    coeff p (transform p n w v) j = fourier p n w v j := by
  induction n generalizing w v j with
  | zero =>
    obtain rfl : j = 0 := by simpa using hj
    simp [transform, fourier]
  | succ n ih =>
    obtain ⟨hle, hlo⟩ := evens_odds_length_of_two_pow hv
    have hsq : PrincipalRoot n ((rmul p w w : Nat) : ZMod p) := cast_rmul p w w ▸ hw.sq
    have hE : ∀ i < 2 ^ n, coeff p (transform p n (rmul p w w) (evens v)) i =
        fourier p n (w * w) (evens v) i := fun i hi => by rw [ih hle hsq hi, cast_rmul]
    have hO : ∀ i < 2 ^ n, coeff p (transform p n (rmul p w w) (odds v)) i =
        fourier p n (w * w) (odds v) i := fun i hi => by rw [ih hlo hsq hi, cast_rmul]
    rcases Nat.lt_or_ge j (2 ^ n) with hlow | hhigh
    · rw [(coeff_transform_succ hp hv hlow).1, hE j hlow, hO j hlow, fourier_succ]
    · obtain ⟨i, rfl⟩ := Nat.exists_eq_add_of_le' hhigh
      have hi : i < 2 ^ n := by rw [Nat.pow_succ] at hj; omega
      have hhalf : (w : ZMod p) ^ 2 ^ n = -1 := hw
      rw [(coeff_transform_succ hp hv hi).2, hE i hi, hO i hi, fourier_succ,
        fourier_add_length hw.sq, fourier_add_length hw.sq, pow_add, hhalf]
      ring

/-! ### The roots of the engine (42_ntt.md R185, R186) -/

/-- 2^K = -1 modulo p (40_ring_arithmetic.md R130). -/
theorem two_pow_length (n : Nat) : (2 : ZMod (modulusOf n)) ^ 2 ^ n = -1 := by
  have h : ((modulusOf n : Nat) : ZMod (modulusOf n)) = 0 := ZMod.natCast_self _
  rw [modulusOf, Nat.cast_add, Nat.cast_pow, Nat.cast_one, Nat.cast_ofNat] at h
  exact eq_neg_of_add_eq_zero_left h

theorem two_pow_two_mul_length (n : Nat) : (2 : ZMod (modulusOf n)) ^ (2 * 2 ^ n) = 1 := by
  rw [Nat.mul_comm, pow_mul, two_pow_length, neg_one_sq]

theorem principalRoot_forwardRoot (n : Nat) :
    PrincipalRoot n ((forwardRoot : Nat) : ZMod (modulusOf n)) := by
  have hfour : ((forwardRoot : Nat) : ZMod (modulusOf n)) = 2 ^ 2 := by norm_num [forwardRoot]
  rw [hfour]
  cases n with
  | zero => exact two_pow_two_mul_length 0
  | succ n =>
    show (2 ^ 2) ^ 2 ^ n = -1
    rw [← pow_mul, ← Nat.pow_succ', two_pow_length]

/-- The two roots are inverse to each other. -/
theorem forwardRoot_mul_inverseRoot (n : Nat) :
    ((forwardRoot : Nat) : ZMod (modulusOf n)) * ((inverseRoot n : Nat) : ZMod (modulusOf n)) =
      1 := by
  have hpos := Nat.two_pow_pos n
  have hexp : 2 + (2 * 2 ^ n - 2) = 2 * 2 ^ n := by omega
  rw [inverseRoot, ZMod.natCast_mod, ← Nat.cast_mul, show forwardRoot = 2 ^ 2 from rfl,
    ← Nat.pow_add, hexp, Nat.cast_pow, Nat.cast_ofNat, two_pow_two_mul_length]

/-- The inverse of such a root is one too. -/
theorem PrincipalRoot.of_mul_eq_one {R : Type} [CommRing R] {n : Nat} {w w' : R}
    (h : PrincipalRoot n w) (hww' : w * w' = 1) : PrincipalRoot n w' := by
  cases n with
  | zero =>
    have hw : w = 1 := h
    rwa [hw, one_mul] at hww'
  | succ n =>
    have hpow : w ^ 2 ^ n * w' ^ 2 ^ n = 1 := by rw [← mul_pow, hww', one_pow]
    rw [show w ^ 2 ^ n = -1 from h, neg_one_mul] at hpow
    exact neg_eq_iff_eq_neg.1 hpow

theorem principalRoot_inverseRoot (n : Nat) :
    PrincipalRoot n ((inverseRoot n : Nat) : ZMod (modulusOf n)) :=
  (principalRoot_forwardRoot n).of_mul_eq_one (forwardRoot_mul_inverseRoot n)

/-- A K/2-th power of -1 as the spec writes it and as a residue (42_ntt.md R188). -/
theorem principalRoot_iff {n : Nat} (hn : 1 ≤ n) (w : Nat) :
    PrincipalRoot n (w : ZMod (modulusOf n)) ↔
      w ^ 2 ^ (n - 1) % modulusOf n = modulusOf n - 1 := by
  obtain ⟨m, rfl⟩ := Nat.exists_eq_add_of_le' hn
  have hp := two_lt_modulusOf (m + 1)
  have hneg : ((modulusOf (m + 1) - 1 : Nat) : ZMod (modulusOf (m + 1))) = -1 := by
    rw [Nat.cast_sub (by omega), ZMod.natCast_self, Nat.cast_one, zero_sub]
  show (w : ZMod (modulusOf (m + 1))) ^ 2 ^ m = -1 ↔ _
  rw [← hneg, ← Nat.cast_pow, ZMod.natCast_eq_natCast_iff', Nat.add_sub_cancel,
    Nat.mod_eq_of_lt (show modulusOf (m + 1) - 1 < modulusOf (m + 1) by omega)]

/-- Settles O30. -/
theorem transformClosedForm : Obligations.TransformClosedForm := by
  rintro n p hn rfl
  have hp := modulusOf_pos n
  refine ⟨(principalRoot_iff hn forwardRoot).1 (principalRoot_forwardRoot n),
    (principalRoot_iff hn (inverseRoot n)).1 (principalRoot_inverseRoot n),
    fun w v hl hv hw j hj => ?_⟩
  refine getElem?_eq_mod_of_coeff (by rwa [transform_length _ _ _ _ hl])
    (transform_lt hp n w v hv) ?_
  exact (coeff_transform hp hl ((principalRoot_iff hn w).2 hw) hj).trans
    (fourier_natCast _ _ _ _ _)

end Sys2Proof.Machine
end

section
/-! SUPPORT. The transform commands: their words, what ends them with an error, and the bank they leave,
with the settled statements of 42_ntt.md about them (R191 to R196). -/

namespace Sys2Proof.Machine

/-! ### The words and the checks of the transform commands -/

/-- The words of a command of two bank fields. -/
theorem decode_eq_some_iff_of_two_banks (opc : BitVec 8) {i : Instr} {rd rs1 : Bank}
    (hb : i.banks = [rd, rs1]) (he : encode i = packWord opc rd rs1 0) (w : Word) :
    decode w = some i ↔ rd.toNat ≤ 5 ∧ rs1.toNat ≤ 5 ∧
      w = commandWord opc.toNat rd.toNat rs1.toNat 0 := by
  have hwf : i.wf = true ↔ rd.toNat ≤ 5 ∧ rs1.toNat ≤ 5 := by
    simp [Instr.wf, hb, Bank.valid]
  rw [decode_eq_some_iff, hwf, he, packWord_eq_commandWord, eq_comm (a := w), and_assoc]
  rfl

theorem pair_all_valid {rd rs1 : Bank} (hrd : rd.toNat ≤ 5) (hrs1 : rs1.toNat ≤ 5) :
    [rd, rs1].all Bank.valid = true := by
  simp [Bank.valid, hrd, hrs1]

/-- What ends NTTW at its length or its source ends it before RX is looked at (42_ntt.md R193). -/
theorem nttw_raise_first {s : State} {rd rs1 : Bank} {e : Error}
    (h : prologueVec1 s [rd, rs1] rs1 = .raise e) :
    exec (.nttw rd rs1) s = .next (raiseErr e s) := by
  rw [exec, execNttw, prologueNttw, h, Check.bind_raise, Check.finish_raise]

/-- A transform command raises what its prologue of one source raises; NTTW here is in place. -/
theorem transform_raise {s : State} {rd rs1 : Bank} {e : Error}
    (h : prologueVec1 s [rd, rs1] rs1 = .raise e)
    (hw : prologueVec1 s [rs1, rs1] rs1 = .raise e) :
    ∀ i ∈ [Instr.nttf rd rs1, .ntti rd rs1, .nttw rs1 rs1, .scal rd rs1],
      exec i s = .next (raiseErr e s) := by
  intro i hi
  simp only [List.mem_cons, List.not_mem_nil, or_false] at hi
  rcases hi with rfl | rfl | rfl | rfl
  · rw [exec, execNttf, h, Check.finish_raise]
  · rw [exec, execNtti, h, Check.finish_raise]
  · exact nttw_raise_first hw
  · rw [exec, execScal, h, Check.finish_raise]

/-! ### Completed transform commands -/

section
variable {s : State} {rd rs1 : Bank} {xs : List Nat}

/-- NTTF of a source of ring elements (42_ntt.md R191). -/
theorem exec_nttf_ok (hb : [rd, rs1].all Bank.valid = true) (hk : s.klog2.toNat ≤ s.cfg.lkmax)
    (hx : RingSource s rs1 s.klog2.toNat xs) :
    exec (.nttf rd rs1) s = .next (complete (s.setBank rd
      (transform (modulusOf s.klog2.toNat) s.klog2.toNat forwardRoot xs))) := by
  rw [exec, execNttf, prologueVec1_ok hb hk hx, Check.finish_pass]

/-- NTTI of a source of ring elements (42_ntt.md R192). -/
theorem exec_ntti_ok (hb : [rd, rs1].all Bank.valid = true) (hk : s.klog2.toNat ≤ s.cfg.lkmax)
    (hx : RingSource s rs1 s.klog2.toNat xs) :
    exec (.ntti rd rs1) s = .next (complete (s.setBank rd
      (transform (modulusOf s.klog2.toNat) s.klog2.toNat (inverseRoot s.klog2.toNat) xs))) := by
  rw [exec, execNtti, prologueVec1_ok hb hk hx, Check.finish_pass]

/-- SCAL of a source of ring elements (42_ntt.md R194). -/
theorem exec_scal_ok (hb : [rd, rs1].all Bank.valid = true) (hk : s.klog2.toNat ≤ s.cfg.lkmax)
    (hx : RingSource s rs1 s.klog2.toNat xs) :
    exec (.scal rd rs1) s = .next (complete (s.setBank rd
      (xs.map fun v => rmul (modulusOf s.klog2.toNat) v (scaleFactor s.klog2.toNat)))) := by
  rw [exec, execScal, prologueVec1_ok hb hk hx, Check.finish_pass]

/-- NTTW of a source of ring elements, by whether RX is one too (42_ntt.md R193). -/
theorem exec_nttw_of_source (hb : [rd, rs1].all Bank.valid = true)
    (hk : s.klog2.toNat ≤ s.cfg.lkmax) (hx : RingSource s rs1 s.klog2.toNat xs) :
    exec (.nttw rd rs1) s =
      if s.rx < modulusOf s.klog2.toNat then
        .next (complete (s.setBank rd
          (transform (modulusOf s.klog2.toNat) s.klog2.toNat s.rx xs)))
      else .next (raiseErr (.range .rx 0) s) := by
  rw [exec, execNttw, prologueNttw, prologueVec1_ok hb hk hx, Check.bind_pass, checkScalar]
  split
  · rw [Check.bind_pass, Check.finish_pass]
  · rw [Check.bind_raise, Check.finish_raise]

/-- A completed command that writes ring elements of a legal length: RD holds them whole. -/
theorem setBank_ring_result {n : Nat} {ys : List Nat} (rd : Bank) (hn : n ≤ s.cfg.lkmax)
    (hy : ∀ y ∈ ys, y < modulusOf n) : BankResult s (complete (s.setBank rd ys)) rd ys :=
  complete_setBank_result fun y hm => ring_fits hn (hy y hm)

theorem setBank_transform_result {n : Nat} (w : Nat) (rd : Bank) (hn : n ≤ s.cfg.lkmax)
    (hx : RingSource s rs1 n xs) :
    BankResult s (complete (s.setBank rd (transform (modulusOf n) n w xs))) rd
      (transform (modulusOf n) n w xs) :=
  setBank_ring_result rd hn (transform_lt (modulusOf_pos n) n w xs hx.2.2)

theorem map_rmul_lt (n x : Nat) (xs : List Nat) :
    ∀ y ∈ xs.map fun v => rmul (modulusOf n) v x, y < modulusOf n := by
  intro y hy
  obtain ⟨v, -, rfl⟩ := List.mem_map.1 hy
  exact rmul_lt (modulusOf_pos n) v x

/-- NTTW of a source of ring elements: E_RANGE for an RX out of range, else the transform with the
root RX (42_ntt.md R193). -/
theorem nttw_of_source (hb : [rd, rs1].all Bank.valid = true) (hk : s.klog2.toNat ≤ s.cfg.lkmax)
    (hx : RingSource s rs1 s.klog2.toNat xs) :
    (modulusOf s.klog2.toNat ≤ s.rx →
      exec (.nttw rd rs1) s = .next (ErredRange s .rx 0)) ∧
    (s.rx < modulusOf s.klog2.toNat → ∃ t, exec (.nttw rd rs1) s = .next t ∧
      BankResult s t rd (transform (modulusOf s.klog2.toNat) s.klog2.toNat s.rx xs)) :=
  ⟨fun hle => (exec_nttw_of_source hb hk hx).trans (if_neg (Nat.not_lt.2 hle)),
    fun hlt => ⟨_, (exec_nttw_of_source hb hk hx).trans (if_pos hlt),
      setBank_transform_result s.rx rd hk hx⟩⟩

end

/-- Settles O27: the factor of SCAL is `scaleFactor`. -/
theorem transformCommands : Obligations.TransformCommands := by
  refine ⟨fun w rd rs1 => ⟨decode_eq_some_iff_of_two_banks 0x20 rfl rfl w,
    decode_eq_some_iff_of_two_banks 0x21 rfl rfl w,
    decode_eq_some_iff_of_two_banks 0x23 rfl rfl w⟩, ?_⟩
  rintro s rd rs1 n p rfl rfl hrd hrs1
  have hb := pair_all_valid hrd hrs1
  have hbw := pair_all_valid hrs1 hrs1
  refine ⟨fun hk => transform_raise (prologueVec1_arg hb hk) (prologueVec1_arg hbw hk),
    fun hk => ⟨fun j hj => ?_, fun xs hx => ?_⟩⟩
  · exact transform_raise (prologueVec1_range hb hk hj) (prologueVec1_range hbw hk hj)
  · obtain ⟨hrange, hroot⟩ := nttw_of_source hbw hk hx
    obtain ⟨hlt, hone⟩ := scaleFactor_spec s.klog2.toNat
    exact ⟨⟨_, exec_nttf_ok hb hk hx, setBank_transform_result forwardRoot rd hk hx⟩,
      ⟨_, exec_ntti_ok hb hk hx, setBank_transform_result (inverseRoot _) rd hk hx⟩,
      hrange, hroot,
      ⟨_, _, exec_scal_ok hb hk hx, hlt, hone, setBank_ring_result rd hk (map_rmul_lt _ _ xs)⟩⟩

/-- Settles O28. -/
theorem transformWithRootCommand : Obligations.TransformWithRootCommand := by
  refine ⟨fun w rd rs1 => decode_eq_some_iff_of_two_banks 0x22 rfl rfl w, ?_⟩
  rintro s rd rs1 n p rfl rfl hrd hrs1
  have hb := pair_all_valid hrd hrs1
  exact ⟨fun hk => nttw_raise_first (prologueVec1_arg hb hk),
    fun hk => ⟨fun j hj => nttw_raise_first (prologueVec1_range hb hk hj),
      fun xs hx => nttw_of_source hb hk hx⟩⟩

end Sys2Proof.Machine
end

section
/-! SUPPORT. The inverse of the transform: the Fourier sums of the two roots undo each other up to the
factor K, so INTT after NTTF gives the vector back and CCONV is the cyclic convolution (42_ntt.md R189,
R195; 30_encoding.md R113). -/

namespace Sys2Proof.Machine

open Finset (range sum_congr mul_sum sum_mul)

/-! ### Fourier inversion in a ring -/

section
variable {R : Type} [CommRing R] {n : Nat} {w w' : R}

/-- The inverse of the root is its power K - 1. -/
theorem PrincipalRoot.inverse_eq (h : PrincipalRoot n w) (hww' : w * w' = 1) :
    w' = w ^ (2 ^ n - 1) := by
  calc w' = w ^ (2 ^ n - 1 + 1) * w' := by
        rw [Nat.sub_add_cancel Nat.one_le_two_pow, h.pow_length, one_mul]
    _ = w ^ (2 ^ n - 1) := by rw [pow_succ, mul_assoc, hww', mul_one]

/-- Orthogonality of the powers of the two roots. -/
theorem PrincipalRoot.sum_pow_mul_pow (h : PrincipalRoot n w) (hww' : w * w' = 1) (d k : Nat) :
    ∑ j ∈ range (2 ^ n), w ^ (d * j) * w' ^ (j * k) = if d ≡ k [MOD 2 ^ n] then 2 ^ n else 0 := by
  have hsum : k + (2 ^ n - 1) * k = 2 ^ n * k := by
    rw [Nat.add_comm, ← Nat.succ_mul, Nat.succ_eq_add_one, Nat.sub_add_cancel Nat.one_le_two_pow]
  have hdvd : 2 ^ n ∣ d + (2 ^ n - 1) * k ↔ d ≡ k [MOD 2 ^ n] := by
    have hk : k + (2 ^ n - 1) * k ≡ 0 [MOD 2 ^ n] :=
      (Nat.modEq_zero_iff_dvd).2 (hsum ▸ Nat.dvd_mul_right _ _)
    rw [← Nat.modEq_zero_iff_dvd]
    exact ⟨fun hd => Nat.ModEq.add_right_cancel' _ (hd.trans hk.symm),
      fun hd => (hd.add_right _).trans hk⟩
  simp only [← hdvd, ← h.sum_pow, h.inverse_eq hww']
  exact sum_congr rfl fun j _ => by rw [← pow_mul, ← pow_add]; congr 1; ring

/-- Fourier inversion: from the sums of f over the powers e of the root, the inverse root brings back
K times the part of f at the exponents that are k modulo K. -/
theorem PrincipalRoot.inversion (h : PrincipalRoot n w) (hww' : w * w' = 1) {ι : Type}
    (S : Finset ι) (f : ι → R) (e : ι → Nat) (k : Nat) :
    ∑ j ∈ range (2 ^ n), (∑ x ∈ S, f x * w ^ (e x * j)) * w' ^ (j * k) =
      2 ^ n * ∑ x ∈ S, if e x ≡ k [MOD 2 ^ n] then f x else 0 := by
  simp only [sum_mul, mul_sum]
  rw [Finset.sum_comm]
  refine sum_congr rfl fun x _ => ?_
  simp only [mul_assoc, ← mul_sum, h.sum_pow_mul_pow hww']
  split <;> ring

end

/-! ### Inverse transform and scaling of a vector (42_ntt.md R189) -/

/-- The scaled inverse transform, as INTT leaves it (30_encoding.md R113). -/
def scaledInverse (n : Nat) (v : List Nat) : List Nat :=
  (transform (modulusOf n) n (inverseRoot n) v).map fun x => rmul (modulusOf n) x (scaleFactor n)

theorem scaledInverse_length {n : Nat} {v : List Nat} (h : v.length = 2 ^ n) :
    (scaledInverse n v).length = 2 ^ n := by
  rw [scaledInverse, List.length_map, transform_length _ _ _ _ h]

theorem scaledInverse_lt (n : Nat) (v : List Nat) : ∀ x ∈ scaledInverse n v, x < modulusOf n :=
  map_rmul_lt n (scaleFactor n) _

theorem coeff_map_rmul (p x : Nat) (v : List Nat) (i : Nat) :
    coeff p (v.map fun a => rmul p a x) i = coeff p v i * x := by
  rw [coeff, coeff, List.getD_eq_getElem?_getD, List.getD_eq_getElem?_getD, List.getElem?_map]
  cases v[i]? with
  | none => simp
  | some a => rw [Option.map_some, Option.getD_some, Option.getD_some, cast_rmul]

/-- 42_ntt.md R187. -/
theorem length_mul_scaleFactor (n : Nat) :
    (2 : ZMod (modulusOf n)) ^ n * ((scaleFactor n : Nat) : ZMod (modulusOf n)) = 1 := by
  have h : ((2 ^ n * scaleFactor n % modulusOf n : Nat) : ZMod (modulusOf n)) = (1 : Nat) :=
    congrArg Nat.cast (scaleFactor_spec n).2
  rwa [ZMod.natCast_mod, Nat.cast_mul, Nat.cast_pow, Nat.cast_ofNat, Nat.cast_one] at h

/-- The scaled inverse transform of a vector whose elements are the sums of f over the powers e of the
forward root: each element k is the part of f at the exponents that are k modulo K. -/
theorem coeff_scaledInverse {n k : Nat} {v : List Nat} {ι : Type} (S : Finset ι)
    (f : ι → ZMod (modulusOf n)) (e : ι → Nat) (hl : v.length = 2 ^ n) (hk : k < 2 ^ n)
    (hv : ∀ j < 2 ^ n, coeff (modulusOf n) v j =
      ∑ x ∈ S, f x * ((forwardRoot : Nat) : ZMod (modulusOf n)) ^ (e x * j)) :
    coeff (modulusOf n) (scaledInverse n v) k =
      ∑ x ∈ S, if e x ≡ k [MOD 2 ^ n] then f x else 0 := by
  have hraw : coeff (modulusOf n) (transform (modulusOf n) n (inverseRoot n) v) k =
      2 ^ n * ∑ x ∈ S, if e x ≡ k [MOD 2 ^ n] then f x else 0 := by
    rw [coeff_transform (modulusOf_pos n) hl (principalRoot_inverseRoot n) hk, fourier,
      ← (principalRoot_forwardRoot n).inversion (forwardRoot_mul_inverseRoot n)]
    exact sum_congr rfl fun j hj => by rw [hv j (Finset.mem_range.1 hj)]
  rw [scaledInverse, coeff_map_rmul, hraw, mul_right_comm, length_mul_scaleFactor, one_mul]

/-- 42_ntt.md R189: the scaled inverse transform undoes the forward transform. -/
theorem scaledInverse_transform {n : Nat} {xs : List Nat} (hl : xs.length = 2 ^ n)
    (hx : ∀ x ∈ xs, x < modulusOf n) :
    scaledInverse n (transform (modulusOf n) n forwardRoot xs) = xs := by
  have hlT := transform_length (modulusOf n) n forwardRoot xs hl
  refine List.ext_getElem (by rw [scaledInverse_length hlT, hl]) fun k hk hkx => ?_
  have hk2 : k < 2 ^ n := hl ▸ hkx
  have hget := List.getElem?_eq_getElem hkx
  have hcoeff : coeff (modulusOf n)
      (scaledInverse n (transform (modulusOf n) n forwardRoot xs)) k = (xs[k] : Nat) := by
    rw [coeff_scaledInverse (range (2 ^ n)) (coeff (modulusOf n) xs) id hlT hk2
      fun j hj => coeff_transform (modulusOf_pos n) hl (principalRoot_forwardRoot n) hj,
      Finset.sum_eq_single_of_mem k (Finset.mem_range.2 hk2), id_eq, if_pos (Nat.ModEq.refl k),
      coeff_of_getElem? hget]
    intro i hi hik
    exact if_neg fun hmod => hik (hmod.eq_of_lt_of_lt (Finset.mem_range.1 hi) hk2)
  have hval := getElem?_eq_mod_of_coeff hk (scaledInverse_lt n _) hcoeff
  rw [Nat.mod_eq_of_lt (hx _ (List.getElem_mem hkx)), List.getElem?_eq_getElem hk] at hval
  exact Option.some.inj hval

/-! ### The product of two transforms (42_ntt.md R195) -/

/-- The pointwise product of two forward transforms. -/
def transformProduct (n : Nat) (xs ys : List Nat) : List Nat :=
  List.zipWith (rmul (modulusOf n)) (transform (modulusOf n) n forwardRoot xs)
    (transform (modulusOf n) n forwardRoot ys)

theorem zipWith_rmul_lt (n : Nat) (as bs : List Nat) :
    ∀ x ∈ List.zipWith (rmul (modulusOf n)) as bs, x < modulusOf n := by
  intro x hx
  obtain ⟨i, hi, rfl⟩ := List.getElem_of_mem hx
  rw [List.getElem_zipWith]
  exact rmul_lt (modulusOf_pos n) _ _

theorem transformProduct_length {n : Nat} {xs ys : List Nat} (hx : xs.length = 2 ^ n)
    (hy : ys.length = 2 ^ n) : (transformProduct n xs ys).length = 2 ^ n := by
  rw [transformProduct, List.length_zipWith, transform_length _ _ _ _ hx,
    transform_length _ _ _ _ hy, Nat.min_self]

theorem coeff_zipWith_rmul {p i : Nat} {as bs : List Nat} (ha : i < as.length)
    (hb : i < bs.length) :
    coeff p (List.zipWith (rmul p) as bs) i = coeff p as i * coeff p bs i := by
  have hga := List.getElem?_eq_getElem ha
  have hgb := List.getElem?_eq_getElem hb
  have hz : (List.zipWith (rmul p) as bs)[i]? = some (rmul p as[i] bs[i]) :=
    List.getElem?_zipWith_eq_some.2 ⟨_, _, hga, hgb, rfl⟩
  rw [coeff_of_getElem? hz, coeff_of_getElem? hga, coeff_of_getElem? hgb, cast_rmul]

/-- Its elements are the sums over the pairs of indices, with the exponents i + l. -/
theorem coeff_transformProduct {n j : Nat} {xs ys : List Nat} (hx : xs.length = 2 ^ n)
    (hy : ys.length = 2 ^ n) (hj : j < 2 ^ n) :
    coeff (modulusOf n) (transformProduct n xs ys) j =
      ∑ x ∈ range (2 ^ n) ×ˢ range (2 ^ n),
        coeff (modulusOf n) xs x.1 * coeff (modulusOf n) ys x.2 *
          ((forwardRoot : Nat) : ZMod (modulusOf n)) ^ ((x.1 + x.2) * j) := by
  have hp := modulusOf_pos n
  have hroot := principalRoot_forwardRoot n
  rw [transformProduct, coeff_zipWith_rmul (by rwa [transform_length _ _ _ _ hx])
    (by rwa [transform_length _ _ _ _ hy]), coeff_transform hp hx hroot hj,
    coeff_transform hp hy hroot hj, fourier, fourier, Finset.sum_mul_sum, Finset.sum_product]
  exact sum_congr rfl fun i _ => sum_congr rfl fun l _ => by ring

/-- The one index l below K with i + l = k modulo K. -/
theorem add_modEq_iff {K i k l : Nat} (hi : i < K) (hl : l < K) :
    i + l ≡ k [MOD K] ↔ (k + K - i) % K = l := by
  have hsplit : i + (k + K - i) = k + K := by omega
  have hbase : i + (k + K - i) ≡ k [MOD K] := by rw [hsplit]; exact Nat.add_mod_right k K
  have hred : (k + K - i) % K = l ↔ k + K - i ≡ l [MOD K] := by
    rw [Nat.ModEq, Nat.mod_eq_of_lt hl]
  rw [hred]
  exact ⟨fun h => Nat.ModEq.add_left_cancel' i (hbase.trans h.symm),
    fun h => (h.symm.add_left i).trans hbase⟩

/-- 42_ntt.md R195: the scaled inverse transform of the product is the cyclic convolution. -/
theorem scaledInverse_transformProduct {n k : Nat} {xs ys : List Nat} (hx : xs.length = 2 ^ n)
    (hy : ys.length = 2 ^ n) (hk : k < 2 ^ n) :
    (scaledInverse n (transformProduct n xs ys))[k]? =
      some ((∑ i ∈ range (2 ^ n), xs.getD i 0 * ys.getD ((k + 2 ^ n - i) % 2 ^ n) 0) %
        modulusOf n) := by
  have hlen := transformProduct_length hx hy
  refine getElem?_eq_mod_of_coeff (by rwa [scaledInverse_length hlen]) (scaledInverse_lt n _) ?_
  rw [coeff_scaledInverse _ _ (fun x : Nat × Nat => x.1 + x.2) hlen hk
    fun j hj => coeff_transformProduct hx hy hj, Finset.sum_product, Nat.cast_sum]
  refine sum_congr rfl fun i hi => ?_
  have hterm : ∀ l ∈ range (2 ^ n),
      (if i + l ≡ k [MOD 2 ^ n] then coeff (modulusOf n) xs i * coeff (modulusOf n) ys l else 0) =
        if (k + 2 ^ n - i) % 2 ^ n = l then coeff (modulusOf n) xs i * coeff (modulusOf n) ys l
        else 0 := fun l hl => by
    simp only [add_modEq_iff (Finset.mem_range.1 hi) (Finset.mem_range.1 hl)]
  rw [sum_congr rfl hterm, Finset.sum_ite_eq, if_pos
    (Finset.mem_range.2 (Nat.mod_lt _ (Nat.two_pow_pos n))), Nat.cast_mul]
  rfl

/-! ### Commands of one length in a row (30_encoding.md R112, R113) -/

/-- An idle engine out of reset whose length is legal. -/
structure Ready (s : State) (n : Nat) : Prop where
  released : s.rstN = true
  idle : s.phase = .idle
  klog : s.klog2.toNat = n
  legal : n ≤ s.cfg.lkmax

/-- A command on an engine in s has completed in t, with ys in bank RD as a source for the next
command, and with every other source as it was. -/
structure LeavesSource (s t : State) (rd : Bank) (n : Nat) (ys : List Nat) : Prop where
  ready : Ready t n
  done : t.done = true
  noErr : t.err = false
  source : RingSource t rd n ys
  others : ∀ b xs, b ≠ rd → RingSource s b n xs → RingSource t b n xs

/-- A bank write leaves the sources in other banks as they are (20_memory.md R73; 10_state.md R49). -/
theorem RingSource.setBank_other {s : State} {b rd : Bank} {n : Nat} {xs ys : List Nat}
    (h : RingSource s b n xs) (hb : b ≠ rd) (hn : n ≤ s.cfg.lkmax) (hy : ys.length = 2 ^ n) :
    RingSource (s.setBank rd ys) b n xs := by
  obtain ⟨hlen, hholds, hring⟩ := h
  have hk := two_pow_le_kmax hn
  refine ⟨hlen, fun i v hv => (readElem_congr fun j hj k hk4 => ?_).trans (hholds i v hv), hring⟩
  have hi : i < s.cfg.kmax := by
    have := (List.getElem?_eq_some_iff.1 hv).1
    omega
  refine readByte_writeBank_other _ fun i' j' k' hi' hj' hk' heq => hb ?_
  exact BitVec.eq_of_toNat_eq (bankAddr_inj hi (by omega) hj hj' hk4 hk' heq).1

/-- `go` and `wait` of a command that writes a vector of ring elements to a bank. -/
theorem goWait_setBank {i : Instr} {s : State} {rd : Bank} {n : Nat} {ys : List Nat}
    (hi : i.wf = true) (hs : Ready s n) (hlen : ys.length = 2 ^ n)
    (hring : ∀ y ∈ ys, y < modulusOf n)
    (hexec : exec i ((taken (encode i) s).withInputs []) =
      .next (complete (((taken (encode i) s).withInputs []).setBank rd ys))) :
    ∃ t, goWait i s = .next t ∧ LeavesSource s t rd n ys := by
  obtain ⟨hreleased, hidle, hklog, hlegal⟩ := hs
  refine ⟨_, (goWait_exec hi hreleased hidle).trans hexec, ⟨hreleased, rfl, hklog, hlegal⟩, rfl,
    rfl, ⟨hlen, ?_, hring⟩, fun b xs hb hx => ?_⟩
  · exact (setBank_ring_result (s := (taken (encode i) s).withInputs []) rd hlegal hring).2.1
  · exact (hx.setBank_other hb hlegal hlen).congr rfl rfl

section
variable {s : State} {rd rs1 rs2 : Bank} {n : Nat} {xs ys : List Nat}

theorem goWait_nttf (hrd : rd.toNat ≤ 5) (hrs1 : rs1.toNat ≤ 5) (hs : Ready s n)
    (hx : RingSource s rs1 n xs) :
    ∃ t, goWait (.nttf rd rs1) s = .next t ∧
      LeavesSource s t rd n (transform (modulusOf n) n forwardRoot xs) := by
  have hb := pair_all_valid hrd hrs1
  obtain rfl := hs.klog
  exact goWait_setBank hb hs (transform_length _ _ _ _ hx.1)
    (transform_lt (modulusOf_pos _) _ _ _ hx.2.2) (exec_nttf_ok hb hs.legal (hx.congr rfl rfl))

theorem goWait_ntti (hrd : rd.toNat ≤ 5) (hrs1 : rs1.toNat ≤ 5) (hs : Ready s n)
    (hx : RingSource s rs1 n xs) :
    ∃ t, goWait (.ntti rd rs1) s = .next t ∧
      LeavesSource s t rd n (transform (modulusOf n) n (inverseRoot n) xs) := by
  have hb := pair_all_valid hrd hrs1
  obtain rfl := hs.klog
  exact goWait_setBank hb hs (transform_length _ _ _ _ hx.1)
    (transform_lt (modulusOf_pos _) _ _ _ hx.2.2) (exec_ntti_ok hb hs.legal (hx.congr rfl rfl))

theorem goWait_scal (hrd : rd.toNat ≤ 5) (hrs1 : rs1.toNat ≤ 5) (hs : Ready s n)
    (hx : RingSource s rs1 n xs) :
    ∃ t, goWait (.scal rd rs1) s = .next t ∧
      LeavesSource s t rd n (xs.map fun v => rmul (modulusOf n) v (scaleFactor n)) := by
  have hb := pair_all_valid hrd hrs1
  obtain rfl := hs.klog
  exact goWait_setBank hb hs ((List.length_map _).trans hx.1) (map_rmul_lt _ _ _)
    (exec_scal_ok hb hs.legal (hx.congr rfl rfl))

theorem goWait_pmul (hrd : rd.toNat ≤ 5) (hrs1 : rs1.toNat ≤ 5) (hrs2 : rs2.toNat ≤ 5)
    (hs : Ready s n) (hx : RingSource s rs1 n xs) (hy : RingSource s rs2 n ys) :
    ∃ t, goWait (.pmul rd rs1 rs2) s = .next t ∧
      LeavesSource s t rd n (List.zipWith (rmul (modulusOf n)) xs ys) := by
  have hb : [rd, rs1, rs2].all Bank.valid = true := by simp [Bank.valid, hrd, hrs1, hrs2]
  obtain rfl := hs.klog
  exact goWait_setBank hb hs (by rw [List.length_zipWith, hx.1, hy.1, Nat.min_self])
    (zipWith_rmul_lt _ _ _) (execPointwise_ok hb hs.legal (hx.congr rfl rfl) (hy.congr rfl rfl))

/-- INTT in place: the scaled inverse transform (30_encoding.md R113). -/
theorem goAll_intt (hrd : rd.toNat ≤ 5) (hs : Ready s n) (hx : RingSource s rd n xs) :
    ∃ t, goAll (Pseudo.intt rd rd).expand s = .next t ∧ t.err = false ∧ t.done = true ∧
      RingSource t rd n (scaledInverse n xs) := by
  obtain ⟨u, hgo, hu⟩ := goWait_ntti hrd hrd hs hx
  obtain ⟨t, hgo', ht⟩ := goWait_scal hrd hrd hu.ready hu.source
  exact ⟨t, (goAll_cons_of_ok hgo hu.noErr).trans (goAll_singleton hgo'), ht.noErr, ht.done,
    ht.source⟩

end

/-- Settles O31. -/
theorem transformRoundTrip : Obligations.TransformRoundTrip := by
  intro s rd rs xs hr hp hk hrd hrs hx
  obtain ⟨u, hgo, hu⟩ := goWait_nttf hrd hrs ⟨hr, hp, rfl, hk⟩ hx
  obtain ⟨t, hgo', herr, hdone, -, hholds, -⟩ := goAll_intt hrd hu.ready hu.source
  rw [scaledInverse_transform hx.1 hx.2.2] at hholds
  exact ⟨t, (goAll_cons_of_ok hgo hu.noErr).trans hgo', herr, hdone, hholds⟩

/-- Settles O32: the two sources are transformed in place, the second without a change of the first. -/
theorem cyclicConvolution : Obligations.CyclicConvolution := by
  rintro s rd rs1 rs2 n p xs ys hr hp rfl rfl hk hrd hrs1 hrs2 hne hx hy
  obtain ⟨t1, hgo1, h1⟩ := goWait_nttf hrs1 hrs1 ⟨hr, hp, rfl, hk⟩ hx
  obtain ⟨t2, hgo2, h2⟩ := goWait_nttf hrs2 hrs2 h1.ready (h1.others rs2 ys hne.symm hy)
  obtain ⟨t3, hgo3, h3⟩ :=
    goWait_pmul hrd hrs1 hrs2 h2.ready (h2.others rs1 _ hne h1.source) h2.source
  obtain ⟨t, hgo, herr, hdone, -, hholds, -⟩ := goAll_intt hrd h3.ready h3.source
  refine ⟨t, ?_, herr, hdone, fun k hk2 => hholds k _ ?_⟩
  · exact (goAll_cons_of_ok hgo1 h1.noErr).trans ((goAll_cons_of_ok hgo2 h2.noErr).trans
      ((goAll_cons_of_ok hgo3 h3.noErr).trans hgo))
  · exact scaledInverse_transformProduct hx.1 hy.1 hk2

end Sys2Proof.Machine
end

section
/-! SUPPORT. The sequencer: its turn on an idle and on a busy engine, the phases of MUL move by move, the
run of NOP, and what each command writes, with the settled statements of 43_orchestrator.md that these
give (R210 to R217, R230). -/

namespace Sys2Proof.Machine

/-! ### A turn of the sequencer (43_orchestrator.md R212, R214, R215) -/

theorem step_seq {s : State} {rest : List Input} (h : s.inputs = .seq :: rest) :
    step s = seqMove (s.withInputs rest) := by
  simp only [step, h]

theorem not_running_of_idle {s : State} (hp : s.phase = .idle) : ¬ s.running = true :=
  fun h => ((running_iff s).1 h).2 hp

theorem seqFinish_idle {s : State} (hp : s.phase = .idle) : seqFinish s = .next s :=
  if_neg (not_running_of_idle hp)

theorem seqMove_idle {s : State} (hp : s.phase = .idle) : seqMove s = .next s :=
  if_neg (not_running_of_idle hp)

theorem seqMove_running {s : State} (hr : s.rstN = true) (hp : s.phase ≠ .idle) :
    seqMove s = moveCommand s :=
  if_pos ((running_iff s).2 ⟨hr, hp⟩)

theorem moveCommand_mul {s : State} (hd : decode s.cmd = some .mul) :
    moveCommand s = .next (mulMove s) := if_pos hd

theorem moveCommand_other {s : State} (hd : decode s.cmd ≠ some .mul) :
    moveCommand s = runCommand s := if_neg hd

/-- Settles O9. -/
theorem idleEngineKeepsState : Obligations.IdleEngineKeepsState := by
  intro s hp
  refine ⟨(busy_eq_false_iff s).2 hp, fun hin => ?_, fun rest => ?_⟩
  · rw [step, hin]
    exact seqFinish_idle hp
  · exact seqMove_idle (s := s.withInputs rest) hp

/-- A word placed by `withFetchWord` is the command in flight (log entry 4). -/
theorem withFetchWord_cmd {w : Nat} (s : State) (hw : w < 2 ^ 32) :
    (s.withFetchWord 32 w).cmd = BitVec.ofNat 32 w := by
  rw [State.withFetchWord, Nat.mod_eq_of_lt hw, accept_cmd]

/-- Settles O6: with no input pending and for a `seq` item, by whether the command is MUL. -/
theorem stepRunsDecodedCommand : Obligations.StepRunsDecodedCommand := by
  refine ⟨fun s i hr hp hd => ⟨fun hin => ?_, fun rest hin hi => ?_, fun rest hin hi => ?_⟩,
    fun s w i hd hw => ⟨?_, withFetchWord_cmd s hw⟩⟩
  · rw [step_running hin hr hp, runCommand_of_decode hd]
  · have hother : decode (s.withInputs rest).cmd ≠ some .mul := by simpa [hd] using hi
    rw [step_seq hin, seqMove_running (by exact hr) (by exact hp), moveCommand_other hother]
    exact runCommand_of_decode hd
  · subst hi
    rw [step_seq hin, seqMove_running (by exact hr) (by exact hp)]
    exact moveCommand_mul hd
  · rw [step_running (s := s.withFetchWord 32 w) rfl rfl (accept_phase_ne_idle _ _)]
    exact runCommand_of_decode ((withFetchWord_cmd s hw).symm ▸ hd)

/-! ### Acceptance and NOP (43_orchestrator.md R213, R217) -/

/-- Settles O7. -/
theorem commandWriteIsAccepted : Obligations.CommandWriteIsAccepted := by
  intro s c hr hp
  have hdiagv : (s.diagv && decide (decode c = some .nop)) =
      if decode c = some .nop then s.diagv else false := by
    by_cases h : decode c = some .nop <;> simp [h]
  rw [← hdiagv]
  exact answers_write_cmd c hr hp

theorem decode_eq_nop_iff (w : Word) : decode w = some .nop ↔ w = 0 :=
  decode_eq_some_iff_of_no_banks rfl w

theorem exec_nop (s : State) : exec .nop s = .next (Ended s) := rfl

/-- A run begins with a step that answers a next state. -/
theorem run_succ {n : Nat} {s t : State} (h : step s = .next t) :
    Host.Core.run Sys2Proof.core (n + 1) s = Host.Core.run Sys2Proof.core n t := by
  have hstep : Sys2Proof.core.step s = .next t := h
  simp only [Host.Core.run, hstep]

theorem decode_zero : decode 0 = some .nop := (decode_eq_nop_iff 0).2 rfl

/-- NOP is accepted into SUB and keeps DIAGV (43_orchestrator.md R213). -/
theorem accept_zero (s : State) :
    (accept 0 s).phase = .sub ∧ (accept 0 s).diagv = s.diagv := by
  rw [accept_phase, accept_diagv, decode_zero]
  exact ⟨rfl, Bool.and_true _⟩

/-- The step after the acceptance of NOP completes it. -/
theorem step_taken_zero {s : State} (hr : s.rstN = true) :
    step ((taken 0 s).withInputs []) = .next (Ended ((taken 0 s).withInputs [])) := by
  rw [step_taken 0 hr, runCommand_of_decode (i := .nop) (by exact decode_zero), exec_nop]

/-- NOP accepted and completed: what is left of the accept step, DIAGV kept. -/
theorem ended_taken_zero {s : State} (hp : s.phase = .idle) :
    Ended ((taken 0 s).withInputs []) = { s with
      inputs := [], resp := .ok, cmd := 0, done := true, err := false, ecode := .none
      triv := false, errIdx := 0, errSrc := .none, diagReq := s.diagEn, work := Work.empty } := by
  have hend : Ended ((taken 0 s).withInputs []) = { s with
      inputs := [], resp := .ok, cmd := 0, done := true, err := false, ecode := .none
      triv := false, errIdx := 0, errSrc := .none, diagReq := s.diagEn, work := Work.empty
      diagv := (accept 0 s).diagv, phase := .idle } := rfl
  rw [hend, (accept_zero s).2, ← hp]

/-- Settles O13: the acceptance of the word 0, then the step that completes it. -/
theorem nopRun : Obligations.NopRun := by
  refine ⟨decode_eq_nop_iff, exec_nop,
    fun s hr hp => ⟨⟨taken 0 s, answers_write_cmd 0 hr hp, (accept_zero s).1⟩, ?_⟩⟩
  rw [run_succ (answers_write_cmd 0 hr hp []), run_succ (step_taken_zero hr),
    ended_taken_zero hp]
  rfl

/-! ### The phases of MUL (43_orchestrator.md R211, R214, R220 to R222) -/

theorem kmax_eq (c : Config) : c.kmax = 2 ^ c.lkmax := by rw [Config.kmax]

/-- The trivial path, by the digit counts (43_orchestrator.md R221). -/
theorem signWork_trivial_iff (s : State) :
    (signWork s).trivial = true ↔ digitCount s.opa ≤ 3 ∧ digitCount s.opb ≤ 3 :=
  decide_eq_true_iff

/-- Within capacity, by the digit counts (43_orchestrator.md R222). -/
theorem signWork_klog_le_iff (s : State) :
    (signWork s).klog ≤ s.cfg.lkmax ↔ digitCount s.opa + digitCount s.opb ≤ s.cfg.kmax := by
  rw [kmax_eq]
  exact ceilLog2_le_iff _ _

theorem leaveSign_phase (s : State) :
    (leaveSign (signWork s) s).phase =
      if digitCount s.opa ≤ 3 ∧ digitCount s.opb ≤ 3 then .triv
      else if digitCount s.opa + digitCount s.opb ≤ s.cfg.kmax then .enc else .idle := by
  rw [leaveSign]
  simp only [signWork_trivial_iff, signWork_klog_le_iff]
  split
  · rfl
  · split <;> rfl

/-- A move along MUL's path does not depend on the inputs still pending. -/
theorem mulMove_withInputs (s : State) (rest : List Input) :
    mulMove (s.withInputs rest) = (mulMove s).withInputs rest := by
  have hsign : leaveSign (signWork s) (s.withInputs rest) =
      (leaveSign (signWork s) s).withInputs rest := by
    rw [leaveSign, leaveSign, withInputs_cfg]
    split
    · rfl
    · split <;> rfl
  have hfin : leaveFin s.work (s.withInputs rest) = (leaveFin s.work s).withInputs rest := by
    rw [leaveFin, leaveFin]
    split <;> rfl
  unfold mulMove
  rw [withInputs_phase]
  cases s.phase with
  | fin => exact hfin
  | idle => exact hsign
  | sign => exact hsign
  | sub => exact hsign
  | _ => rfl

theorem answers_seq_mul {s : State} (hr : s.rstN = true) (hp : s.phase ≠ .idle)
    (hd : decode s.cmd = some .mul) : Answers s .seq (mulMove s) := fun rest =>
  calc step (s.withInputs (.seq :: rest)) = seqMove (s.withInputs rest) := rfl
    _ = moveCommand (s.withInputs rest) := seqMove_running (s := s.withInputs rest) hr hp
    _ = .next (mulMove (s.withInputs rest)) := moveCommand_mul (s := s.withInputs rest) hd
    _ = .next ((mulMove s).withInputs rest) := by rw [mulMove_withInputs]

/-- A move of MUL that does not end it changes the phase and the working values only
(43_orchestrator.md R214, R218). -/
theorem MulOutcome.eq_of_busy {s t : State} (h : MulOutcome s t) (hb : t.phase ≠ .idle) :
    t = { s with phase := t.phase, work := t.work } := by
  cases h with
  | moved ph w hidle hsub htrack => rfl
  | finished w htrack => exact absurd rfl hb
  | capped dA dB => exact absurd rfl hb

/-- The one move of a command other than MUL ends it (43_orchestrator.md R215). -/
theorem phase_idle_of_answers_seq {s t : State} (hr : s.rstN = true) (hp : s.phase ≠ .idle)
    (hd : decode s.cmd ≠ some .mul) (h : Answers s .seq t) : t.phase = .idle := by
  have hmove : seqMove (s.withInputs []) = .next (t.withInputs []) := h []
  rw [seqMove_running (by exact hr) (by exact hp), moveCommand_other (by exact hd)] at hmove
  have hidle : (t.withInputs []).phase = .idle := runCommand_phase hmove
  exact hidle

/-- Settles O10, by the phase MUL is in. -/
theorem mulPhasePaths : Obligations.MulPhasePaths := by
  refine ⟨fun s hr hd hp hsub => ⟨mulMove s, answers_seq_mul hr hp hd, ?_,
    (mulMove_outcome s).eq_of_busy⟩, fun s t hr hp hd h => phase_idle_of_answers_seq hr hp hd h⟩
  unfold mulMove
  cases hs : s.phase with
  | idle => exact absurd hs hp
  | sub => exact absurd hs hsub
  | sign => exact leaveSign_phase s
  | _ => rfl

/-! ### What each command writes (43_orchestrator.md R230; 10_state.md R41 to R49) -/

/-- What each command other than MUL writes when it completes, beside the completion. -/
inductive InstrWrite (s : State) : Instr → State → Prop where
  | nothing : InstrWrite s .nop s
  | rz {i : Instr} (v : Nat) (hi : i ∈ [Instr.madd, .msub, .mmul, .minv]) :
      InstrWrite s i (s.setRz v)
  | res (b : Bank) (v : Nat) : InstrWrite s (.dec b) (s.setRes v false)
  | bank {i : Instr} {rd : Bank} {ys : List Nat} (hd : destBank i = some rd)
      (hl : ys.length = 2 ^ s.klog2.toNat) : InstrWrite s i (s.setBank rd ys)

/-- The two ends of a given command other than MUL (60_exceptions.md R250). -/
inductive InstrEnd (s : State) (i : Instr) : State → Prop where
  | completed {u : State} (hu : InstrWrite s i u) : InstrEnd s i (complete u)
  | erred (e : Error) : InstrEnd s i (raiseErr e s)

theorem InstrEnd.of_finish {α : Type} {c : Check α} {s t : State} {i : Instr} {k : α → State}
    (h : c.finish s k = .next t) (hk : ∀ a, c = .pass a → InstrWrite s i (k a)) :
    InstrEnd s i t := by
  rcases Check.finish_next h with ⟨a, ha, rfl⟩ | ⟨e, -, rfl⟩
  · exact .completed (hk a ha)
  · exact .erred e

section
variable {s t : State} {i : Instr} {rd rs1 rs2 : Bank}

theorem execEncode_instrEnd {mag : Nat} (hd : destBank i = some rd)
    (h : execEncode mag rd s = .next t) : InstrEnd s i t := by
  refine .of_finish h fun n hn => .bank hd ?_
  obtain ⟨u, -, hk⟩ := Check.bind_eq_pass hn
  rw [digitEncode_length, (checkLength_pass hk).1]

/-- A command of one source vector that writes to RD a vector as long as its source. -/
theorem execVector_instrEnd {f : Nat × List Nat → List Nat} (hd : destBank i = some rd)
    (hf : ∀ a : Nat × List Nat, a.2.length = 2 ^ a.1 → (f a).length = 2 ^ a.1)
    (h : (prologueVec1 s [rd, rs1] rs1).finish s (fun a => s.setBank rd (f a)) = .next t) :
    InstrEnd s i t := by
  refine .of_finish h fun a ha => .bank hd ?_
  obtain ⟨-, hk, -, hl, -⟩ := prologueVec1_pass ha
  rw [hf a hl, hk]

theorem execNttw_instrEnd (h : execNttw rd rs1 s = .next t) : InstrEnd s (.nttw rd rs1) t := by
  refine .of_finish h fun a ha => .bank rfl ?_
  obtain ⟨⟨n, xs⟩, hv, ha⟩ := Check.bind_eq_pass ha
  obtain ⟨w, -, ha⟩ := Check.bind_eq_pass ha
  obtain ⟨-, rfl, -, hl, -⟩ := prologueVec1_pass hv
  simp only [Check.pass.injEq] at ha
  subst ha
  exact transform_length _ _ _ _ hl

theorem execPointwise_instrEnd {op : Nat → Nat → Nat → Nat} (hd : destBank i = some rd)
    (h : execPointwise op rd rs1 rs2 s = .next t) : InstrEnd s i t := by
  refine .of_finish h fun a ha => .bank hd ?_
  obtain ⟨-, hk, -, ⟨hl1, -⟩, hl2, -⟩ := prologueVec2_pass ha
  rw [List.length_zipWith, hl1, hl2, Nat.min_self, hk]

theorem execScalar2_instrEnd {op : Nat → Nat → Nat → Nat}
    (hi : i ∈ [Instr.madd, .msub, .mmul, .minv]) (h : execScalar2 op s = .next t) :
    InstrEnd s i t :=
  .of_finish h fun _ _ => .rz _ hi

/-- Everything a command other than MUL can do, by the command. -/
theorem exec_instrEnd (hi : i ≠ .mul) (h : exec i s = .next t) : InstrEnd s i t := by
  cases i with
  | nop =>
    obtain rfl : complete s = t := by simpa [exec, execNop] using h
    exact .completed .nothing
  | mul => exact absurd rfl hi
  | enca rd => exact execEncode_instrEnd rfl h
  | encb rd => exact execEncode_instrEnd rfl h
  | dec rs1 => exact .of_finish h fun _ _ => .res _ _
  | nttf rd rs1 => exact execVector_instrEnd rfl (fun _ => transform_length _ _ _ _) h
  | ntti rd rs1 => exact execVector_instrEnd rfl (fun _ => transform_length _ _ _ _) h
  | nttw rd rs1 => exact execNttw_instrEnd h
  | scal rd rs1 => exact execVector_instrEnd rfl (fun _ hl => by simpa using hl) h
  | padd rd rs1 rs2 => exact execPointwise_instrEnd rfl h
  | psub rd rs1 rs2 => exact execPointwise_instrEnd rfl h
  | pmul rd rs1 rs2 => exact execPointwise_instrEnd rfl h
  | madd => exact execScalar2_instrEnd (by simp) h
  | msub => exact execScalar2_instrEnd (by simp) h
  | mmul => exact execScalar2_instrEnd (by simp) h
  | minv => exact .of_finish h fun _ _ => .rz _ (by simp)

end

/-- The fields that no command writes: the configuration, the host's registers and the interface. -/
def hostFields (s : State) :
    (Config × Bool × Bool × Word × Bool × Bool × Nat × Nat) ×
      (Nat × Nat × Bool × Bool × List Input × Resp) :=
  ((s.cfg, s.ie, s.diagEn, s.cmd, s.aneg, s.bneg, s.opa, s.opb),
    (s.rx, s.ry, s.diagReq, s.rstN, s.inputs, s.resp))

theorem CommandEnd.keeps_hostFields {s t : State} (h : CommandEnd s t) :
    hostFields t = hostFields s := by
  cases h with
  | completed hu => cases hu <;> rfl
  | erred e => rfl

theorem MulOutcome.keeps_hostFields {s t : State} (h : MulOutcome s t) :
    hostFields t = hostFields s ∧ t.rz = s.rz := by
  cases h with
  | moved ph w hidle hsub htrack => exact ⟨rfl, rfl⟩
  | finished w htrack => unfold leaveFin; split <;> exact ⟨rfl, rfl⟩
  | capped dA dB => exact ⟨rfl, rfl⟩

/-- MUL, from whatever phase it has reached, answers one of its outcomes. -/
theorem exec_mul_outcome {s t : State} (h : exec .mul s = .next t) : MulOutcome s t := by
  obtain rfl : mulFinish 8 s = t := by simpa [exec, execMul] using h
  exact mulFinish_outcome 7 s

theorem exec_keeps_hostFields {i : Instr} {s t : State} (h : exec i s = .next t) :
    hostFields t = hostFields s := by
  by_cases hi : i = .mul
  · subst hi
    exact (exec_mul_outcome h).keeps_hostFields.1
  · exact (exec_end hi h).keeps_hostFields

/-- A bank write leaves every byte outside the elements it covers (10_state.md R49). -/
theorem keepsOutside_setBank (s : State) (b : Bank) (ys : List Nat) :
    KeepsOutside s (s.setBank b ys) b ys.length := fun _ ha =>
  readByte_writeBank_other s.mem fun i j k hi hj hk he => ha ⟨i, j, k, hi, hj, hk, he⟩

/-- The fields that MUL alone writes, beside RES, RESINFO and the memory. -/
def mulFields (s : State) : BitVec 16 × BitVec 16 × BitVec 5 × Bool × Bool :=
  (s.da, s.db, s.klog2, s.diagv, s.triv)

theorem InstrEnd.keeps_mulFields {s t : State} {i : Instr} (h : InstrEnd s i t) :
    mulFields t = mulFields s := by
  cases h with
  | completed hu => cases hu <;> rfl
  | erred e => rfl

theorem InstrEnd.keeps_rz {s t : State} {i : Instr} (h : InstrEnd s i t)
    (hi : i ∉ [Instr.madd, .msub, .mmul, .minv]) : t.rz = s.rz := by
  cases h with
  | erred e => rfl
  | completed hu =>
    cases hu with
    | rz v hmem => exact absurd hmem hi
    | _ => rfl

theorem InstrEnd.keeps_res {s t : State} {i : Instr} (h : InstrEnd s i t) (hi : ∀ b, i ≠ .dec b) :
    t.res = s.res ∧ t.resNeg = s.resNeg := by
  cases h with
  | erred e => exact ⟨rfl, rfl⟩
  | completed hu =>
    cases hu with
    | res b v => exact absurd rfl (hi b)
    | _ => exact ⟨rfl, rfl⟩

theorem InstrEnd.keeps_mem {s t : State} {i : Instr} (h : InstrEnd s i t)
    (hi : destBank i = none) : t.mem = s.mem := by
  cases h with
  | erred e => rfl
  | completed hu =>
    cases hu with
    | bank hd hl => exact absurd (hi.symm.trans hd) (by simp)
    | _ => rfl

theorem InstrEnd.keepsOutside {s t : State} {i : Instr} {rd : Bank} (h : InstrEnd s i t)
    (hi : destBank i = some rd) : KeepsOutside s t rd (2 ^ s.klog2.toNat) := by
  cases h with
  | erred e => exact fun _ _ => rfl
  | completed hu =>
    cases hu with
    | bank hd hl =>
      obtain rfl := Option.some.inj (hi.symm.trans hd)
      rw [← hl]
      exact keepsOutside_setBank s rd _
    | _ => exact fun _ _ => rfl

/-- Settles O41: MUL by its outcomes, every other command by its own writes. -/
theorem onlyTheseCommandsWrite : Obligations.OnlyTheseCommandsWrite := by
  intro i s t h
  have hhost := exec_keeps_hostFields h
  simp only [hostFields, Prod.mk.injEq, and_assoc] at hhost
  refine ⟨hhost, ?_⟩
  by_cases hi : i = .mul
  · subst hi
    exact ⟨fun _ => (exec_mul_outcome h).keeps_hostFields.2, fun hn => absurd rfl hn,
      fun hn => absurd rfl hn, fun hn => absurd rfl hn, fun rd hd => absurd hd (by simp [destBank])⟩
  · have hend := exec_instrEnd hi h
    have hmul := hend.keeps_mulFields
    simp only [mulFields, Prod.mk.injEq] at hmul
    exact ⟨hend.keeps_rz, fun _ => hend.keeps_res, fun _ => hmul, fun _ => hend.keeps_mem,
      fun rd => hend.keepsOutside⟩

end Sys2Proof.Machine
end

section
/-! SUPPORT. The value of MUL's NTT path: the digits of the operands, the linear convolution of their
digit vectors, which no index wraps around within the chosen length, and the exact product where no
coefficient reaches p (43_orchestrator.md R219 to R231). -/

namespace Sys2Proof.Machine

open Finset (range sum_congr mul_sum)

/-! ### Digits of a magnitude (41_codec.md R160 to R162) -/

theorem digitAt_le (n i : Nat) : digitAt n i ≤ 9 := Nat.le_of_lt_succ (Nat.mod_lt _ (by decide))

/-- No digit stands at or above the digit count. -/
theorem digitAt_eq_zero {n i : Nat} (h : digitCount n ≤ i) : digitAt n i = 0 := by
  rw [digitAt, Nat.div_eq_of_lt ((digitCount_le_iff n i).1 h)]

theorem digitEncode_getD {n k i : Nat} (h : i < k) : (digitEncode n k).getD i 0 = digitAt n i := by
  rw [List.getD_eq_getElem?_getD, digitEncode_getElem?, if_pos h]
  rfl

/-- A magnitude is the value of its digits, of any number that is not too small. -/
theorem sum_digitAt {n k : Nat} (h : digitCount n ≤ k) :
    ∑ i ∈ range k, digitAt n i * 10 ^ i = n :=
  calc ∑ i ∈ range k, digitAt n i * 10 ^ i
      = ∑ i ∈ range k, (digitEncode n k).getD i 0 * 10 ^ i :=
        sum_congr rfl fun i hi => by rw [digitEncode_getD (Finset.mem_range.1 hi)]
    _ = digitDecode (digitEncode n k) := by rw [digitDecode_eq_sum, digitEncode_length]
    _ = n := by rw [digitDecode_digitEncode, Nat.mod_eq_of_lt ((digitCount_le_iff n k).1 h)]

/-! ### Coefficients of the product of the digit polynomials (43_orchestrator.md R231) -/

/-- Coefficient k of the product of the digit polynomials of a and b. -/
def digitConv (a b k : Nat) : Nat := ∑ i ∈ range (k + 1), digitAt a i * digitAt b (k - i)

theorem digitConv_comm (a b k : Nat) : digitConv a b k = digitConv b a k := by
  rw [digitConv, ← Finset.sum_range_reflect]
  refine sum_congr rfl fun i hi => ?_
  have hi := Finset.mem_range.1 hi
  rw [show k + 1 - 1 - i = k - i by omega, show k - (k - i) = i by omega, Nat.mul_comm]

/-- A length that holds both digit counts leaves no coefficient to wrap around: the cyclic sum is the
linear one. -/
theorem cyclicSum_eq_digitConv {a b K k : Nat} (h : digitCount a + digitCount b ≤ K) (hk : k < K) :
    ∑ i ∈ range K, digitAt a i * digitAt b ((k + K - i) % K) = digitConv a b k := by
  have hsub : range (k + 1) ⊆ range K := Finset.range_subset_range.2 hk
  rw [digitConv, ← Finset.sum_subset hsub]
  · refine sum_congr rfl fun i hi => ?_
    have hi := Finset.mem_range.1 hi
    rw [show k + K - i = k - i + K by omega, Nat.add_mod_right, Nat.mod_eq_of_lt (by omega)]
  · intro i hi hki
    rw [Finset.mem_range] at hi hki
    rcases Nat.lt_or_ge i (digitCount a) with hia | hia
    · rw [Nat.mod_eq_of_lt (by omega), digitAt_eq_zero (n := b) (by omega), Nat.mul_zero]
    · rw [digitAt_eq_zero hia, Nat.zero_mul]

/-- Unreduced, the coefficients sum to the product. -/
theorem sum_digitConv {a b K : Nat} (h : digitCount a + digitCount b ≤ K) :
    ∑ k ∈ range K, digitConv a b k * 10 ^ k = a * b := by
  have hdiag : ∀ k, digitConv a b k * 10 ^ k =
      ∑ i ∈ range (k + 1), digitAt a i * 10 ^ i * (digitAt b (k - i) * 10 ^ (k - i)) := by
    intro k
    rw [digitConv, Finset.sum_mul]
    refine sum_congr rfl fun i hi => ?_
    have hki : 10 ^ k = 10 ^ i * 10 ^ (k - i) := by
      rw [← Nat.pow_add, Nat.add_sub_cancel' (Nat.le_of_lt_succ (Finset.mem_range.1 hi))]
    rw [hki]
    ring
  have hrow : ∀ i, ∑ l ∈ range (K - i), digitAt a i * 10 ^ i * (digitAt b l * 10 ^ l) =
      digitAt a i * 10 ^ i * b := by
    intro i
    rw [← mul_sum]
    rcases Nat.lt_or_ge i (digitCount a) with hia | hia
    · rw [sum_digitAt (by omega)]
    · rw [digitAt_eq_zero hia, Nat.zero_mul, Nat.zero_mul, Nat.zero_mul]
  calc ∑ k ∈ range K, digitConv a b k * 10 ^ k
      = ∑ k ∈ range K, ∑ i ∈ range (k + 1),
          digitAt a i * 10 ^ i * (digitAt b (k - i) * 10 ^ (k - i)) :=
        sum_congr rfl fun k _ => hdiag k
    _ = ∑ i ∈ range K, ∑ l ∈ range (K - i), digitAt a i * 10 ^ i * (digitAt b l * 10 ^ l) :=
        Finset.sum_range_diag_flip K fun i l => digitAt a i * 10 ^ i * (digitAt b l * 10 ^ l)
    _ = ∑ i ∈ range K, digitAt a i * 10 ^ i * b := sum_congr rfl fun i _ => hrow i
    _ = a * b := by rw [← Finset.sum_mul, sum_digitAt (by omega)]

/-- Each digit of a adds at most 81 to a coefficient. -/
theorem digitConv_le (a b k : Nat) : digitConv a b k ≤ 81 * digitCount a := by
  have hterm : ∀ i ∈ range (k + 1),
      digitAt a i * digitAt b (k - i) ≤ if i < digitCount a then 81 else 0 := by
    intro i _
    split
    · exact Nat.mul_le_mul (digitAt_le a i) (digitAt_le b _)
    · next hia => rw [digitAt_eq_zero (Nat.le_of_not_lt hia), Nat.zero_mul]
  calc digitConv a b k ≤ ∑ i ∈ range (k + 1), if i < digitCount a then 81 else 0 :=
        Finset.sum_le_sum hterm
    _ = ((range (k + 1)).filter (· < digitCount a)).card * 81 := by
        rw [← Finset.sum_filter, Finset.sum_const, smul_eq_mul]
    _ ≤ (range (digitCount a)).card * 81 := by
        refine Nat.mul_le_mul_right _ (Finset.card_le_card fun i hi => ?_)
        exact Finset.mem_range.2 (Finset.mem_filter.1 hi).2
    _ = 81 * digitCount a := by rw [Finset.card_range, Nat.mul_comm]

/-- No coefficient reaches p, but for four digits by four (43_orchestrator.md R231): at K = 4 one of
the operands is 0, at K = 8 the shorter has at most three digits, and above p is larger than 81 K. -/
theorem digitConv_lt_modulusOf {a b n : Nat} (hd : 4 ≤ digitCount a ∨ 4 ≤ digitCount b)
    (h : digitCount a + digitCount b ≤ 2 ^ n) (h44 : ¬ (digitCount a = 4 ∧ digitCount b = 4))
    (k : Nat) : digitConv a b k < modulusOf n := by
  have ha := digitConv_le a b k
  have hb : digitConv a b k ≤ 81 * digitCount b := digitConv_comm a b k ▸ digitConv_le b a k
  have hp := two_lt_modulusOf n
  rcases Nat.lt_or_ge n 4 with hn | hn
  · interval_cases n
    · omega
    · omega
    · omega
    · have hval : modulusOf 3 = 257 := rfl
      omega
  · have h1 : 2 ^ n ≤ 4 ^ n := Nat.pow_le_pow_left (by decide) n
    have h2 := mul_four_pow_le hn
    have h3 : modulusOf n = 2 ^ 2 ^ n + 1 := rfl
    omega

/-! ### The result of the NTT path (43_orchestrator.md R223 to R227) -/

theorem nttWork_vC (w : Work) :
    (nttWork w).vC = scaledInverse w.klog (transformProduct w.klog
      (digitEncode w.mA (2 ^ w.klog)) (digitEncode w.mB (2 ^ w.klog))) := rfl

/-- Each element of the result vector is a coefficient reduced modulo p. -/
theorem nttWork_vC_getD {w : Work} {k : Nat}
    (h : digitCount w.mA + digitCount w.mB ≤ 2 ^ w.klog) (hk : k < 2 ^ w.klog) :
    (nttWork w).vC.getD k 0 = digitConv w.mA w.mB k % modulusOf w.klog := by
  have hcyclic : ∑ i ∈ range (2 ^ w.klog), (digitEncode w.mA (2 ^ w.klog)).getD i 0 *
      (digitEncode w.mB (2 ^ w.klog)).getD ((k + 2 ^ w.klog - i) % 2 ^ w.klog) 0 =
        digitConv w.mA w.mB k := by
    rw [← cyclicSum_eq_digitConv h hk]
    refine sum_congr rfl fun i hi => ?_
    rw [digitEncode_getD (Finset.mem_range.1 hi),
      digitEncode_getD (Nat.mod_lt _ (Nat.two_pow_pos _))]
  rw [nttWork_vC, List.getD_eq_getElem?_getD, scaledInverse_transformProduct
    (digitEncode_length _ _) (digitEncode_length _ _) hk, Option.getD_some, hcyclic]

/-- 43_orchestrator.md R231: the result is the sum of the reduced coefficients. -/
theorem nttWork_c_eq_sum {w : Work} (h : digitCount w.mA + digitCount w.mB ≤ 2 ^ w.klog) :
    (nttWork w).c =
      ∑ k ∈ range (2 ^ w.klog), digitConv w.mA w.mB k % modulusOf w.klog * 10 ^ k := by
  obtain ⟨-, -, -, -, -, hlen⟩ := nttWork_length w
  have hc : (nttWork w).c = digitDecode (nttWork w).vC := rfl
  rw [hc, digitDecode_eq_sum, hlen]
  exact sum_congr rfl fun k hk => by rw [nttWork_vC_getD h (Finset.mem_range.1 hk)]

/-- The length that SIGN chooses holds both digit counts (43_orchestrator.md R222). -/
theorem signWork_length (s : State) :
    digitCount s.opa + digitCount s.opb ≤ 2 ^ (signWork s).klog :=
  le_two_pow_ceilLog2 _

theorem signWork_c_eq_sum (s : State) :
    (nttWork (signWork s)).c = ∑ k ∈ range (2 ^ (signWork s).klog),
      digitConv s.opa s.opb k % modulusOf (signWork s).klog * 10 ^ k :=
  nttWork_c_eq_sum (signWork_length s)

/-- The result of the NTT path is the product of the magnitudes, but for four digits by four. -/
theorem signWork_c_exact {s : State} (ht : ¬ (digitCount s.opa ≤ 3 ∧ digitCount s.opb ≤ 3))
    (h44 : ¬ (digitCount s.opa = 4 ∧ digitCount s.opb = 4)) :
    (nttWork (signWork s)).c = s.opa * s.opb := by
  have hlt := digitConv_lt_modulusOf (by omega) (signWork_length s) h44
  rw [signWork_c_eq_sum, ← sum_digitConv (signWork_length s)]
  exact sum_congr rfl fun k _ => by rw [Nat.mod_eq_of_lt (hlt k)]

end Sys2Proof.Machine
end

section
/-! SUPPORT. The banks after MUL's NTT path: what writes of vectors to different banks leave in each of
them and outside them, and that the six writes of MUL are such (43_orchestrator.md R223 to R230). -/

namespace Sys2Proof.Machine

/-! ### Bank writes in a row (20_memory.md R73; 10_state.md R49) -/

theorem bankHolds_setBank_same {s : State} {b : Bank} {xs : List Nat}
    (hx : ∀ x ∈ xs, x < 2 ^ ewOf s.cfg) : BankHolds (s.setBank b xs) b xs :=
  holds_writeBank s.mem hx

/-- A bank write leaves the vectors in other banks as they are (20_memory.md R73). -/
theorem BankHolds.setBank_other {s : State} {b rd : Bank} {xs ys : List Nat}
    (h : BankHolds s b xs) (hb : b ≠ rd) (hx : xs.length ≤ s.cfg.kmax)
    (hy : ys.length ≤ s.cfg.kmax) : BankHolds (s.setBank rd ys) b xs := by
  intro i v hv
  refine (readElem_congr fun j hj k hk => ?_).trans (h i v hv)
  obtain ⟨hi, -⟩ := List.getElem?_eq_some_iff.1 hv
  refine readByte_writeBank_other _ fun i' j' k' hi' hj' hk' heq => hb ?_
  obtain ⟨hbank, -⟩ := bankAddr_inj (c := s.cfg) (by omega) (by omega) hj hj' hk hk' heq
  exact BitVec.eq_of_toNat_eq hbank

/-- Bank writes in a row. -/
def setBanks (s : State) (ws : List (Bank × List Nat)) : State :=
  ws.foldl (fun u x => u.setBank x.1 x.2) s

theorem setBanks_cfg (s : State) (ws : List (Bank × List Nat)) : (setBanks s ws).cfg = s.cfg := by
  induction ws generalizing s with
  | nil => rfl
  | cons x ws ih => exact ih (s.setBank x.1 x.2)

/-- Writes to other banks leave a vector as it is. -/
theorem BankHolds.setBanks_other {s : State} {b : Bank} {xs : List Nat}
    {ws : List (Bank × List Nat)} (h : BankHolds s b xs) (hx : xs.length ≤ s.cfg.kmax)
    (hws : ∀ x ∈ ws, x.1 ≠ b ∧ x.2.length ≤ s.cfg.kmax) : BankHolds (setBanks s ws) b xs := by
  induction ws generalizing s with
  | nil => exact h
  | cons x ws ih =>
    obtain ⟨⟨hne, hlen⟩, hws⟩ := List.forall_mem_cons.1 hws
    exact ih (h.setBank_other hne.symm hx hlen) hx hws

/-- After writes of vectors of elements to different banks every one of the banks holds its vector. -/
theorem bankHolds_setBanks {s : State} {ws : List (Bank × List Nat)} {x : Bank × List Nat}
    (hdistinct : ws.Pairwise fun y z => y.1 ≠ z.1)
    (hlen : ∀ y ∈ ws, y.2.length ≤ s.cfg.kmax)
    (hfit : ∀ y ∈ ws, ∀ v ∈ y.2, v < 2 ^ ewOf s.cfg) (hx : x ∈ ws) :
    BankHolds (setBanks s ws) x.1 x.2 := by
  induction ws generalizing s with
  | nil => simp at hx
  | cons y ws ih =>
    obtain ⟨hy, hdistinct⟩ := List.pairwise_cons.1 hdistinct
    rw [List.forall_mem_cons] at hlen hfit
    obtain ⟨hylen, hlen⟩ := hlen
    obtain ⟨hyfit, hfit⟩ := hfit
    rcases List.mem_cons.1 hx with rfl | hx
    · exact (bankHolds_setBank_same hyfit).setBanks_other hylen
        fun z hz => ⟨(hy z hz).symm, hlen z hz⟩
    · exact ih hdistinct hlen hfit hx

/-- Bytes outside every write stay (10_state.md R49). -/
theorem readByte_setBanks_other {s : State} {ws : List (Bank × List Nat)} {a : Nat}
    (h : ∀ x ∈ ws, ¬ InBank s.cfg x.1 x.2.length a) :
    readByte (setBanks s ws).mem a = readByte s.mem a := by
  induction ws generalizing s with
  | nil => rfl
  | cons x ws ih =>
    obtain ⟨hx, hws⟩ := List.forall_mem_cons.1 h
    exact (ih (s := s.setBank x.1 x.2) hws).trans (keepsOutside_setBank s x.1 x.2 a hx)

/-! ### The six banks of the NTT path (43_orchestrator.md R223 to R226, R230) -/

/-- The six bank writes of the NTT path, one after the other. -/
def bankWrites (w : Work) : List (Bank × List Nat) :=
  [(Bank.A, w.vA), (Bank.B, w.vB), (Bank.FA, w.fA), (Bank.FB, w.fB), (Bank.FC, w.fC),
    (Bank.C, w.vC)]

theorem setBanks_bankWrites_mem (s : State) (w : Work) :
    (setBanks s (bankWrites w)).mem = commitBanks s.cfg w s.mem := by
  simp only [setBanks, bankWrites, List.foldl_cons, List.foldl_nil, setBank_mem, setBank_cfg,
    commitBanks]

/-- The NTT path writes each bank once. -/
theorem bankWrites_distinct (w : Work) : (bankWrites w).Pairwise fun x y => x.1 ≠ y.1 := by
  simp only [bankWrites, List.pairwise_cons, List.forall_mem_cons]
  decide

/-- The bank writes of the NTT path have the length K, and go to banks that exist. -/
theorem bankWrites_length {w : Work} :
    ∀ x ∈ bankWrites (nttWork w), x.1.toNat ≤ 5 ∧ x.2.length = 2 ^ w.klog := by
  obtain ⟨hA, hB, hfA, hfB, hfC, hC⟩ := nttWork_length w
  simp only [bankWrites, List.forall_mem_cons, hA, hB, hfA, hfB, hfC, hC, and_true,
    List.not_mem_nil, IsEmpty.forall_iff, implies_true]
  decide

theorem digitEncode_lt_modulusOf {n m k : Nat} (hn : 2 ≤ n) :
    ∀ v ∈ digitEncode m k, v < modulusOf n :=
  fun _ hv => digit_lt_modulusOf (digitEncode_lt hv) hn

/-- From K = 4 on every vector of the NTT path is one of ring elements (43_orchestrator.md R223 to
R226). -/
theorem bankWrites_lt {w : Work} (hn : 2 ≤ w.klog) :
    ∀ x ∈ bankWrites (nttWork w), ∀ v ∈ x.2, v < modulusOf w.klog := by
  have hp := modulusOf_pos w.klog
  simp only [bankWrites, List.forall_mem_cons]
  exact ⟨digitEncode_lt_modulusOf hn, digitEncode_lt_modulusOf hn,
    transform_lt hp _ _ _ (digitEncode_lt_modulusOf hn),
    transform_lt hp _ _ _ (digitEncode_lt_modulusOf hn), zipWith_rmul_lt _ _ _,
    map_rmul_lt _ _ _, fun _ h => absurd h List.not_mem_nil⟩

/-- What the NTT path leaves in its banks. -/
theorem bankHolds_commitBanks {s t : State} {w : Work} {b : Bank} {xs : List Nat}
    (hn : 2 ≤ w.klog) (hk : w.klog ≤ s.cfg.lkmax) (hcfg : t.cfg = s.cfg)
    (hmem : t.mem = commitBanks s.cfg (nttWork w) s.mem) (hx : (b, xs) ∈ bankWrites (nttWork w)) :
    BankHolds t b xs := by
  have hset := bankHolds_setBanks (s := s) (bankWrites_distinct (nttWork w))
    (fun y hy => (bankWrites_length y hy).2.trans_le (two_pow_le_kmax hk))
    (fun y hy v hv => ring_fits hk (bankWrites_lt hn y hy v hv)) hx
  intro i v hv
  rw [hcfg, hmem, ← setBanks_bankWrites_mem, ← setBanks_cfg s (bankWrites (nttWork w))]
  exact hset i v hv

/-- The frame of the NTT path's bank writes (43_orchestrator.md R230). -/
theorem readByte_commitBanks_other {s : State} {w : Work} {a : Nat}
    (h : ∀ b : Bank, b.toNat ≤ 5 → ¬ InBank s.cfg b (2 ^ w.klog) a) :
    readByte (commitBanks s.cfg (nttWork w) s.mem) a = readByte s.mem a := by
  rw [← setBanks_bankWrites_mem]
  refine readByte_setBanks_other fun x hx => ?_
  obtain ⟨hb, hlen⟩ := bankWrites_length x hx
  rw [hlen]
  exact h x.1 hb

end Sys2Proof.Machine
end

section
/-! SUPPORT. The end of MUL on each path as a whole state: the signed product of the trivial path, the
banks, RES and NEG of the NTT path, E_CAP, and the settled statements of 43_orchestrator.md about MUL
(R219 to R234). -/

namespace Sys2Proof.Machine

/-! ### The sign of the product (10_state.md R42, R44; 43_orchestrator.md R219, R229) -/

theorem signedValue_eq_signOf_mul (neg : Bool) (mag : Nat) :
    signedValue neg mag = signOf neg mag * mag := by
  by_cases h : mag = 0
  · subst h
    cases neg <;> rfl
  · cases neg <;> simp [signedValue, signOf, h]

theorem signedValue_natAbs (neg : Bool) (mag : Nat) : (signedValue neg mag).natAbs = mag := by
  cases neg <;> simp [signedValue]

/-- A sign bit and a magnitude taken from an integer give it back. -/
theorem signedValue_of_int (x : Int) : signedValue (decide (x < 0)) x.natAbs = x := by
  by_cases h : x < 0
  · simp only [signedValue, h, decide_true, if_true]
    omega
  · simp only [signedValue, h, decide_false, Bool.false_eq_true, if_false]
    omega

/-- The exact product of the signed operands. -/
def signedProduct (s : State) : Int := signedValue s.aneg s.opa * signedValue s.bneg s.opb

theorem signedProduct_natAbs (s : State) : (signedProduct s).natAbs = s.opa * s.opb := by
  rw [signedProduct, Int.natAbs_mul, signedValue_natAbs, signedValue_natAbs]

/-- The trivial path computes the signed product (43_orchestrator.md R221). -/
theorem trivWork_prod_eq (s : State) : (trivWork (signWork s)).prod = signedProduct s := by
  rw [signedProduct, signedValue_eq_signOf_mul, signedValue_eq_signOf_mul]
  change signOf s.aneg s.opa * signOf s.bneg s.opb * ((s.opa * s.opb : Nat) : Int) = _
  push_cast
  ring

theorem signC_natAbs_le (s : State) : (signWork s).signC.natAbs ≤ 1 := by
  change (signOf s.aneg s.opa * signOf s.bneg s.opb).natAbs ≤ 1
  rw [Int.natAbs_mul]
  exact Nat.mul_le_mul (signOf_natAbs_le _ _) (signOf_natAbs_le _ _)

/-- NEG of the NTT path is the sign of the signed product (43_orchestrator.md R229). -/
theorem signC_eq_neg_one_iff (s : State) : (signWork s).signC = -1 ↔ signedProduct s < 0 := by
  have hprod : signedProduct s = (signWork s).signC * (s.opa * s.opb : Nat) :=
    (trivWork_prod_eq s).symm
  rw [hprod]
  constructor
  · intro h
    obtain ⟨ha, hb⟩ := operands_pos_of_signC (s := s) (by omega)
    have hpos := Nat.mul_pos ha hb
    rw [h]
    omega
  · intro h
    have hneg : (signWork s).signC < 0 := neg_of_mul_neg_left h (Int.natCast_nonneg _)
    have := signC_natAbs_le s
    omega

/-! ### MUL from SIGN, by its path (43_orchestrator.md R220 to R222) -/

section
variable {s : State}

theorem exec_mul (s : State) : exec .mul s = .next (mulFinish 8 s) := rfl

theorem exec_mul_trivial (hp : s.phase = .sign)
    (h : digitCount s.opa ≤ 3 ∧ digitCount s.opb ≤ 3) :
    exec .mul s = .next (complete (commitTrivial (trivWork (signWork s)) s)) := by
  have ht := (signWork_trivial_iff s).2 h
  rw [exec_mul, mulFinish_sign hp, if_pos ht, leaveFin_of_trivial _ (by exact ht)]
  rfl

theorem exec_mul_ntt (hp : s.phase = .sign) (h : ¬ (digitCount s.opa ≤ 3 ∧ digitCount s.opb ≤ 3))
    (hk : (signWork s).klog ≤ s.cfg.lkmax) :
    exec .mul s = .next (complete (commitNtt (nttWork (signWork s)) s)) := by
  have ht := mt (signWork_trivial_iff s).1 h
  rw [exec_mul, mulFinish_sign hp, if_neg ht, if_pos hk, leaveFin_of_not_trivial _ (by exact ht)]
  rfl

theorem exec_mul_cap (hp : s.phase = .sign) (h : ¬ (digitCount s.opa ≤ 3 ∧ digitCount s.opb ≤ 3))
    (hk : ¬ (signWork s).klog ≤ s.cfg.lkmax) :
    exec .mul s = .next { Erred s .cap with
      da := BitVec.ofNat 16 (digitCount s.opa)
      db := BitVec.ofNat 16 (digitCount s.opb) } := by
  rw [exec_mul, mulFinish_sign hp, if_neg (mt (signWork_trivial_iff s).1 h), if_neg hk]
  rfl

/-- The state after the trivial path: its product fits RES (43_orchestrator.md R221). -/
theorem complete_commitTrivial (h : digitCount s.opa ≤ 3 ∧ digitCount s.opb ≤ 3) :
    complete (commitTrivial (trivWork (signWork s)) s) = { Ended s with
      res := (signedProduct s).natAbs
      resNeg := decide (signedProduct s < 0)
      da := BitVec.ofNat 16 (digitCount s.opa)
      db := BitVec.ofNat 16 (digitCount s.opb)
      triv := true } := by
  have hfit := fitMag_eq (trivWork_prod_lt s.cfg ((signWork_trivial_iff s).2 h))
  rw [commitTrivial, hfit, trivWork_prod_eq]
  rfl

/-- The state after the NTT path, but for the memory: its result fits RES (43_orchestrator.md R227 to
R229). -/
theorem complete_commitNtt (hk : (signWork s).klog ≤ s.cfg.lkmax) :
    complete (commitNtt (nttWork (signWork s)) s) = { Ended s with
      mem := commitBanks s.cfg (nttWork (signWork s)) s.mem
      res := (nttWork (signWork s)).c
      resNeg := decide (signedProduct s < 0)
      da := BitVec.ofNat 16 (digitCount s.opa)
      db := BitVec.ofNat 16 (digitCount s.opb)
      klog2 := BitVec.ofNat 5 (signWork s).klog
      diagv := s.diagReq } := by
  have hfit := fitMag_eq (nttWork_c_lt (w := signWork s) hk)
  rw [commitNtt, hfit, nttWork_signC, decide_eq_decide.2 (signC_eq_neg_one_iff s)]
  rfl

end

/-- Settles O14. -/
theorem mulTrivialPath : Obligations.MulTrivialPath := by
  intro s hp ha hb
  rw [exec_mul_trivial hp ⟨ha, hb⟩, complete_commitTrivial ⟨ha, hb⟩]
  rfl

/-! ### The length (43_orchestrator.md R222) -/

theorem LeastLength.eq_ceilLog2 {d n : Nat} (h : LeastLength d n) : n = ceilLog2 d :=
  le_antisymm (h.2 _ (le_two_pow_ceilLog2 d)) (ceilLog2_least h.1)

/-- The non-trivial path has a length of at least 4. -/
theorem two_le_signWork_klog {s : State} (h : ¬ (digitCount s.opa ≤ 3 ∧ digitCount s.opb ≤ 3)) :
    2 ≤ (signWork s).klog := by
  have hlen := signWork_length s
  by_contra hlt
  have h2 : 2 ^ (signWork s).klog ≤ 2 ^ 1 := Nat.pow_le_pow_right (by decide) (by omega)
  omega

theorem lkmax_lt_of_kmax_lt {c : Config} {n : Nat} (h : c.kmax < 2 ^ n) : ¬ n ≤ c.lkmax :=
  fun hn => absurd (two_pow_le_kmax hn) (Nat.not_le.2 h)

theorem le_lkmax_of_le_kmax {c : Config} {n : Nat} (h : 2 ^ n ≤ c.kmax) : n ≤ c.lkmax := by
  rw [kmax_eq] at h
  exact (Nat.pow_le_pow_iff_right (by decide)).1 h

/-- Settles O15: the working values of the NTT path, and what its last move makes of them. -/
theorem mulNttPath : Obligations.MulNttPath := by
  intro s n hp h hlen
  obtain rfl : n = (signWork s).klog := hlen.eq_ceilLog2
  have hn := two_le_signWork_klog h
  refine ⟨Nat.pow_le_pow_right (n := 2) (by decide) hn,
    fun hcap => exec_mul_cap hp h (lkmax_lt_of_kmax_lt hcap), fun hfit => ?_⟩
  have hk := le_lkmax_of_le_kmax hfit
  obtain ⟨hkinv, hone⟩ := scaleFactor_spec (signWork s).klog
  have hholds : ∀ {b xs}, (b, xs) ∈ bankWrites (nttWork (signWork s)) →
      BankHolds (complete (commitNtt (nttWork (signWork s)) s)) b xs :=
    fun hx => bankHolds_commitBanks (s := s) hn hk rfl rfl hx
  refine ⟨complete (commitNtt (nttWork (signWork s)) s), (nttWork (signWork s)).vA,
    (nttWork (signWork s)).vB, (nttWork (signWork s)).fA, (nttWork (signWork s)).fB,
    (nttWork (signWork s)).fC, (nttWork (signWork s)).raw, (nttWork (signWork s)).vC,
    scaleFactor (signWork s).klog, exec_mul_ntt hp h hk, digitEncode_eq_map _ _,
    digitEncode_eq_map _ _, rfl, rfl, rfl, rfl, hkinv, hone, rfl, complete_commitNtt hk,
    hholds ?_, hholds ?_, hholds ?_, hholds ?_, hholds ?_, hholds ?_,
    fun a ha => readByte_commitBanks_other ha⟩
  all_goals simp [bankWrites]

/-! ### The value of the result (43_orchestrator.md R231) -/

/-- Settles O18. -/
theorem mulResultIsReducedCoefficientSum : Obligations.MulResultIsReducedCoefficientSum := by
  intro s n hp h hlen hk
  obtain rfl : n = (signWork s).klog := hlen.eq_ceilLog2
  refine ⟨_, exec_mul_ntt hp h hk, ?_⟩
  rw [complete_commitNtt hk]
  exact signWork_c_eq_sum s

/-- Settles O19: RES and NEG are magnitude and sign of the signed product on either path. -/
theorem mulIsExactExceptFourByFourDigits : Obligations.MulIsExactExceptFourByFourDigits := by
  intro s hp hfit h44
  by_cases h : digitCount s.opa ≤ 3 ∧ digitCount s.opb ≤ 3
  · refine ⟨_, exec_mul_trivial hp h, rfl, rfl, ?_⟩
    rw [complete_commitTrivial h]
    exact signedValue_of_int (signedProduct s)
  · have hk := (signWork_klog_le_iff s).2 hfit
    refine ⟨_, exec_mul_ntt hp h hk, rfl, rfl, ?_⟩
    rw [complete_commitNtt hk, signWork_c_exact h h44, ← signedProduct_natAbs]
    exact signedValue_of_int (signedProduct s)

/-! ### The operands exchanged (43_orchestrator.md R234) -/

/-- The state with A and B exchanged. -/
def exchanged (s : State) : State :=
  { s with opa := s.opb, opb := s.opa, aneg := s.bneg, bneg := s.aneg }

theorem exchanged_trivial_iff (s : State) :
    digitCount (exchanged s).opa ≤ 3 ∧ digitCount (exchanged s).opb ≤ 3 ↔
      digitCount s.opa ≤ 3 ∧ digitCount s.opb ≤ 3 := and_comm

theorem signedProduct_exchanged (s : State) : signedProduct (exchanged s) = signedProduct s :=
  Int.mul_comm _ _

theorem signWork_klog_exchanged (s : State) :
    (signWork (exchanged s)).klog = (signWork s).klog :=
  congrArg ceilLog2 (Nat.add_comm _ _)

theorem signWork_c_exchanged (s : State) :
    (nttWork (signWork (exchanged s))).c = (nttWork (signWork s)).c := by
  rw [signWork_c_eq_sum, signWork_c_eq_sum, signWork_klog_exchanged]
  exact Finset.sum_congr rfl fun k _ => by rw [digitConv_comm]; rfl

/-- Settles O20, by the path, which both orders share. -/
theorem mulCommutes : Obligations.MulCommutes := by
  intro s hp
  by_cases h : digitCount s.opa ≤ 3 ∧ digitCount s.opb ≤ 3
  · have hx := (exchanged_trivial_iff s).2 h
    refine ⟨_, _, exec_mul_trivial hp h, exec_mul_trivial (s := exchanged s) hp hx, ?_⟩
    rw [complete_commitTrivial h, complete_commitTrivial hx, signedProduct_exchanged]
    exact ⟨rfl, rfl, rfl, rfl, rfl⟩
  · have hx := mt (exchanged_trivial_iff s).1 h
    by_cases hk : (signWork s).klog ≤ s.cfg.lkmax
    · have hkx : (signWork (exchanged s)).klog ≤ (exchanged s).cfg.lkmax :=
        (signWork_klog_exchanged s).trans_le hk
      refine ⟨_, _, exec_mul_ntt hp h hk, exec_mul_ntt (s := exchanged s) hp hx hkx, ?_⟩
      rw [complete_commitNtt hk, complete_commitNtt hkx, signedProduct_exchanged,
        signWork_c_exchanged]
      exact ⟨rfl, rfl, rfl, rfl, rfl⟩
    · have hkx : ¬ (signWork (exchanged s)).klog ≤ (exchanged s).cfg.lkmax :=
        (signWork_klog_exchanged s).symm ▸ hk
      exact ⟨_, _, exec_mul_cap hp h hk, exec_mul_cap (s := exchanged s) hp hx hkx,
        rfl, rfl, rfl, rfl, rfl⟩

end Sys2Proof.Machine
end

section
/-! SUPPORT. The two ends of a command: which errors it can raise and in what order, what an error
writes, and the interrupt line, with the settled statements of 60_exceptions.md that these give (R250
to R261). -/

namespace Sys2Proof.Machine

/-! ### The errors a check can raise (60_exceptions.md R251 to R256) -/

/-- Every error the check raises is one of P. -/
def Check.RaisesOnly {α : Type} (P : Error → Prop) (c : Check α) : Prop := ∀ e, c = .raise e → P e

theorem Check.RaisesOnly.pass {α : Type} {P : Error → Prop} (a : α) :
    (Check.pass a).RaisesOnly P := by simp [Check.RaisesOnly]

theorem Check.RaisesOnly.stop {α : Type} {P : Error → Prop} (f : Fault) :
    (Check.stop f : Check α).RaisesOnly P := by simp [Check.RaisesOnly]

theorem Check.RaisesOnly.raise {α : Type} {P : Error → Prop} {e : Error} (h : P e) :
    (Check.raise e : Check α).RaisesOnly P := by
  intro e' he
  simp only [Check.raise.injEq] at he
  exact he ▸ h

theorem Check.RaisesOnly.bind {α β : Type} {P : Error → Prop} {c : Check α} {k : α → Check β}
    (hc : c.RaisesOnly P) (hk : ∀ a, (k a).RaisesOnly P) : (c.bind k).RaisesOnly P := by
  cases c with
  | pass a => exact hk a
  | raise e => exact .raise (hc e rfl)
  | stop f => exact .stop f

theorem Check.bind_assoc {α β γ : Type} (c : Check α) (k : α → Check β) (l : β → Check γ) :
    (c.bind k).bind l = c.bind fun a => (k a).bind l := by cases c <;> rfl

/-- The errors that the checks of a command other than MUL can raise: E_ILLEGAL for a bank field
above 5 only, and never E_CAP (60_exceptions.md R252 to R256). -/
inductive CheckError (i : Instr) : Error → Prop where
  | illegal (hwf : ¬ i.wf = true) : CheckError i .illegal
  | arg : CheckError i .arg
  | range (src : ErrSrc) (idx : Nat) : CheckError i (.range src idx)
  | noinv : CheckError i .noinv

theorem CheckError.ne_cap {i : Instr} {e : Error} (h : CheckError i e) : e ≠ .cap := by
  cases h <;> simp

section
variable {s : State} {i : Instr} {n : Nat}

theorem prologueK_raises : (prologueK s i.banks).RaisesOnly (CheckError i) := by
  refine .bind ?_ fun _ => ?_
  · unfold checkBanks
    split
    · exact .pass ()
    · next hb => exact .raise (.illegal hb)
  · unfold checkLength
    split
    · exact .pass _
    · exact .raise .arg

theorem checkElems_raises {b : Bank} {src : ErrSrc} {p j : Nat} :
    (checkElems s b src p n j).RaisesOnly (CheckError i) := by
  induction n generalizing j with
  | zero => exact .pass []
  | succ n ih =>
    unfold checkElems
    split
    · exact .stop _
    · split
      · exact ih.bind fun vs => .pass _
      · exact .raise (.range src j)

theorem checkScalar_raises {v : Nat} {src : ErrSrc} :
    (checkScalar v src n).RaisesOnly (CheckError i) := by
  unfold checkScalar
  split
  · exact .pass v
  · exact .raise (.range src 0)

theorem checkInvertible_raises {x : Nat} : (checkInvertible n x).RaisesOnly (CheckError i) := by
  unfold checkInvertible
  split
  · exact .pass _
  · exact .raise .noinv

end

/-! ### A command as its length check, its operand checks and its writes -/

/-- The checks of a source bank after those of the length (40_ring_arithmetic.md R136). -/
def vectorOperand (s : State) (rs1 : Bank) (n : Nat) : Check (Nat × List Nat) :=
  (checkBank s rs1 .rs1 n).bind fun vs => .pass (n, vs)

/-- The check of RX after that of the length (40_ring_arithmetic.md R136). -/
def scalarOperand (s : State) (n : Nat) : Check (Nat × Nat) :=
  (checkScalar s.rx .rx n).bind fun x => .pass (n, x)

theorem prologueVec1_eq_bind (s : State) (bs : List Bank) (rs1 : Bank) :
    prologueVec1 s bs rs1 = (prologueK s bs).bind (vectorOperand s rs1) := rfl

theorem prologueScalar1_eq_bind (s : State) :
    prologueScalar1 s = (prologueK s []).bind (scalarOperand s) := rfl

theorem vectorOperand_raises {s : State} {i : Instr} {rs1 : Bank} {n : Nat} :
    (vectorOperand s rs1 n).RaisesOnly (CheckError i) :=
  checkElems_raises.bind fun _ => .pass _

theorem scalarOperand_raises {s : State} {i : Instr} {n : Nat} :
    (scalarOperand s n).RaisesOnly (CheckError i) :=
  checkScalar_raises.bind fun _ => .pass _

/-- The operand checks do not depend on the inputs still pending. -/
theorem checkElems_withInputs (s : State) (r : List Input) (b : Bank) (src : ErrSrc) (p n j : Nat) :
    checkElems (s.withInputs r) b src p n j = checkElems s b src p n j := by
  induction n generalizing j with
  | zero => rfl
  | succ n ih => simp only [checkElems, withInputs_cfg, withInputs_mem, ih]

theorem checkBank_withInputs (s : State) (r : List Input) (b : Bank) (src : ErrSrc) (n : Nat) :
    checkBank (s.withInputs r) b src n = checkBank s b src n :=
  checkElems_withInputs s r b src _ _ _

theorem vectorOperand_withInputs (s : State) (r : List Input) (rs1 : Bank) (n : Nat) :
    vectorOperand (s.withInputs r) rs1 n = vectorOperand s rs1 n := by
  rw [vectorOperand, checkBank_withInputs, vectorOperand]

/-- The command is its checks of bank fields and length, then checks of its operands, then writes
together with the completion. Neither the operand checks nor the writes depend on the inputs still
pending, and the writes leave the event flags alone. -/
structure ChecksLengthFirst (i : Instr) {α : Type} (operands : State → Nat → Check α)
    (write : State → α → State) : Prop where
  exec_eq : ∀ s, exec i s = ((prologueK s i.banks).bind (operands s)).finish s (write s)
  raises : ∀ s n, (operands s n).RaisesOnly (CheckError i)
  write_err : ∀ s a, (write s a).err = s.err
  operands_withInputs : ∀ s r n, operands (s.withInputs r) n = operands s n
  write_withInputs : ∀ s r a, write (s.withInputs r) a = (write s a).withInputs r

section
variable {i : Instr}

theorem encode_checksLengthFirst {rd : Bank} {mag : State → Nat}
    (hmag : ∀ s r, mag (s.withInputs r) = mag s) (hb : i.banks = [rd])
    (he : ∀ s, exec i s = execEncode (mag s) rd s) :
    ChecksLengthFirst i (fun _ n => .pass n)
      (fun s n => s.setBank rd (digitEncode (mag s) (2 ^ n))) where
  exec_eq s := by
    rw [he, hb, execEncode]
    cases prologueK s [rd] <;> rfl
  raises _ n := .pass n
  write_err _ _ := rfl
  operands_withInputs _ _ _ := rfl
  write_withInputs s r n := by rw [hmag]; rfl

/-- A command of one source bank. -/
theorem vector_checksLengthFirst {rs1 : Bank} {write : State → Nat × List Nat → State}
    (he : ∀ s, exec i s = (prologueVec1 s i.banks rs1).finish s (write s))
    (herr : ∀ s a, (write s a).err = s.err)
    (hins : ∀ s r a, write (s.withInputs r) a = (write s a).withInputs r) :
    ChecksLengthFirst i (fun s => vectorOperand s rs1) write where
  exec_eq := he
  raises _ _ := vectorOperand_raises
  write_err := herr
  operands_withInputs s r n := vectorOperand_withInputs s r rs1 n
  write_withInputs := hins

/-- A command of one source bank that writes a bank. -/
theorem transform_checksLengthFirst {rd rs1 : Bank} {f : Nat × List Nat → List Nat}
    (he : ∀ s, exec i s = (prologueVec1 s i.banks rs1).finish s fun a => s.setBank rd (f a)) :
    ChecksLengthFirst i (fun s => vectorOperand s rs1) (fun s a => s.setBank rd (f a)) :=
  vector_checksLengthFirst he (fun _ _ => rfl) fun _ _ _ => rfl

theorem nttw_checksLengthFirst (rd rs1 : Bank) :
    ChecksLengthFirst (.nttw rd rs1)
      (fun s n => (vectorOperand s rs1 n).bind fun a =>
        (checkScalar s.rx .rx a.1).bind fun w => .pass (a.1, a.2, w))
      (fun s a => s.setBank rd (transform (modulusOf a.1) a.1 a.2.2 a.2.1)) where
  exec_eq s := by
    rw [exec, execNttw, prologueNttw, prologueVec1_eq_bind, Check.bind_assoc]
    rfl
  raises _ _ := vectorOperand_raises.bind fun _ => checkScalar_raises.bind fun _ => .pass _
  write_err _ _ := rfl
  operands_withInputs s r n := by rw [vectorOperand_withInputs, withInputs_rx]
  write_withInputs _ _ _ := rfl

theorem pointwise_checksLengthFirst {rd rs1 rs2 : Bank} {op : Nat → Nat → Nat → Nat}
    (hb : i.banks = [rd, rs1, rs2]) (he : ∀ s, exec i s = execPointwise op rd rs1 rs2 s) :
    ChecksLengthFirst i
      (fun s n => (vectorOperand s rs1 n).bind fun a =>
        (checkBank s rs2 .rs2 a.1).bind fun ws => .pass (a.1, a.2, ws))
      (fun s a => s.setBank rd (List.zipWith (op (modulusOf a.1)) a.2.1 a.2.2)) where
  exec_eq s := by
    rw [he, hb, execPointwise, prologueVec2, prologueVec1_eq_bind, Check.bind_assoc]
  raises _ _ := vectorOperand_raises.bind fun _ => checkElems_raises.bind fun _ => .pass _
  write_err _ _ := rfl
  operands_withInputs s r n := by simp only [vectorOperand_withInputs, checkBank_withInputs]
  write_withInputs _ _ _ := rfl

theorem scalar2_checksLengthFirst {op : Nat → Nat → Nat → Nat}
    (hb : i.banks = []) (he : ∀ s, exec i s = execScalar2 op s) :
    ChecksLengthFirst i
      (fun s n => (scalarOperand s n).bind fun a =>
        (checkScalar s.ry .ry a.1).bind fun y => .pass (a.1, a.2, y))
      (fun s a => s.setRz (op (modulusOf a.1) a.2.1 a.2.2)) where
  exec_eq s := by
    rw [he, hb, execScalar2, prologueScalar2, prologueScalar1_eq_bind, Check.bind_assoc]
  raises _ _ := scalarOperand_raises.bind fun _ => checkScalar_raises.bind fun _ => .pass _
  write_err _ _ := rfl
  operands_withInputs _ _ _ := rfl
  write_withInputs _ _ _ := rfl

theorem minv_checksLengthFirst :
    ChecksLengthFirst .minv
      (fun s n => (scalarOperand s n).bind fun a => checkInvertible a.1 a.2)
      (fun s a => s.setRz (rinv (modulusOf a.1) a.2)) where
  exec_eq s := by
    rw [exec, execMinv, prologueScalar1_eq_bind, Check.bind_assoc]
    rfl
  raises _ _ := scalarOperand_raises.bind fun _ => checkInvertible_raises
  write_err _ _ := rfl
  operands_withInputs _ _ _ := rfl
  write_withInputs _ _ _ := rfl

/-- Every command but NOP and MUL checks its length before its operands (60_exceptions.md R260). -/
theorem exec_checksLengthFirst (hn : i ≠ .nop) (hm : i ≠ .mul) :
    ∃ (α : Type) (operands : State → Nat → Check α) (write : State → α → State),
      ChecksLengthFirst i operands write := by
  cases i with
  | nop => exact absurd rfl hn
  | mul => exact absurd rfl hm
  | enca rd => exact ⟨_, _, _, encode_checksLengthFirst (mag := State.opa) (fun _ _ => rfl) rfl
      fun _ => rfl⟩
  | encb rd => exact ⟨_, _, _, encode_checksLengthFirst (mag := State.opb) (fun _ _ => rfl) rfl
      fun _ => rfl⟩
  | dec rs1 =>
    exact ⟨_, _, _, vector_checksLengthFirst (fun _ => rfl) (fun _ _ => rfl) fun _ _ _ => rfl⟩
  | nttf rd rs1 => exact ⟨_, _, _, transform_checksLengthFirst fun _ => rfl⟩
  | ntti rd rs1 => exact ⟨_, _, _, transform_checksLengthFirst fun _ => rfl⟩
  | nttw rd rs1 => exact ⟨_, _, _, nttw_checksLengthFirst rd rs1⟩
  | scal rd rs1 => exact ⟨_, _, _, transform_checksLengthFirst fun _ => rfl⟩
  | padd rd rs1 rs2 => exact ⟨_, _, _, pointwise_checksLengthFirst rfl fun _ => rfl⟩
  | psub rd rs1 rs2 => exact ⟨_, _, _, pointwise_checksLengthFirst rfl fun _ => rfl⟩
  | pmul rd rs1 rs2 => exact ⟨_, _, _, pointwise_checksLengthFirst rfl fun _ => rfl⟩
  | madd => exact ⟨_, _, _, scalar2_checksLengthFirst rfl fun _ => rfl⟩
  | msub => exact ⟨_, _, _, scalar2_checksLengthFirst rfl fun _ => rfl⟩
  | mmul => exact ⟨_, _, _, scalar2_checksLengthFirst rfl fun _ => rfl⟩
  | minv => exact ⟨_, _, _, minv_checksLengthFirst⟩

end

/-- Settles O39: the length is checked right after the bank fields. -/
theorem lengthErrorComesFirst : Obligations.LengthErrorComesFirst := by
  intro i s hwf hn hm hk
  obtain ⟨α, operands, write, h⟩ := exec_checksLengthFirst hn hm
  rw [h.exec_eq, prologueK_arg hwf hk, Check.bind_raise, Check.finish_raise]
  rfl

/-! ### E_CAP (60_exceptions.md R254) -/

/-- Settles O16: E_CAP is one end of the non-trivial path, and the trivial path keeps ECODE. -/
theorem mulCapacityError : Obligations.MulCapacityError := by
  refine ⟨fun s n hp h hlen hcap => (mulNttPath s n hp h hlen).2.1 hcap,
    fun s t hp hcode ha hb h => ?_⟩
  rw [mulTrivialPath s hp ha hb, Host.Outcome.next.injEq] at h
  subst h
  exact hcode

/-! ### The event flags after a command (60_exceptions.md R250, R261) -/

theorem leaveFin_events (w : Work) (s : State) :
    (leaveFin w s).done = true ∧ (leaveFin w s).err = s.err := by
  unfold leaveFin
  split <;> exact ⟨rfl, rfl⟩

/-- A command that begins with no event pending ends with exactly one. -/
theorem CommandEnd.done_eq_not_err {s t : State} (h : CommandEnd s t) (hdone : s.done = false)
    (herr : s.err = false) : t.done = !t.err := by
  cases h with
  | completed hu => cases hu <;> simp [herr]
  | erred e => simp [hdone]

theorem MulOutcome.done_eq_not_err {s t : State} (h : MulOutcome s t) (hp : t.phase = .idle)
    (hdone : s.done = false) (herr : s.err = false) : t.done = !t.err := by
  cases h with
  | moved ph w hidle hsub htrack => exact absurd hp hidle
  | finished w htrack =>
    obtain ⟨hd, he⟩ := leaveFin_events w s
    rw [hd, he, herr]
    rfl
  | capped dA dB => simp [hdone]

theorem exec_done_eq_not_err {i : Instr} {s t : State} (h : exec i s = .next t)
    (hdone : s.done = false) (herr : s.err = false) : t.done = !t.err := by
  by_cases hi : i = .mul
  · subst hi
    exact (exec_mul_outcome h).done_eq_not_err (exec_phase h) hdone herr
  · exact (exec_end hi h).done_eq_not_err hdone herr

/-- Settles O38. -/
theorem commandEndsInOneOfTwoWays : Obligations.CommandEndsInOneOfTwoWays := by
  intro s t hr hp hin hdone herr h
  rw [step_running hin hr hp] at h
  refine ⟨runCommand_phase h, ?_⟩
  rcases runCommand_next h with ⟨i, -, he⟩ | ⟨-, rfl⟩
  · exact exec_done_eq_not_err he hdone herr
  · simp [hdone]

theorem Answers.irq_eq {s t u : State} {inp : Input} (h : Answers s inp t) (h' : Answers s inp u) :
    t.irq = u.irq :=
  (congrArg State.irq (h.unique h') :)

/-- Settles O54: one event follows a command, and the three host writes are known whole. -/
theorem interruptLine : Obligations.InterruptLine := by
  refine ⟨fun s => rfl, fun i s t hdone herr h => ?_, fun s t v hr hv h => ?_,
    fun s t v hr h1 h2 h => ?_, fun s t c hr hp h => ?_, fun c => rfl⟩
  · have hie : t.ie = s.ie := (onlyTheseCommandsWrite i s t h).1.2.1
    rw [State.irq, exec_done_eq_not_err h hdone herr, hie]
    simp
  · rw [h.irq_eq (controlWrite s v hr hv)]
    rfl
  · rw [h.irq_eq (statusWriteClearsEvents s v hr)]
    simp [State.irq, h1, h2]
  · rw [h.irq_eq (commandWriteIsAccepted s c hr hp)]
    simp [State.irq]

/-! ### What an error writes (60_exceptions.md R258, R259) -/

/-- A checked command with ERR set at its end has raised an error of its checks. -/
theorem ChecksLengthFirst.raised {i : Instr} {α : Type} {operands : State → Nat → Check α}
    {write : State → α → State} (hi : ChecksLengthFirst i operands write) {s t : State}
    (h : exec i s = .next t) (hs : s.err = false) (ht : t.err = true) :
    ∃ e, CheckError i e ∧ t = raiseErr e s := by
  rw [hi.exec_eq] at h
  rcases Check.finish_next h with ⟨a, -, rfl⟩ | ⟨e, he, rfl⟩
  · rw [complete_err, hi.write_err, hs] at ht
    exact absurd ht (by decide)
  · exact ⟨e, prologueK_raises.bind (hi.raises s) e he, rfl⟩

theorem exec_raised {i : Instr} {s t : State} (hm : i ≠ .mul) (h : exec i s = .next t)
    (hs : s.err = false) (ht : t.err = true) : ∃ e, CheckError i e ∧ t = raiseErr e s := by
  by_cases hn : i = .nop
  · subst hn
    rw [exec_nop, Host.Outcome.next.injEq] at h
    subst h
    exact absurd (hs.symm.trans ht) (by decide)
  · obtain ⟨α, operands, write, hi⟩ := exec_checksLengthFirst hn hm
    exact hi.raised h hs ht

/-- The ways a run of the command in flight ends in an error. -/
inductive CommandFailure (s : State) : State → Prop where
  | raised (e : Error) (hcap : e ≠ .cap) (hill : e = .illegal → decode s.cmd = none) :
      CommandFailure s (raiseErr e s)
  | capped (dA dB : Nat) (hd : decode s.cmd = some .mul) :
      CommandFailure s (raiseErr .cap (s.setDigits dA dB))

/-- MUL fails with E_CAP only (60_exceptions.md R254, R272). -/
theorem CommandFailure.of_mul {s t : State} (hd : decode s.cmd = some .mul) (h : MulOutcome s t)
    (hs : s.err = false) (ht : t.err = true) : CommandFailure s t := by
  cases h with
  | moved ph w hidle hsub htrack => exact absurd (hs.symm.trans ht) (by decide)
  | finished w htrack =>
    exact absurd (hs.symm.trans ((leaveFin_events w s).2.symm.trans ht)) (by decide)
  | capped dA dB => exact .capped dA dB hd

theorem runCommand_failure {s t : State} (h : runCommand s = .next t) (hs : s.err = false)
    (ht : t.err = true) : CommandFailure s t := by
  rcases runCommand_next h with ⟨i, hd, he⟩ | ⟨hd, rfl⟩
  · by_cases hm : i = .mul
    · subst hm
      exact .of_mul hd (exec_mul_outcome he) hs ht
    · obtain ⟨e, herr, rfl⟩ := exec_raised hm he hs ht
      refine .raised e herr.ne_cap fun hill => ?_
      subst hill
      cases herr with
      | illegal hwf => exact absurd (decode_eq_some_iff.1 hd).1 hwf
  · exact .raised .illegal (by simp) fun _ => hd

theorem Error.ecode_ne_none (e : Error) : e.ecode ≠ .none := by cases e <;> simp [Error.ecode]

theorem Error.eq_cap_of_ecode {e : Error} (h : e.ecode = .cap) : e = .cap := by
  cases e <;> simp [Error.ecode] at h ⊢

theorem Error.eq_illegal_of_ecode {e : Error} (h : e.ecode = .illegal) : e = .illegal := by
  cases e <;> simp [Error.ecode] at h ⊢

/-- ERRINFO is written by E_RANGE only (60_exceptions.md R259). -/
theorem Error.info_of_ecode_ne_range {e : Error} (h : e.ecode ≠ .range) (src : ErrSrc)
    (idx : BitVec 16) : e.srcAfter src = src ∧ e.idxAfter idx = idx := by
  cases e with
  | range src' idx' => exact absurd rfl h
  | _ => exact ⟨rfl, rfl⟩

theorem raiseErr_irq (e : Error) (s : State) : (raiseErr e s).irq = s.ie := by simp [State.irq]

/-- Settles O37, by the two ways to fail. -/
theorem errorsWriteNothingElse : Obligations.ErrorsWriteNothingElse := by
  intro s t hr hp hin hs h ht
  rw [step_running hin hr hp] at h
  cases runCommand_failure h hs ht with
  | raised e hcap hill =>
    exact ⟨rfl, e.ecode_ne_none, raiseErr_irq e s, fun hc => Error.info_of_ecode_ne_range hc _ _,
      fun _ => ⟨rfl, rfl⟩, fun hc => absurd (Error.eq_cap_of_ecode hc) hcap,
      fun hc => hill (Error.eq_illegal_of_ecode hc)⟩
  | capped dA dB hd =>
    exact ⟨rfl, Error.ecode_ne_none .cap, raiseErr_irq .cap _, fun _ => ⟨rfl, rfl⟩,
      fun hc => absurd rfl hc, fun _ => hd,
      fun hc => absurd (Error.eq_illegal_of_ecode (e := .cap) hc) (by simp)⟩

end Sys2Proof.Machine
end

section
/-! SUPPORT. The schedule of the sequencer's moves has no part in a command's result: a command does not
look at the inputs still pending, and each move of MUL comes nearer to the same end (60_exceptions.md
R262; 20_memory.md R90). -/

namespace Sys2Proof.Machine

/-! ### The pending inputs have no part in a command -/

/-- An outcome with the inputs still pending replaced. -/
def withPending (r : List Input) :
    Host.Outcome State Fault Refusal → Host.Outcome State Fault Refusal
  | .next t => .next (t.withInputs r)
  | .fault f => .fault f
  | .refused x => .refused x

theorem Check.finish_withInputs {α : Type} (c : Check α) (s : State) (k : α → State)
    (r : List Input) :
    c.finish (s.withInputs r) (fun a => (k a).withInputs r) = withPending r (c.finish s k) := by
  cases c <;> rfl

theorem ChecksLengthFirst.exec_withInputs {i : Instr} {α : Type}
    {operands : State → Nat → Check α} {write : State → α → State}
    (hi : ChecksLengthFirst i operands write) (s : State) (r : List Input) :
    exec i (s.withInputs r) = withPending r (exec i s) := by
  have hops : operands (s.withInputs r) = operands s := funext (hi.operands_withInputs s r)
  have hwrite : write (s.withInputs r) = fun a => (write s a).withInputs r :=
    funext (hi.write_withInputs s r)
  rw [hi.exec_eq, hi.exec_eq, hops, hwrite]
  exact Check.finish_withInputs _ s (write s) r

theorem mulFinish_withInputs (n : Nat) (s : State) (r : List Input) :
    mulFinish n (s.withInputs r) = (mulFinish n s).withInputs r := by
  induction n generalizing s with
  | zero => rfl
  | succ n ih =>
    rw [mulFinish_succ, mulFinish_succ, mulMove_withInputs, withInputs_phase, ih]
    split <;> rfl

theorem exec_withInputs (i : Instr) (s : State) (r : List Input) :
    exec i (s.withInputs r) = withPending r (exec i s) := by
  by_cases hm : i = .mul
  · subst hm
    rw [exec_mul, exec_mul, mulFinish_withInputs]
    rfl
  · by_cases hn : i = .nop
    · subst hn
      rfl
    · obtain ⟨α, operands, write, hi⟩ := exec_checksLengthFirst hn hm
      exact hi.exec_withInputs s r

theorem runCommand_withInputs (s : State) (r : List Input) :
    runCommand (s.withInputs r) = withPending r (runCommand s) := by
  unfold runCommand
  rw [withInputs_cmd]
  split
  · exact exec_withInputs _ s r
  · rfl

/-! ### Runs of any number of moves (60_exceptions.md R262) -/

theorem mulFinish_of_ended {s : State} (h : (mulMove s).phase = .idle) (n : Nat) :
    mulFinish (n + 1) s = mulMove s := if_pos h

theorem mulFinish_of_busy {s : State} (h : (mulMove s).phase ≠ .idle) (n : Nat) :
    mulFinish (n + 1) s = mulFinish n (mulMove s) := if_neg h

/-- Once MUL has ended within its moves, more of them change nothing. -/
theorem mulFinish_stable {n : Nat} {s : State} (h : movesLeft s.phase ≤ n + 1) :
    mulFinish (n + 2) s = mulFinish (n + 1) s := by
  induction n generalizing s with
  | zero =>
    rcases mulMove_idle_or_nearer s with hi | hlt
    · rw [mulFinish_of_ended hi, mulFinish_of_ended hi]
    · have hpos := movesLeft_pos (mulMove s).phase
      omega
  | succ n ih =>
    by_cases hi : (mulMove s).phase = .idle
    · rw [mulFinish_of_ended hi, mulFinish_of_ended hi]
    · have hlt := (mulMove_idle_or_nearer s).resolve_left hi
      rw [mulFinish_of_busy hi, mulFinish_of_busy hi]
      exact ih (by omega)

/-- A move of MUL that does not end it leaves the end it will come to as it was. -/
theorem mulFinish_mulMove {s : State} (hb : (mulMove s).phase ≠ .idle) :
    mulFinish 8 (mulMove s) = mulFinish 8 s := by
  have hlt := (mulMove_idle_or_nearer s).resolve_left hb
  have hle := movesLeft_le s.phase
  exact (mulFinish_stable (n := 6) (by omega)).trans (mulFinish_of_busy hb 7).symm

theorem step_eq_runCommand {s : State} (hr : s.rstN = true) (hp : s.phase ≠ .idle) :
    step (s.withInputs []) = withPending [] (runCommand s) :=
  (step_running (s := s.withInputs []) rfl hr hp).trans (runCommand_withInputs s [])

theorem step_mul {s : State} (hr : s.rstN = true) (hp : s.phase ≠ .idle)
    (hd : decode s.cmd = some .mul) :
    step (s.withInputs []) = .next ((mulFinish 8 s).withInputs []) := by
  rw [step_eq_runCommand hr hp, runCommand_of_decode hd]
  rfl

/-- A step that stops the model ends the run. -/
theorem run_fault {n : Nat} {s : State} {f : Fault} (h : step s = .fault f) :
    Host.Core.run Sys2Proof.core (n + 1) s = .fault f := by
  have hstep : Sys2Proof.core.step s = .fault f := h
  simp only [Host.Core.run, hstep]

theorem run_refused {n : Nat} {s : State} {x : Refusal} (h : step s = .refused x) :
    Host.Core.run Sys2Proof.core (n + 1) s = .refused x := by
  have hstep : Sys2Proof.core.step s = .refused x := h
  simp only [Host.Core.run, hstep]

theorem run_one (s : State) : Host.Core.run Sys2Proof.core 1 s = step s := by
  cases h : step s with
  | next t => exact run_succ h
  | fault f => exact run_fault h
  | refused x => exact run_refused h

/-- Moves given to an idle engine are spent without effect (43_orchestrator.md R212). -/
theorem run_idle {s : State} (hp : s.phase = .idle) (n : Nat) :
    Host.Core.run Sys2Proof.core (n + 1) (s.withInputs (List.replicate n .seq)) =
      .next (s.withInputs []) := by
  induction n with
  | zero => exact (run_one _).trans (seqFinish_idle (s := s.withInputs []) hp)
  | succ n ih =>
    have hstep : step (s.withInputs (List.replicate (n + 1) .seq)) =
        .next (s.withInputs (List.replicate n .seq)) :=
      seqMove_idle (s := s.withInputs (List.replicate n .seq)) hp
    exact (run_succ hstep).trans ih

/-- A first step that ends the command, or stops the model, decides the run. -/
theorem run_of_ended {n : Nat} {s : State} {o : Host.Outcome State Fault Refusal}
    (h : step s = withPending (List.replicate n .seq) o)
    (hend : ∀ t, o = .next t → t.phase = .idle) :
    Host.Core.run Sys2Proof.core (n + 2) s = withPending [] o := by
  cases o with
  | next t => exact (run_succ h).trans (run_idle (hend t rfl) n)
  | fault f => exact run_fault h
  | refused x => exact run_refused h

/-- Settles O11, by induction on the moves: MUL comes nearer to the same end with each, and every
other command ends with the first. -/
theorem scheduleDoesNotChangeResults : Obligations.ScheduleDoesNotChangeResults := by
  intro s n hr hp
  induction n generalizing s with
  | zero => exact run_one _
  | succ n ih =>
    by_cases hd : decode s.cmd = some .mul
    · have hfirst := answers_seq_mul hr hp hd (List.replicate n .seq)
      rw [step_mul hr hp hd]
      by_cases hb : (mulMove s).phase = .idle
      · rw [mulFinish_of_ended hb]
        exact run_of_ended (o := .next (mulMove s)) hfirst fun t ht => by
          rw [Host.Outcome.next.injEq] at ht
          exact ht ▸ hb
      · obtain ⟨-, hcmd, hrst, -⟩ := mulMove_keeps s
        have hr' : (mulMove s).rstN = true := hrst.trans hr
        rw [List.replicate_succ, run_succ hfirst, ih _ hr' hb,
          step_mul hr' hb (hcmd.symm ▸ hd), mulFinish_mulMove hb]
    · have hfirst : step (s.withInputs (List.replicate (n + 1) .seq)) =
          withPending (List.replicate n .seq) (runCommand s) :=
        calc step (s.withInputs (List.replicate (n + 1) .seq))
          _ = seqMove (s.withInputs (List.replicate n .seq)) := rfl
          _ = moveCommand (s.withInputs (List.replicate n .seq)) :=
            seqMove_running (s := s.withInputs (List.replicate n .seq)) hr hp
          _ = runCommand (s.withInputs (List.replicate n .seq)) :=
            moveCommand_other (s := s.withInputs (List.replicate n .seq)) hd
          _ = withPending (List.replicate n .seq) (runCommand s) := runCommand_withInputs s _
      rw [step_eq_runCommand hr hp]
      exact run_of_ended hfirst fun t ht => runCommand_phase ht

end Sys2Proof.Machine
end

section
/-! SUPPORT. The engine in reset and right after it, and the end of a command after a bounded number of
moves, with the settled statements of 70_reset_and_hazards.md (R281, R284, R297). -/

namespace Sys2Proof.Machine

/-! ### The reset input asserted (70_reset_and_hazards.md R281) -/

theorem hostRead_inReset {s : State} (w : Width) (a : Word) (hr : s.rstN = false) :
    hostRead w a s = .fault .hostAccessDuringReset := if_pos hr

theorem hostWrite_inReset {s : State} (w : Width) (a v : Word) (hr : s.rstN = false) :
    hostWrite w a v s = .fault .hostAccessDuringReset := if_pos hr

theorem seqMove_inReset {s : State} (hr : s.rstN = false) : seqMove s = .next s :=
  if_neg fun h => absurd ((running_iff s).1 h).1 (by simp [hr])

/-- Settles O55. -/
theorem hostAccessDuringReset : Obligations.HostAccessDuringReset := fun s w a v rest hr =>
  ⟨hostRead_inReset (s := s.withInputs rest) w a hr,
    hostWrite_inReset (s := s.withInputs rest) w a v hr,
    fun later => seqMove_inReset (s := s.withInputs later) hr⟩

/-! ### A MUL right after reset (70_reset_and_hazards.md R284) -/

theorem decode_one : decode 1 = some .mul := (decode_eq_some_iff_of_no_banks rfl 1).2 rfl

/-- MUL is accepted into SIGN (43_orchestrator.md R213). -/
theorem accept_one_phase (s : State) : (accept 1 s).phase = .sign := by
  rw [accept_phase, decode_one]
  rfl

/-- The step after the acceptance of MUL runs it to its end. -/
theorem step_taken_one {s : State} (hr : s.rstN = true) :
    step ((taken 1 s).withInputs []) = exec .mul ((taken 1 s).withInputs []) := by
  rw [step_taken 1 hr, runCommand_of_decode (i := .mul) (by exact decode_one)]

/-- With both operands 0, neither has a digit, so the product is 0 on the trivial path
(43_orchestrator.md R219, R221). -/
theorem exec_mul_zero {s : State} (hp : s.phase = .sign) (ha : s.opa = 0) (hb : s.opb = 0) :
    exec .mul s = .next { Ended s with
      res := 0, resNeg := false, da := 0, db := 0, triv := true } := by
  have hprod : signedValue s.aneg s.opa * signedValue s.bneg s.opb = 0 := by
    simp [signedValue, ha]
  have hda : digitCount s.opa = 0 := by rw [ha, digitCount_zero]
  have hdb : digitCount s.opb = 0 := by rw [hb, digitCount_zero]
  rw [mulTrivialPath s hp (by omega) (by omega), hprod, hda, hdb]
  rfl

/-- Settles O23: the write of CMD, then the run of MUL on the operands 0. -/
theorem mulAfterReset : Obligations.MulAfterReset := by
  intro c
  have hsign : ((taken 1 (State.resetOf c)).withInputs []).phase = .sign := accept_one_phase _
  rw [run_succ (answers_write_cmd 1 rfl rfl []), run_one, step_taken_one rfl,
    exec_mul_zero hsign rfl rfl]
  rfl

/-! ### The end of a command (70_reset_and_hazards.md R297; 43_orchestrator.md R211) -/

/-- Moves given to an idle engine are spent without effect, whatever is pending behind them
(43_orchestrator.md R212). -/
theorem run_moves_idle {s : State} (hp : s.phase = .idle) (rest : List Input) (n : Nat) :
    Host.Core.run Sys2Proof.core n (s.withInputs (List.replicate n .seq ++ rest)) =
      .next (s.withInputs rest) := by
  obtain ⟨-, -, hfirst⟩ := idleEngineKeepsState s hp
  induction n with
  | zero => rfl
  | succ n ih =>
    rw [List.replicate_succ, List.cons_append, run_succ (hfirst _)]
    exact ih

/-- Moves given to a MUL take it as far towards its end as `mulFinish` does in as many moves. -/
theorem run_moves_mul {s : State} (hr : s.rstN = true) (hp : s.phase ≠ .idle)
    (hd : decode s.cmd = some .mul) (rest : List Input) (n : Nat) :
    Host.Core.run Sys2Proof.core n (s.withInputs (List.replicate n .seq ++ rest)) =
      .next ((mulFinish n s).withInputs rest) := by
  induction n generalizing s with
  | zero => rfl
  | succ n ih =>
    have hfirst := answers_seq_mul hr hp hd (List.replicate n .seq ++ rest)
    rw [List.replicate_succ, List.cons_append, run_succ hfirst]
    by_cases hb : (mulMove s).phase = .idle
    · rw [mulFinish_of_ended hb]
      exact run_moves_idle hb rest n
    · obtain ⟨-, hcmd, hrst, -⟩ := mulMove_keeps s
      rw [mulFinish_of_busy hb]
      exact ih (hrst.trans hr) hb (hcmd.symm ▸ hd)

/-- Settles O12: eight moves are enough for MUL from any phase, and what a run to the end answers is
idle. -/
theorem commandsEndInFinitelyManyMoves : Obligations.CommandsEndInFinitelyManyMoves := by
  refine ⟨fun s rest hr hp hd => ⟨(mulFinish 8 s).withInputs rest, run_moves_mul hr hp hd rest 8,
    mulFinish_phase (movesLeft_le s.phase), rfl⟩, fun s t hr hp hin h => ?_⟩
  rw [step_running hin hr hp] at h
  exact runCommand_phase h

end Sys2Proof.Machine
end
